-- ==== Sys2Proof/Word.lean ====
section
/-! DEFINITION. The machine's words: a byte, a register address, a value of the HOST port (R10, R28, R69).
-/
namespace Sys2Proof

/-- A byte is 8 bits; bit 0 is the least significant (R10). -/
abbrev Byte := BitVec 8

/-- A register address as PRA and the HOST port hold it: 16 bits (R28, R40, R69; decisions D10 and D26). -/
abbrev Addr := BitVec 16

/-- A value on the HOST port: 32 bits (R8, R69). -/
abbrev Value := BitVec 32

end Sys2Proof
end

