-- ==== Sys2Proof/Config.lean ====
section
/-! DEFINITION. The configuration CFG (R7, R20, R21, R24), the fixed constants of the block (R8), and the free values: what
the spec leaves to any value (R9; U1 and U4 of spec/93_implementation_defined.md).
-/
namespace Sys2Proof

/-- RegisterWidth: 1, 2 or 4 bytes (R7, R21). -/
inductive RegWidth where
  | w1
  | w2
  | w4
deriving DecidableEq, Repr

/-- AddressWidth: 1 or 2 bytes (R7, R21). -/
inductive AddrWidth where
  | a1
  | a2
deriving DecidableEq, Repr

/-- RW in bytes. -/
def RegWidth.bytes : RegWidth → Nat
  | .w1 => 1
  | .w2 => 2
  | .w4 => 4

/-- AW in bytes. -/
def AddrWidth.bytes : AddrWidth → Nat
  | .a1 => 1
  | .a2 => 2

/-- CFG, the tuple (N, RW, AW, BUS_ADDR) of R20. The widths and BUS_ADDR are legal by their types; the bound on N is
`Cfg.legal`. BUS_ADDR is the transport's: no operation reads it (R23). -/
structure Cfg where
  n : Nat
  rw : RegWidth
  aw : AddrWidth
  busAddr : BitVec 7
deriving DecidableEq, Repr

/-- MAX_REGS(AW) = 256^AW (R8). -/
def Cfg.maxRegs (c : Cfg) : Nat := 256 ^ c.aw.bytes

/-- The one condition of R21 that the types leave open: 0 ≤ N ≤ 256^AW. -/
def Cfg.legal (c : Cfg) : Bool := decide (c.n ≤ c.maxRegs)

/-- The size of the register buffer, N · RW bytes (R24, R25). -/
def Cfg.bufSize (c : Cfg) : Nat := c.n * c.rw.bytes

/-- The change-flag capacity FLAG_SLOTS (R8). -/
def flagSlots : Nat := 32

/-- FREE VALUE (log 3): byte `k` of INIT_BUF in draw number `draw` (R100, R140, D4, U1). It has no body: nothing can be
proved of it. -/
opaque Config.initByte (draw k : Nat) : Byte

/-- FREE VALUE (log 4): the IDX output of a DRAIN that answers VALID = 0, in draw number `draw` (R104, D11, U4). -/
opaque Config.freeIdx (draw : Nat) : BitVec 5

end Sys2Proof
end

