-- ==== Sys2Proof/Machine/Flags.lean ====
section
/-! DEFINITION. The change flags CF as a 32-bit word: setting a bit (R31, R83) and the drain's find-lowest-and-clear (R104).
-/
namespace Sys2Proof

/-- `CF | (1 << a)` (R83). -/
def setFlag (cf : BitVec 32) (a : Nat) : BitVec 32 := cf ||| (1#32 <<< a)

/-- `CF & ~(1 << i)` (R104). -/
def clearFlag (cf : BitVec 32) (i : Nat) : BitVec 32 := cf &&& ~~~(1#32 <<< i)

/-- CF after the flag event of an in-range WRITE to address a: bit a is set exactly when a < 32 (R31, R83). -/
def notifyFlag (cf : BitVec 32) (a : Nat) : BitVec 32 := if a < flagSlots then setFlag cf a else cf

/-- The smallest set bit of x at or above i, among `fuel` bits. -/
def lowestSetFrom (x : BitVec 32) (i : Nat) : Nat → Option Nat
  | 0 => none
  | fuel + 1 => if x.getLsbD i then some i else lowestSetFrom x (i + 1) fuel

/-- `lowest_set(x)` of R11: the smallest i with x[i] = 1; none when x = 0. -/
def lowestSet (x : BitVec 32) : Option Nat := lowestSetFrom x 0 flagSlots

end Sys2Proof
end

