-- ==== Sys2Proof/Machine/Operands.lean ====
section
/-! DEFINITION. Operands: byte order (R11, R43), the value mask (R11, R24), the operands of CONFIGURE (R21, R22). The decoder
and the machine both use them.
-/
namespace Sys2Proof

/-- The number a little-endian byte sequence stands for: Σ s[j] · 2^(8j) (R11). -/
def leNat : List Byte → Nat
  | [] => 0
  | b :: bs => b.toNat + 256 * leNat bs

/-- `le_decode(s, i, n)` of R11: n bytes of s from index i, little-endian. -/
def leDecode (s : List Byte) (i n : Nat) : Nat := leNat ((s.drop i).take n)

/-- `le_encode(v, n)` of R11: n bytes of v, least significant first. -/
def leEncode (v : Nat) : Nat → List Byte
  | 0 => []
  | n + 1 => BitVec.ofNat 8 v :: leEncode (v / 256) n

/-- `zeros(n)` of R10: n bytes of 0x00. -/
def zeros (n : Nat) : List Byte := List.replicate n 0

/-- `mask(n) = 2^(8n) − 1` of R11. -/
def mask (n : Nat) : Nat := 2 ^ (8 * n) - 1

/-- The bytes a register access stores for the value v: `le_encode(v & mask(RW), RW)` (R26, R44, R83, R103). -/
def valueBytes (c : Cfg) (v : Value) : List Byte := leEncode (v.toNat &&& mask c.rw.bytes) c.rw.bytes

/-- The HOST port's view of a register's bytes: `zext_32` of their little-endian value (R44, R102). -/
def hostValue (bs : List Byte) : Value := BitVec.ofNat 32 (leNat bs)

/-- RW as CONFIGURE gives it: 1, 2 or 4 (R21). -/
def regWidthOf : Nat → Option RegWidth
  | 1 => some .w1
  | 2 => some .w2
  | 4 => some .w4
  | _ => none

/-- AW as CONFIGURE gives it: 1 or 2 (R21). -/
def addrWidthOf : Nat → Option AddrWidth
  | 1 => some .a1
  | 2 => some .a2
  | _ => none

/-- The configuration that CONFIGURE's operands describe, if it is legal (R21): RW ∈ 1, 2, 4; AW ∈ 1, 2; N ≤ 256^AW;
BUS_ADDR < 128. -/
def cfgOf (n rw aw busAddr : Nat) : Option Cfg :=
  match regWidthOf rw, addrWidthOf aw with
  | some r, some a =>
    if n ≤ 256 ^ a.bytes ∧ busAddr < 128 then some ⟨n, r, a, BitVec.ofNat 7 busAddr⟩ else none
  | _, _ => none

/-- RW when the constructor is not given one (R22). -/
def defaultRW : Nat := 4

/-- AW when the constructor is not given one (R22). -/
def defaultAW : Nat := 2

end Sys2Proof
end

