-- ==== Sys2Proof/Syntax.lean ====
section
/-! DEFINITION. The operations of the block: one constructor for each row of spec/opcode_table.json (R72).
-/
namespace Sys2Proof

/-- The operations. A frame's operands have the widths its row gives them (R62); the HOST operands those of R69. The four
operands of CONFIGURE are plain numbers, so that an illegal configuration can be presented (and refused, R21). -/
inductive Instr where
  /-- SELECT_A1: a frame of one address byte, AW = 1 (R82). -/
  | selectA1 (a : BitVec 8)
  /-- SELECT_A2: a frame of two address bytes, AW = 2 (R82). -/
  | selectA2 (a : BitVec 16)
  /-- WRITE_A1_R1: AW = 1, RW = 1 (R83). -/
  | writeA1R1 (a : BitVec 8) (v : BitVec 8)
  /-- WRITE_A1_R2: AW = 1, RW = 2 (R83). -/
  | writeA1R2 (a : BitVec 8) (v : BitVec 16)
  /-- WRITE_A1_R4: AW = 1, RW = 4 (R83). -/
  | writeA1R4 (a : BitVec 8) (v : BitVec 32)
  /-- WRITE_A2_R1: AW = 2, RW = 1 (R83). -/
  | writeA2R1 (a : BitVec 16) (v : BitVec 8)
  /-- WRITE_A2_R2: AW = 2, RW = 2 (R83). -/
  | writeA2R2 (a : BitVec 16) (v : BitVec 16)
  /-- WRITE_A2_R4: AW = 2, RW = 4 (R83). -/
  | writeA2R4 (a : BitVec 16) (v : BitVec 32)
  /-- IGNORE: a frame of any other length, with its bytes (R85). -/
  | ignore (b : List Byte)
  /-- RESP_R1: TX_REQUEST answered with one byte, RW = 1 (R86). -/
  | respR1
  /-- RESP_R2: TX_REQUEST answered with two bytes, RW = 2 (R86). -/
  | respR2
  /-- RESP_R4: TX_REQUEST answered with four bytes, RW = 4 (R86). -/
  | respR4
  /-- CONFIGURE: construction, with N, RW, AW and BUS_ADDR (R100). -/
  | configure (n rw aw busAddr : Nat)
  /-- BEGIN: activation (R101). -/
  | begin
  /-- GET: read a register from the HOST side (R102). -/
  | get (a : Addr)
  /-- SET: write a register from the HOST side (R103). -/
  | set (a : Addr) (d : Value)
  /-- DRAIN: take one pending change notification (R104). -/
  | drain
deriving DecidableEq, Repr

end Sys2Proof
end

