-- ==== Sys2Proof/WellFormed.lean ====
section
/-! DEFINITION. Which operations belong to a block of a given configuration: the "config" column and the frame lengths of
spec/opcode_table.json (R21, R63, R72).
-/
namespace Sys2Proof

/-- A frame of n bytes is of no recognized length under c (R63, R85). -/
def Cfg.unrecognized (c : Cfg) (n : Nat) : Bool := decide (n ≠ c.aw.bytes ∧ n ≠ c.aw.bytes + c.rw.bytes)

/-- The row of the instruction exists in the configuration c (the table's "config" column): SELECT rows fix AW, WRITE rows
AW and RW, RESPONSE rows RW; an IGNORE frame's length is neither AW nor AW + RW; CONFIGURE's operands are legal by themselves
(R21); the other HOST operations belong to every configuration. -/
def Instr.inConfig (c : Cfg) : Instr → Bool
  | .selectA1 _ => decide (c.aw = .a1)
  | .selectA2 _ => decide (c.aw = .a2)
  | .writeA1R1 _ _ => decide (c.aw = .a1 ∧ c.rw = .w1)
  | .writeA1R2 _ _ => decide (c.aw = .a1 ∧ c.rw = .w2)
  | .writeA1R4 _ _ => decide (c.aw = .a1 ∧ c.rw = .w4)
  | .writeA2R1 _ _ => decide (c.aw = .a2 ∧ c.rw = .w1)
  | .writeA2R2 _ _ => decide (c.aw = .a2 ∧ c.rw = .w2)
  | .writeA2R4 _ _ => decide (c.aw = .a2 ∧ c.rw = .w4)
  | .ignore b => c.unrecognized b.length
  | .respR1 => decide (c.rw = .w1)
  | .respR2 => decide (c.rw = .w2)
  | .respR4 => decide (c.rw = .w4)
  | .configure n rw aw busAddr => (cfgOf n rw aw busAddr).isSome
  | .begin => true
  | .get _ => true
  | .set _ _ => true
  | .drain => true

/-- An instruction is well formed for a machine whose configuration is `o` (none: no block exists yet, and CONFIGURE is the
only operation there is, R21, R100). -/
def wellFormed (o : Option Cfg) (i : Instr) : Bool :=
  match o, i with
  | none, .configure n rw aw busAddr => (cfgOf n rw aw busAddr).isSome
  | none, _ => false
  | some c, i => i.inConfig c

end Sys2Proof
end

