-- ==== Sys2Proof/Decode.lean ====
section
/-! DEFINITION. What the environment presents to the block (R4, R60, R69, R71), the decoder that reads an operation of
spec/opcode_table.json from it (R61 to R68), the encoder (R62, R69), and the host's view of the decoder on one table word.
-/
namespace Sys2Proof

/-- An operation as the environment presents it, in the stimulus notation of R71. A frame is its bytes in wire order, and its
count is their number (R60). CONFIGURE's widths may be left out (R22). -/
inductive Operation where
  /-- `rx [b0, b1, ...]`: RX_FRAME. -/
  | rx (b : List Byte)
  /-- `tx`: TX_REQUEST. -/
  | tx
  /-- `configure N=…, RW=…, AW=…, BUS_ADDR=…`: CONFIGURE. -/
  | configure (n : Nat) (rw aw : Option Nat) (busAddr : Nat)
  /-- `begin`: BEGIN. -/
  | begin
  /-- `get a`: GET. -/
  | get (a : Addr)
  /-- `set a, d`: SET. -/
  | set (a : Addr) (d : Value)
  /-- `drain`: DRAIN. -/
  | drain
deriving DecidableEq, Repr

/-- Why the decoder gives no instruction. No frame is ever rejected by a block (R67): the two reasons are about the block's
existence. -/
inductive Reject where
  /-- No block exists yet, so no operation on it has a step (R21, R100). Safe: the machine stops (`Fault.noBlock`). -/
  | noBlock
  /-- CONFIGURE with an illegal configuration (R21, R100, U5). Safe: the machine stops (`Refusal.illegalConfiguration`). -/
  | illegalConfiguration
deriving DecidableEq, Repr

/-- What the decoder answers. -/
inductive Decoded where
  | instr (i : Instr)
  | reject (r : Reject)
deriving DecidableEq, Repr

/-- The class of an inbound frame (R63). -/
inductive FrameClass where
  | select
  | write
  | ignore
deriving DecidableEq, Repr

/-- R63: the class is decided from the length alone, in this order. -/
def frameClass (c : Cfg) (n : Nat) : FrameClass :=
  if n = c.aw.bytes then .select
  else if n = c.aw.bytes + c.rw.bytes then .write
  else .ignore

/-- The SELECT row for AW, with address A (R62, R64). -/
def selectInstr (aw : AddrWidth) (a : Nat) : Instr :=
  match aw with
  | .a1 => .selectA1 (BitVec.ofNat 8 a)
  | .a2 => .selectA2 (BitVec.ofNat 16 a)

/-- The WRITE row for AW and RW, with address A and value V (R62, R64, R65). -/
def writeInstr (aw : AddrWidth) (rw : RegWidth) (a v : Nat) : Instr :=
  match aw, rw with
  | .a1, .w1 => .writeA1R1 (BitVec.ofNat 8 a) (BitVec.ofNat 8 v)
  | .a1, .w2 => .writeA1R2 (BitVec.ofNat 8 a) (BitVec.ofNat 16 v)
  | .a1, .w4 => .writeA1R4 (BitVec.ofNat 8 a) (BitVec.ofNat 32 v)
  | .a2, .w1 => .writeA2R1 (BitVec.ofNat 16 a) (BitVec.ofNat 8 v)
  | .a2, .w2 => .writeA2R2 (BitVec.ofNat 16 a) (BitVec.ofNat 16 v)
  | .a2, .w4 => .writeA2R4 (BitVec.ofNat 16 a) (BitVec.ofNat 32 v)

/-- The RESPONSE row for RW (R62, R86). -/
def respInstr : RegWidth → Instr
  | .w1 => .respR1
  | .w2 => .respR2
  | .w4 => .respR4

/-- An inbound frame: `A = le_decode(b, 0, AW)` (R64), `V = le_decode(b, AW, RW)` (R65), the class of R63. -/
def decodeFrame (c : Cfg) (b : List Byte) : Instr :=
  match frameClass c b.length with
  | .select => selectInstr c.aw (leDecode b 0 c.aw.bytes)
  | .write => writeInstr c.aw c.rw (leDecode b 0 c.aw.bytes) (leDecode b c.aw.bytes c.rw.bytes)
  | .ignore => .ignore b

/-- CONFIGURE with its defaults filled in (R22); an illegal configuration is rejected by name (R21, R100). -/
def decodeConfigure (n : Nat) (rw aw : Option Nat) (busAddr : Nat) : Decoded :=
  match cfgOf n (rw.getD defaultRW) (aw.getD defaultAW) busAddr with
  | some _ => .instr (.configure n (rw.getD defaultRW) (aw.getD defaultAW) busAddr)
  | none => .reject .illegalConfiguration

/-- The decoder. It needs no state but CFG (R68); with no block, only CONFIGURE is an operation (R21, R100). -/
def decode (o : Option Cfg) (op : Operation) : Decoded :=
  match op, o with
  | .configure n rw aw busAddr, _ => decodeConfigure n rw aw busAddr
  | .rx _, none => .reject .noBlock
  | .tx, none => .reject .noBlock
  | .begin, none => .reject .noBlock
  | .get _, none => .reject .noBlock
  | .set _ _, none => .reject .noBlock
  | .drain, none => .reject .noBlock
  | .rx b, some c => .instr (decodeFrame c b)
  | .tx, some c => .instr (respInstr c.rw)
  | .begin, some _ => .instr .begin
  | .get a, some _ => .instr (.get a)
  | .set a d, some _ => .instr (.set a d)
  | .drain, some _ => .instr .drain

/-- The encoder: the frame, request or call that presents the instruction. Address bytes come first, then value bytes, each
least significant first (R62); a HOST operation is itself (R69); a RESPONSE row is a read request (R86). -/
def encode : Instr → Operation
  | .selectA1 a => .rx (leEncode a.toNat 1)
  | .selectA2 a => .rx (leEncode a.toNat 2)
  | .writeA1R1 a v => .rx (leEncode a.toNat 1 ++ leEncode v.toNat 1)
  | .writeA1R2 a v => .rx (leEncode a.toNat 1 ++ leEncode v.toNat 2)
  | .writeA1R4 a v => .rx (leEncode a.toNat 1 ++ leEncode v.toNat 4)
  | .writeA2R1 a v => .rx (leEncode a.toNat 2 ++ leEncode v.toNat 1)
  | .writeA2R2 a v => .rx (leEncode a.toNat 2 ++ leEncode v.toNat 2)
  | .writeA2R4 a v => .rx (leEncode a.toNat 2 ++ leEncode v.toNat 4)
  | .ignore b => .rx b
  | .respR1 => .tx
  | .respR2 => .tx
  | .respR4 => .tx
  | .configure n rw aw busAddr => .configure n (some rw) (some aw) busAddr
  | .begin => .begin
  | .get a => .get a
  | .set a d => .set a d
  | .drain => .drain

/-- `select <a>` of R71: the frame `le_encode(a, AW)`. -/
def Operation.select (c : Cfg) (a : Nat) : Operation := .rx (leEncode a c.aw.bytes)

/-- `write <a>, <v>` of R71: the frame `le_encode(a, AW) ++ le_encode(v & mask(RW), RW)`. -/
def Operation.write (c : Cfg) (a : Nat) (v : Value) : Operation := .rx (leEncode a c.aw.bytes ++ valueBytes c v)

/-- `iwrite <a>, <v>` of R70 and R71: the Initiator Client's fixed 2-byte address and 4-byte value. -/
def Operation.iwrite (a : Addr) (v : Value) : Operation := .rx (leEncode a.toNat 2 ++ leEncode v.toNat 4)

/-- `iread <a>` of R70 and R71: the Initiator Client's select of a 2-byte address, then its read request. -/
def Operation.iread (a : Addr) : List Operation := [.rx (leEncode a.toNat 2), .tx]

/-- The configuration under which the host's table words of this many bytes are read (log 2). A frame's class depends on CFG
and on its length, so a word alone does not name a row: each length is read where the table has a row of that length. N and
BUS_ADDR are those of the spec's own configuration CA (spec/95_test_vectors.md). -/
def tableCfg (nbytes : Nat) : Cfg :=
  match nbytes with
  | 1 => ⟨10, .w1, .a1, 0x10#7⟩
  | 3 => ⟨10, .w1, .a2, 0x10#7⟩
  | 4 => ⟨10, .w2, .a2, 0x10#7⟩
  | 5 => ⟨10, .w4, .a1, 0x10#7⟩
  | _ => ⟨10, .w4, .a2, 0x10#7⟩

/-- The bytes of a table word, the first byte the lowest (R62: byte 0 is first on the wire). -/
def tableFrame (nbits w : Nat) : List Byte := leEncode w ((nbits + 7) / 8)

/-- The instruction the decoder reads from a table word: an inbound frame of those bytes, under `tableCfg` (log 2). -/
def decodeTableWord (nbits w : Nat) : Option Instr :=
  match decode (some (tableCfg (tableFrame nbits w).length)) (.rx (tableFrame nbits w)) with
  | .instr i => some i
  | .reject _ => none

end Sys2Proof
end

