-- ==== Sys2Proof/Machine/State.lean ====
section
/-! DEFINITION. The machine's state as plain data (R20 to R36, and the operations in flight of R47, R48, R55), its updates,
its faults and refusals, and the state at reset.
-/
namespace Sys2Proof.Machine

/-- Why the machine stops with a fault. The block itself raises none (R120): these say that the spec gives the presented
operation no step. -/
inductive Fault where
  /-- STUCK: an operation is presented and no block has been created ("no block exists, so no operation on it has a step",
  R100). Raised by every operation but CONFIGURE. Safe: the hardware has no step either (log 8). -/
  | noBlock
  /-- STUCK: a BUS operation is presented while ACTIVE = 0 ("RX_FRAME and TX_REQUEST have no step", R33, R80). Raised by the
  frame and response operations. Safe: the hardware has no step either (log 8). -/
  | inactive
  /-- An access to a byte outside the buffer byte space 0 .. N·RW − 1, which the spec says does not exist (R40). Raised by
  the register accesses; no state that meets the invariant `StateInv` reaches it. Safe (log 12). -/
  | outsideBuffer
deriving DecidableEq, Repr

/-- Why the machine refuses: limits of the model, which the spec sets (R122), not events of the hardware. -/
inductive Refusal where
  /-- An operation whose arm in `exec` has no meaning yet; no arm answers it. Safe. -/
  | notModelled (mnemonic : String)
  /-- CONFIGURE with an illegal configuration (R21, R100, R122, U5). Safe: no block exists. -/
  | illegalConfiguration
  /-- CONFIGURE while a block exists: a second instance, which the spec leaves out and U6 refuses (R6, R122, R129). Safe
  (log 9). -/
  | secondInstance
  /-- A BUS operation presented while another BUS operation is in flight (R47, R122, U7). Unsafe if a transport re-enters a
  handler (D25, log 10). -/
  | busOverlap
  /-- A HOST operation presented while another HOST operation is in flight (R47, D29). Unsafe if two HOST threads race (log
  10). -/
  | hostOverlap
  /-- A table row performed on a block of another configuration (the table's "config" column). The decoder never gives one
  (R63, R68), so no step answers it. Safe (log 11). -/
  | otherConfiguration
deriving DecidableEq, Repr

/-- The register buffer's bytes: one cell for each byte of the buffer byte space, offsets strictly rising (R25, R40). A byte
that is not listed does not exist. -/
abbrev Memory := List Host.Cell

/-- A register access in flight (R47, R48, R55): the register address; its RW bytes, in the register's byte order (those to
store, or those read so far); the numbers of the bytes whose event is still to come. -/
structure Access where
  addr : Addr
  data : List Byte
  todo : List Nat
deriving DecidableEq, Repr

/-- The BUS operation in flight: a WRITE's stores (R83), or a TX_REQUEST's reads (R86). The other BUS operations have one
event at most. -/
inductive BusFlight where
  | write (x : Access)
  | respond (x : Access)
deriving DecidableEq, Repr

/-- The HOST operation in flight: a GET's reads (R102), or a SET's stores (R103). The other HOST operations are one event. -/
inductive HostFlight where
  | get (x : Access)
  | set (x : Access)
deriving DecidableEq, Repr

/-- What a HOST operation returns (R69): GET's D[31:0], DRAIN's VALID and IDX[4:0]. -/
inductive HostResult where
  | value (d : Value)
  | drained (valid : Bool) (idx : BitVec 5)
deriving DecidableEq, Repr

/-- One turn the environment gives (R47; log 6): an operation performed with none of the other agent's events inside it; an
operation started, its byte events left to later turns; or one event of the operation an agent has in flight, `j` saying
which byte (R48: any order). -/
inductive Turn where
  | op (o : Operation)
  | start (o : Operation)
  | busEvent (j : Nat)
  | hostEvent (j : Nat)
deriving DecidableEq, Repr

/-- The whole state. The spec's own (R36): `cfg`, `buf`, `pra`, `cf`, `active`. The operations in flight (R47, R55):
`busFlight`, `hostFlight`. The model's own: `response` and `result` (the values emitted and returned, R11; log 7), `draws`
(how many free values have been drawn; log 5), `turns` (what the environment presents; log 6). -/
structure State where
  /-- CFG (R20); none before CONFIGURE, when no block exists (R100; log 1). -/
  cfg : Option Cfg
  /-- Buf (R25). -/
  buf : Memory
  /-- PRA (R28). -/
  pra : Addr
  /-- CF (R30). -/
  cf : BitVec 32
  /-- ACTIVE (R33). -/
  active : Bool
  busFlight : Option BusFlight
  hostFlight : Option HostFlight
  response : Option (List Byte)
  result : Option HostResult
  draws : Nat
  turns : List Turn
deriving DecidableEq, Repr

/-- The outcome of a step or of a meaning. -/
abbrev Result := Host.Outcome State Fault Refusal

def State.setBuf (s : State) (m : Memory) : State := { s with buf := m }

def State.setPra (s : State) (a : Addr) : State := { s with pra := a }

def State.setCf (s : State) (x : BitVec 32) : State := { s with cf := x }

def State.setActive (s : State) (b : Bool) : State := { s with active := b }

def State.setBusFlight (s : State) (f : Option BusFlight) : State := { s with busFlight := f }

def State.setHostFlight (s : State) (f : Option HostFlight) : State := { s with hostFlight := f }

/-- `emit(bs)` of R11: the bytes are handed to the transport. -/
def State.setResponse (s : State) (bs : List Byte) : State := { s with response := some bs }

/-- `return r` of R11. -/
def State.setResult (s : State) (r : HostResult) : State := { s with result := some r }

/-- One free value has been drawn (log 5). -/
def State.nextDraw (s : State) : State := { s with draws := s.draws + 1 }

def State.setTurns (s : State) (ts : List Turn) : State := { s with turns := ts }

/-- INIT_BUF: a draw of the whole buffer, byte by byte (R100, R140, D4; log 3). -/
def initBuf (draw size : Nat) : Memory := (List.range size).map fun k => (k, Config.initByte draw k)

/-- The state that CONFIGURE leaves (R100, R140): CFG, a drawn buffer, PRA = 0, CF = 0, ACTIVE = 0, nothing in flight. -/
def State.configured (s : State) (c : Cfg) : State :=
  { s with
    cfg := some c, buf := initBuf s.draws c.bufSize, pra := 0, cf := 0, active := false,
    busFlight := none, hostFlight := none, draws := s.draws + 1 }

/-- The machine at reset (R140; log 1): PRA = 0, CF = 0, ACTIVE = 0, and no block until CONFIGURE gives it its configuration
and its buffer; nothing in flight, nothing emitted or returned yet, nothing presented. -/
def State.reset : State :=
  { cfg := none, buf := [], pra := 0, cf := 0, active := false, busFlight := none, hostFlight := none,
    response := none, result := none, draws := 0, turns := [] }

end Sys2Proof.Machine
end

