-- ==== Sys2Proof/Machine/Ops.lean ====
section
/-! DEFINITION. The named operations over the register buffer, the address decoder, the agents' enables, and one event of an
operation in flight. The block raises no exception and has no trap entry or return (R120, R126, R127), so there is no
operation that takes one.
-/
namespace Sys2Proof.Machine

/-- The canonical form: offsets strictly rising. -/
def Memory.wf (m : Memory) : Bool := decide ((m.map Prod.fst).Pairwise (· < ·))

/-- `Buf[k]` (R11); none where byte k does not exist. -/
def Memory.read : Memory → Nat → Option Byte
  | [], _ => none
  | (a, b) :: m, k => if a = k then some b else Memory.read m k

/-- `Buf[k] <- v` (R11); none where byte k does not exist. -/
def Memory.write : Memory → Nat → Byte → Option Memory
  | [], _, _ => none
  | (a, b) :: m, k, v =>
    if a = k then some ((a, v) :: m)
    else match Memory.write m k v with
      | none => none
      | some m' => some ((a, b) :: m')

/-- The n bytes from offset off, lowest offset first: what `MemRead(off, n)` of R11 decodes. -/
def Memory.readBytes (m : Memory) (off : Nat) : Nat → Option (List Byte)
  | 0 => some []
  | n + 1 =>
    match m.read off, Memory.readBytes m (off + 1) n with
    | some b, some bs => some (b :: bs)
    | _, _ => none

/-- `MemWrite` of R11, given the bytes: they go to offsets off, off + 1, … -/
def Memory.writeBytes (m : Memory) (off : Nat) : List Byte → Option Memory
  | [] => some m
  | b :: bs =>
    match m.write off b with
    | some m' => Memory.writeBytes m' (off + 1) bs
    | none => none

/-- The address decoder: a is in range when a < N (R27, R41). -/
def inRange (c : Cfg) (a : Addr) : Bool := decide (a.toNat < c.n)

/-- The offset of byte j of register a: a · RW + j (R25, R40, R45). -/
def byteOffset (c : Cfg) (a : Addr) (j : Nat) : Nat := a.toNat * c.rw.bytes + j

/-- The RW bytes that a read of register address a gives: the register's bytes, or zeros when a is out of range (R27). -/
def loadRegister (c : Cfg) (s : State) (a : Addr) : Option (List Byte) :=
  if inRange c a then s.buf.readBytes (byteOffset c a 0) c.rw.bytes else some (zeros c.rw.bytes)

/-- A write of v to register address a: the low RW bytes are stored; out of range nothing is (R27, R44). -/
def storeRegister (c : Cfg) (s : State) (a : Addr) (v : Value) : Option State :=
  if inRange c a then
    match s.buf.writeBytes (byteOffset c a 0) (valueBytes c v) with
    | some m => some (s.setBuf m)
    | none => none
  else some s

/-- A state, or the fault of an access to a byte that does not exist. -/
def orOutside : Option State → Result
  | some s => .next s
  | none => .fault .outsideBuffer

/-- The flag event of a WRITE to address a: `CF[a] <- 1` exactly when a < N and a < 32 (R31, R83). -/
def notify (c : Cfg) (a : Addr) (s : State) : State :=
  if inRange c a then s.setCf (notifyFlag s.cf a.toNat) else s

/-- The operation needs a block (R21, R100). -/
def withBlock (s : State) (k : Cfg → Result) : Result :=
  match s.cfg with
  | none => .fault .noBlock
  | some c => k c

/-- A BUS operation has a step only when ACTIVE = 1 (R33, R80), and none while another is in flight (R47, R122). -/
def busOperation (s : State) (k : Cfg → Result) : Result :=
  withBlock s fun c =>
    if s.active then (if s.busFlight.isSome then .refused .busOverlap else k c) else .fault .inactive

/-- A HOST operation is enabled whatever ACTIVE is (R33), but not while another is in flight (R47). -/
def hostOperation (s : State) (k : Cfg → Result) : Result :=
  withBlock s fun c => if s.hostFlight.isSome then .refused .hostOverlap else k c

/-- A table row runs on a block of its own configuration only (log 11). -/
def onRow (i : Instr) (s : State) (k : Cfg → Result) : Result :=
  busOperation s fun c => if i.inConfig c then k c else .refused .otherConfiguration

/-- SELECT (R82): PRA <- A, unconditionally. -/
def selectAddress (a : Addr) (s : State) : Result := .next (s.setPra a)

/-- WRITE (R83, R84): store, then the flag. -/
def writeRegister (c : Cfg) (a : Addr) (v : Value) (s : State) : Result :=
  orOutside ((storeRegister c s a v).map (notify c a))

/-- TX_REQUEST (R86): emit the bytes of the register at PRA, or zeros. -/
def respond (c : Cfg) (s : State) : Result :=
  orOutside ((loadRegister c s s.pra).map s.setResponse)

/-- DRAIN (R104): find, clear and return the lowest set flag, as one event; IDX is free when there is none (log 4). -/
def drainFlag (s : State) : State :=
  match lowestSet s.cf with
  | some i => (s.setCf (clearFlag s.cf i)).setResult (.drained true (BitVec.ofNat 5 i))
  | none => (s.setResult (.drained false (Config.freeIdx s.draws))).nextDraw

/-- The byte that the environment's choice j picks among those still to do, and the others (R48: any order; log 15). -/
def pick (todo : List Nat) (j : Nat) : Option (Nat × List Nat) :=
  match todo[j % todo.length]? with
  | some k => some (k, todo.eraseIdx (j % todo.length))
  | none => none

/-- The access a read of register a begins with: its RW bytes are all to be read; out of range there are none to read, and
the answer is zeros (R27, R86, R102). -/
def Access.reading (c : Cfg) (a : Addr) : Access :=
  ⟨a, zeros c.rw.bytes, if inRange c a then List.range c.rw.bytes else []⟩

/-- The access a write of v to register a begins with: all its bytes to be stored; out of range none (R27, R44). -/
def Access.writing (c : Cfg) (a : Addr) (v : Value) : Access :=
  ⟨a, valueBytes c v, if inRange c a then List.range c.rw.bytes else []⟩

/-- One event of a store in flight: byte k of the register's bytes goes to the buffer (R47, R48). -/
def storeByte (c : Cfg) (x : Access) (k : Nat) (s : State) : Option State :=
  match x.data[k]? with
  | some b =>
    match s.buf.write (byteOffset c x.addr k) b with
    | some m => some (s.setBuf m)
    | none => none
  | none => none

/-- One event of a read in flight: byte k is read from the buffer as it stands now (R47, R48). -/
def loadByte (c : Cfg) (x : Access) (k : Nat) (s : State) : Option (List Byte) :=
  match s.buf.read (byteOffset c x.addr k) with
  | some b => some (x.data.set k b)
  | none => none

/-- The access with its byte k done. -/
def Access.advance (x : Access) (todo : List Nat) : Access := ⟨x.addr, x.data, todo⟩

/-- One event of a WRITE in flight (R83): a byte store; after the last, the flag event (R51), which ends it. -/
def busWriteEvent (c : Cfg) (x : Access) (j : Nat) (s : State) : Result :=
  match pick x.todo j with
  | some (k, rest) =>
    orOutside ((storeByte c x k s).map fun t => t.setBusFlight (some (.write (x.advance rest))))
  | none => .next ((notify c x.addr s).setBusFlight none)

/-- One event of a TX_REQUEST in flight (R86): a byte read; after the last, the emit, which ends it. -/
def busRespondEvent (c : Cfg) (x : Access) (j : Nat) (s : State) : Result :=
  match pick x.todo j with
  | some (k, rest) =>
    orOutside ((loadByte c x k s).map fun bs => s.setBusFlight (some (.respond ⟨x.addr, bs, rest⟩)))
  | none => .next ((s.setResponse x.data).setBusFlight none)

/-- One event of a GET in flight (R102): a byte read; after the last, the return, which ends it. -/
def hostGetEvent (c : Cfg) (x : Access) (j : Nat) (s : State) : Result :=
  match pick x.todo j with
  | some (k, rest) =>
    orOutside ((loadByte c x k s).map fun bs => s.setHostFlight (some (.get ⟨x.addr, bs, rest⟩)))
  | none => .next ((s.setResult (.value (hostValue x.data))).setHostFlight none)

/-- One event of a SET in flight (R103): a byte store; after the last it ends. -/
def hostSetEvent (c : Cfg) (x : Access) (j : Nat) (s : State) : Result :=
  match pick x.todo j with
  | some (k, rest) =>
    orOutside ((storeByte c x k s).map fun t => t.setHostFlight (some (.set (x.advance rest))))
  | none => .next (s.setHostFlight none)

/-- The next event of the BUS operation in flight; with none in flight the turn passes (log 13). -/
def busEvent (j : Nat) (s : State) : Result :=
  match s.busFlight with
  | none => .next s
  | some (.write x) => withBlock s fun c => busWriteEvent c x j s
  | some (.respond x) => withBlock s fun c => busRespondEvent c x j s

/-- The next event of the HOST operation in flight; with none in flight the turn passes (log 13). -/
def hostEvent (j : Nat) (s : State) : Result :=
  match s.hostFlight with
  | none => .next s
  | some (.get x) => withBlock s fun c => hostGetEvent c x j s
  | some (.set x) => withBlock s fun c => hostSetEvent c x j s

end Sys2Proof.Machine
end

