-- ==== Sys2Proof/Machine/Bus.lean ====
section
/-! DEFINITION. The meanings of the BUS operations (R82 to R86), each performed with no event of the HOST inside it.
-/
namespace Sys2Proof.Machine

/-- SELECT_A1 (R82): PRA <- zext_16(A), so PRA[15:8] = 0 (R29). -/
def execSelectA1 (a : BitVec 8) (s : State) : Result :=
  onRow (.selectA1 a) s fun _ => selectAddress (a.zeroExtend 16) s

/-- SELECT_A2 (R82). -/
def execSelectA2 (a : BitVec 16) (s : State) : Result :=
  onRow (.selectA2 a) s fun _ => selectAddress a s

/-- WRITE_A1_R1 (R83, R84). -/
def execWriteA1R1 (a : BitVec 8) (v : BitVec 8) (s : State) : Result :=
  onRow (.writeA1R1 a v) s fun c => writeRegister c (a.zeroExtend 16) (v.zeroExtend 32) s

/-- WRITE_A1_R2 (R83, R84). -/
def execWriteA1R2 (a : BitVec 8) (v : BitVec 16) (s : State) : Result :=
  onRow (.writeA1R2 a v) s fun c => writeRegister c (a.zeroExtend 16) (v.zeroExtend 32) s

/-- WRITE_A1_R4 (R83, R84). -/
def execWriteA1R4 (a : BitVec 8) (v : BitVec 32) (s : State) : Result :=
  onRow (.writeA1R4 a v) s fun c => writeRegister c (a.zeroExtend 16) v s

/-- WRITE_A2_R1 (R83, R84). -/
def execWriteA2R1 (a : BitVec 16) (v : BitVec 8) (s : State) : Result :=
  onRow (.writeA2R1 a v) s fun c => writeRegister c a (v.zeroExtend 32) s

/-- WRITE_A2_R2 (R83, R84). -/
def execWriteA2R2 (a : BitVec 16) (v : BitVec 16) (s : State) : Result :=
  onRow (.writeA2R2 a v) s fun c => writeRegister c a (v.zeroExtend 32) s

/-- WRITE_A2_R4 (R83, R84). -/
def execWriteA2R4 (a : BitVec 16) (v : BitVec 32) (s : State) : Result :=
  onRow (.writeA2R4 a v) s fun c => writeRegister c a v s

/-- IGNORE (R85): the frame is consumed and no state changes. -/
def execIgnore (b : List Byte) (s : State) : Result :=
  onRow (.ignore b) s fun _ => .next s

/-- RESP_R1 (R86). -/
def execRespR1 (s : State) : Result := onRow .respR1 s fun c => respond c s

/-- RESP_R2 (R86). -/
def execRespR2 (s : State) : Result := onRow .respR2 s fun c => respond c s

/-- RESP_R4 (R86). -/
def execRespR4 (s : State) : Result := onRow .respR4 s fun c => respond c s

end Sys2Proof.Machine
end

