-- ==== Sys2Proof/Machine/HostSide.lean ====
section
/-! DEFINITION. The meanings of the HOST operations (R100 to R104), each performed with no event of the BUS inside it.
-/
namespace Sys2Proof.Machine

/-- CONFIGURE (R100): an illegal configuration is refused (R21, U5), and so is a second block (R122, U6; log 9); else the
block is created in the state of R140. -/
def execConfigure (n rw aw busAddr : Nat) (s : State) : Result :=
  match cfgOf n rw aw busAddr with
  | none => .refused .illegalConfiguration
  | some c => if s.cfg.isSome then .refused .secondInstance else .next (s.configured c)

/-- BEGIN (R101): ACTIVE <- 1; a second BEGIN changes nothing. -/
def execBegin (s : State) : Result := hostOperation s fun _ => .next (s.setActive true)

/-- GET (R102): return the register's value zero-extended to 32 bits, or 0 out of range. -/
def execGet (a : Addr) (s : State) : Result :=
  hostOperation s fun c =>
    orOutside ((loadRegister c s a).map fun bs => s.setResult (.value (hostValue bs)))

/-- SET (R103): store the low RW bytes of D; out of range nothing. No flag is set (R148). -/
def execSet (a : Addr) (d : Value) (s : State) : Result :=
  hostOperation s fun c => orOutside (storeRegister c s a d)

/-- DRAIN (R104). -/
def execDrain (s : State) : Result := hostOperation s fun _ => .next (drainFlag s)

end Sys2Proof.Machine
end

