-- ==== Sys2Proof/Machine/Dispatch.lean ====
section
/-! DEFINITION. One arm for each operation of spec/opcode_table.json.
-/
namespace Sys2Proof.Machine

def exec (i : Instr) (s : State) : Host.Outcome State Fault Refusal :=
  match i with
  | .selectA1 a => Sys2Proof.Machine.execSelectA1 a s
  | .selectA2 a => Sys2Proof.Machine.execSelectA2 a s
  | .writeA1R1 a v => Sys2Proof.Machine.execWriteA1R1 a v s
  | .writeA1R2 a v => Sys2Proof.Machine.execWriteA1R2 a v s
  | .writeA1R4 a v => Sys2Proof.Machine.execWriteA1R4 a v s
  | .writeA2R1 a v => Sys2Proof.Machine.execWriteA2R1 a v s
  | .writeA2R2 a v => Sys2Proof.Machine.execWriteA2R2 a v s
  | .writeA2R4 a v => Sys2Proof.Machine.execWriteA2R4 a v s
  | .ignore b => Sys2Proof.Machine.execIgnore b s
  | .respR1 => Sys2Proof.Machine.execRespR1 s
  | .respR2 => Sys2Proof.Machine.execRespR2 s
  | .respR4 => Sys2Proof.Machine.execRespR4 s
  | .configure n rw aw busAddr => Sys2Proof.Machine.execConfigure n rw aw busAddr s
  | .begin => Sys2Proof.Machine.execBegin s
  | .get a => Sys2Proof.Machine.execGet a s
  | .set a d => Sys2Proof.Machine.execSet a d s
  | .drain => Sys2Proof.Machine.execDrain s

end Sys2Proof.Machine
end

