-- ==== Sys2Proof/Machine/Turns.lean ====
section
/-! DEFINITION. How the environment's turns drive the block (R34, R47, R48): an operation performed whole, an operation
started, an event of the operation in flight; and how the host's table word is presented as the next turn.
-/
namespace Sys2Proof.Machine

/-- A WRITE starts: its byte stores and its flag event come later (R47, R48, R51). -/
def startWrite (i : Instr) (a : Addr) (v : Value) (s : State) : Result :=
  onRow i s fun c => .next (s.setBusFlight (some (.write (Access.writing c a v))))

/-- A TX_REQUEST starts with its read of PRA (R47, R50); its byte reads and its emit come later. -/
def startRespond (i : Instr) (s : State) : Result :=
  onRow i s fun c => .next (s.setBusFlight (some (.respond (Access.reading c s.pra))))

/-- A GET starts: its byte reads and its return come later. -/
def startGet (a : Addr) (s : State) : Result :=
  hostOperation s fun c => .next (s.setHostFlight (some (.get (Access.reading c a))))

/-- A SET starts: its byte stores come later. -/
def startSet (a : Addr) (d : Value) (s : State) : Result :=
  hostOperation s fun c => .next (s.setHostFlight (some (.set (Access.writing c a d))))

/-- An operation starts. Those that read or write a register's bytes are left in flight; the others have one event at most
(R47, R49), which this turn performs (log 14). -/
def startInstr (i : Instr) (s : State) : Result :=
  match i with
  | .writeA1R1 a v => startWrite i (a.zeroExtend 16) (v.zeroExtend 32) s
  | .writeA1R2 a v => startWrite i (a.zeroExtend 16) (v.zeroExtend 32) s
  | .writeA1R4 a v => startWrite i (a.zeroExtend 16) v s
  | .writeA2R1 a v => startWrite i a (v.zeroExtend 32) s
  | .writeA2R2 a v => startWrite i a (v.zeroExtend 32) s
  | .writeA2R4 a v => startWrite i a v s
  | .respR1 => startRespond i s
  | .respR2 => startRespond i s
  | .respR4 => startRespond i s
  | .get a => startGet a s
  | .set a d => startSet a d s
  | .selectA1 _ => exec i s
  | .selectA2 _ => exec i s
  | .ignore _ => exec i s
  | .configure _ _ _ _ => exec i s
  | .begin => exec i s
  | .drain => exec i s

/-- An operation the environment presents is decoded under CFG and run; what the decoder rejects stops by name. -/
def present (run : Instr → State → Result) (o : Operation) (s : State) : Result :=
  match decode s.cfg o with
  | .instr i => run i s
  | .reject .noBlock => .fault .noBlock
  | .reject .illegalConfiguration => .refused .illegalConfiguration

/-- What one turn does. -/
def takeTurn (t : Turn) (s : State) : Result :=
  match t with
  | .op o => present exec o s
  | .start o => present startInstr o s
  | .busEvent j => busEvent j s
  | .hostEvent j => hostEvent j s

/-- The next turn is taken off the list and done; with none presented, the state persists (R34, R133; log 13). -/
def nextTurn (s : State) : Result :=
  match s.turns with
  | [] => .next s
  | t :: ts => takeTurn t (s.setTurns ts)

/-- A block of configuration c, active, with no operation in flight: the block as it stands if it has that configuration,
else one newly configured (log 2). -/
def ready (c : Cfg) (s : State) : State :=
  { (if s.cfg = some c then s else s.configured c) with active := true, busFlight := none }

/-- The host's table word presented as the very next turn (log 2). -/
def placeTableWord (s : State) (nbits w : Nat) : State :=
  (ready (tableCfg (tableFrame nbits w).length) s).setTurns [.op (.rx (tableFrame nbits w))]

end Sys2Proof.Machine
end

