-- ==== Sys2Proof/Machine/Step.lean ====
section
/-! DEFINITION. The step: the next turn the environment gives (R4, R34, R47). -/
namespace Sys2Proof.Machine

def step (s : State) : Host.Outcome State Fault Refusal := nextTurn s

/-- The state in which the very next step runs the frame of the table word (log 2). -/
def State.withFetchWord (s : State) (nbits w : Nat) : State := placeTableWord s nbits w

end Sys2Proof.Machine
end

