-- ==== Sys2Proof/Safety.lean ====
section
/-! DEFINITION. What claims are stated in: when an agent may act, the invariant of the machine's states, which operations
touch a register, and the drain loop of R105.
-/
namespace Sys2Proof.Machine

/-- A BUS operation may be performed: the block exists, ACTIVE = 1, no BUS operation is in flight (R33, R47, R80). -/
def BusReady (c : Cfg) (s : State) : Prop := s.cfg = some c ∧ s.active = true ∧ s.busFlight = none

/-- A HOST operation may be performed: the block exists and no HOST operation is in flight (R33, R47). -/
def HostReady (c : Cfg) (s : State) : Prop := s.cfg = some c ∧ s.hostFlight = none

/-- The bytes still to come are different bytes of the register (R48). -/
def Access.todoOk (c : Cfg) (x : Access) : Prop := x.todo.Nodup ∧ ∀ j ∈ x.todo, j < c.rw.bytes

/-- An access in flight holds RW bytes; out of range it has no byte event (R27). -/
def Access.ok (c : Cfg) (x : Access) : Prop :=
  x.data.length = c.rw.bytes ∧ x.todoOk c ∧ (inRange c x.addr = false → x.todo = [])

/-- The access an operation in flight makes. -/
def BusFlight.access : BusFlight → Access
  | .write x => x
  | .respond x => x

/-- The access an operation in flight makes. -/
def HostFlight.access : HostFlight → Access
  | .get x => x
  | .set x => x

/-- The state before CONFIGURE (R100, R140): no buffer, the registers at their reset values, nothing in flight. -/
structure NoBlock (s : State) : Prop where
  buf : s.buf = []
  pra : s.pra = 0
  cf : s.cf = 0
  active : s.active = false
  busFlight : s.busFlight = none
  hostFlight : s.hostFlight = none

/-- The invariant of a block of configuration c: CFG is legal (R21); the buffer holds exactly the bytes 0 .. N·RW − 1 (R25);
PRA < 256^AW (R28); CF[i] = 1 implies i < N (R31); a BUS operation is in flight only while ACTIVE = 1 (R33); the accesses in
flight are well formed (R48). -/
structure BlockInv (c : Cfg) (s : State) : Prop where
  legal : c.legal = true
  buffer : s.buf.map Prod.fst = List.range c.bufSize
  pra : s.pra.toNat < 256 ^ c.aw.bytes
  flags : ∀ i, s.cf.getLsbD i = true → i < c.n
  active : s.busFlight ≠ none → s.active = true
  bus : ∀ f, s.busFlight = some f → f.access.ok c
  host : ∀ f, s.hostFlight = some f → f.access.ok c

/-- The invariant of the machine. -/
def StateInv (s : State) : Prop :=
  match s.cfg with
  | none => NoBlock s
  | some c => BlockInv c s

/-- The agent that performs an operation of the table (R12, R72, R128): BUS, or else HOST. -/
def isBus : Instr → Bool
  | .selectA1 _ | .selectA2 _ | .ignore _ | .respR1 | .respR2 | .respR4 => true
  | .writeA1R1 _ _ | .writeA1R2 _ _ | .writeA1R4 _ _ => true
  | .writeA2R1 _ _ | .writeA2R2 _ _ | .writeA2R4 _ _ => true
  | .configure _ _ _ _ | .begin | .get _ | .set _ _ | .drain => false

/-- The address and value operands of a WRITE row, zero-extended (R64, R65, R83). -/
def writeOperands : Instr → Option (Addr × Value)
  | .writeA1R1 a v => some (a.zeroExtend 16, v.zeroExtend 32)
  | .writeA1R2 a v => some (a.zeroExtend 16, v.zeroExtend 32)
  | .writeA1R4 a v => some (a.zeroExtend 16, v)
  | .writeA2R1 a v => some (a, v.zeroExtend 32)
  | .writeA2R2 a v => some (a, v.zeroExtend 32)
  | .writeA2R4 a v => some (a, v)
  | .selectA1 _ | .selectA2 _ | .ignore _ | .respR1 | .respR2 | .respR4 => none
  | .configure _ _ _ _ | .begin | .get _ | .set _ _ | .drain => none

/-- The register an operation stores to: a WRITE's (R83) or a SET's (R103). -/
def storesTo (i : Instr) : Option Addr :=
  match i with
  | .set a _ => some a
  | .selectA1 _ | .selectA2 _ | .ignore _ | .respR1 | .respR2 | .respR4 => none
  | .configure _ _ _ _ | .begin | .get _ | .drain => none
  | .writeA1R1 _ _ | .writeA1R2 _ _ | .writeA1R4 _ _ => (writeOperands i).map Prod.fst
  | .writeA2R1 _ _ | .writeA2R2 _ _ | .writeA2R4 _ _ => (writeOperands i).map Prod.fst

/-- The address a SELECT row selects, zero-extended (R82). -/
def selectOperand : Instr → Option Addr
  | .selectA1 a => some (a.zeroExtend 16)
  | .selectA2 a => some a
  | .writeA1R1 _ _ | .writeA1R2 _ _ | .writeA1R4 _ _ => none
  | .writeA2R1 _ _ | .writeA2R2 _ _ | .writeA2R4 _ _ => none
  | .ignore _ | .respR1 | .respR2 | .respR4 => none
  | .configure _ _ _ _ | .begin | .get _ | .set _ _ | .drain => none

/-- The operations are performed one after another. -/
def performAll : List Instr → State → Result
  | [], s => .next s
  | i :: is, s =>
    match exec i s with
    | .next t => performAll is t
    | .fault r => .fault r
    | .refused r => .refused r

/-- The HOST's loop of R105, at most `fuel` times: DRAIN until VALID = 0; the addresses returned, in order, and the state
after. -/
def drainLoop : Nat → State → List (BitVec 5) × State
  | 0, s => ([], s)
  | fuel + 1, s =>
    match exec .drain s with
    | .next t =>
      match t.result with
      | some (.drained true idx) => (idx :: (drainLoop fuel t).1, (drainLoop fuel t).2)
      | _ => ([], t)
    | .fault _ => ([], s)
    | .refused _ => ([], s)

/-- The machine's run over a list of turns: as many steps as there are turns, these and no others presented. -/
def runTurns (ts : List Turn) (s : State) : Result := Sys2Proof.core.run ts.length (s.setTurns ts)

/-- The buffer holds the low RW bytes of v as register a: byte j holds bits [8j+7 : 8j] (R26, R44). -/
def HoldsValue (c : Cfg) (a : Addr) (v : Value) (m : Memory) : Prop :=
  ∀ j < c.rw.bytes, m.read (byteOffset c a j) = some (v.extractLsb' (8 * j) 8)

/-- Every byte but those of register a reads the same in both buffers. -/
def SameOutside (c : Cfg) (a : Addr) (m m' : Memory) : Prop :=
  ∀ k, (∀ j < c.rw.bytes, k ≠ byteOffset c a j) → m'.read k = m.read k

/-- The bytes are those of register a, lowest offset first (R25). -/
def IsRegister (c : Cfg) (a : Addr) (m : Memory) (bs : List Byte) : Prop :=
  bs.length = c.rw.bytes ∧ ∀ j < c.rw.bytes, bs[j]? = m.read (byteOffset c a j)

/-- What a WRITE of v to address a leaves (R83, R84): in range, register a holds the value, every other byte of the buffer
reads as before, flag a is set if a < 32, every other flag and every other field is as before; out of range, nothing
changes. -/
def WriteEffect (c : Cfg) (a : Addr) (v : Value) (s t : State) : Prop :=
  (a.toNat < c.n → t = { s with buf := t.buf, cf := t.cf } ∧ HoldsValue c a v t.buf ∧ SameOutside c a s.buf t.buf ∧
    ∀ i < 32, t.cf.getLsbD i = (s.cf.getLsbD i || decide (i = a.toNat))) ∧
  (c.n ≤ a.toNat → t = s)

/-- What a SET of d to address a leaves (R103): as a WRITE, but no flag changes. -/
def SetEffect (c : Cfg) (a : Addr) (d : Value) (s t : State) : Prop :=
  (a.toNat < c.n → t = { s with buf := t.buf } ∧ HoldsValue c a d t.buf ∧ SameOutside c a s.buf t.buf) ∧
  (c.n ≤ a.toNat → t = s)

/-- What a TX_REQUEST leaves (R86): the response is the register at PRA, or zeros out of range; nothing else changes. -/
def RespondEffect (c : Cfg) (s t : State) : Prop :=
  ∃ bs, t = { s with response := some bs } ∧
    (s.pra.toNat < c.n → ∃ reg, IsRegister c s.pra s.buf reg ∧ bs = leEncode (leNat reg) c.rw.bytes) ∧
    (c.n ≤ s.pra.toNat → bs = zeros c.rw.bytes)

end Sys2Proof.Machine
end

