-- ==== Sys2Proof/Certificates/Slice0/Obligations.lean ====
section
/-! DEFINITION. The statements for the provers. Where a statement rests on a choice of the model and not on a rule of the
spec, its docstring names the log entry.
-/

open Sys2Proof Sys2Proof.Machine

/-- Decode and encode agree, for every operation of the table and every operand (R61 to R65, R69). -/
def Obligations.DecodeOfEncode : Prop :=
  ∀ (o : Option Cfg) (i : Instr), wellFormed o i = true → decode o (encode i) = .instr i

/-- Every frame decodes to an operation of the block's configuration, and no byte of it is dropped (R67, R68). -/
def Obligations.EncodeOfDecodedFrame : Prop :=
  ∀ (c : Cfg) (b : List Byte), ∃ i, decode (some c) (.rx b) = .instr i ∧ i.inConfig c = true ∧ encode i = .rx b

/-- R63: the class of a frame is decided from its length alone. -/
def Obligations.FrameClassByLength : Prop :=
  ∀ (c : Cfg) (b : List Byte),
    (b.length = c.aw.bytes → ∃ a, decode (some c) (.rx b) = .instr (selectInstr c.aw a)) ∧
    (b.length = c.aw.bytes + c.rw.bytes → ∃ a v, decode (some c) (.rx b) = .instr (writeInstr c.aw c.rw a v)) ∧
    (b.length ≠ c.aw.bytes → b.length ≠ c.aw.bytes + c.rw.bytes → decode (some c) (.rx b) = .instr (.ignore b))

/-- The operands of a frame, byte by byte: address bytes first, then value bytes, each least significant first (R62, R64,
R65). -/
def Obligations.FrameOperandsLittleEndian : Prop :=
  ∀ (c : Cfg) (a0 a1 v0 v1 v2 v3 : Byte),
    (c.aw = .a1 → decode (some c) (.rx [a0]) = .instr (.selectA1 a0)) ∧
    (c.aw = .a2 → decode (some c) (.rx [a0, a1]) = .instr (.selectA2 (a1 ++ a0))) ∧
    (c.aw = .a1 → c.rw = .w1 → decode (some c) (.rx [a0, v0]) = .instr (.writeA1R1 a0 v0)) ∧
    (c.aw = .a1 → c.rw = .w2 → decode (some c) (.rx [a0, v0, v1]) = .instr (.writeA1R2 a0 (v1 ++ v0))) ∧
    (c.aw = .a1 → c.rw = .w4 →
      decode (some c) (.rx [a0, v0, v1, v2, v3]) = .instr (.writeA1R4 a0 (v3 ++ v2 ++ v1 ++ v0))) ∧
    (c.aw = .a2 → c.rw = .w1 → decode (some c) (.rx [a0, a1, v0]) = .instr (.writeA2R1 (a1 ++ a0) v0)) ∧
    (c.aw = .a2 → c.rw = .w2 → decode (some c) (.rx [a0, a1, v0, v1]) = .instr (.writeA2R2 (a1 ++ a0) (v1 ++ v0))) ∧
    (c.aw = .a2 → c.rw = .w4 →
      decode (some c) (.rx [a0, a1, v0, v1, v2, v3]) = .instr (.writeA2R4 (a1 ++ a0) (v3 ++ v2 ++ v1 ++ v0)))

/-- A few words written out from the spec's own examples (R82, R83, R85 and spec/95_test_vectors.md S1, W2, W9, I3). -/
def Obligations.SpecWordsDecode : Prop :=
  decode (some ⟨10, .w4, .a2, 0x10#7⟩) (.rx [0x05, 0x00]) = .instr (.selectA2 0x0005#16) ∧
  decode (some ⟨10, .w4, .a2, 0x10#7⟩) (.rx [0x03, 0x00, 0x78, 0x56, 0x34, 0x12]) =
    .instr (.writeA2R4 0x0003#16 0x12345678#32) ∧
  decode (some ⟨256, .w1, .a1, 0x2A#7⟩) (.rx [0x07, 0xAB]) = .instr (.writeA1R1 0x07#8 0xAB#8) ∧
  decode (some ⟨10, .w4, .a2, 0x10#7⟩) (.rx [0x03, 0x00, 0x78]) = .instr (.ignore [0x03, 0x00, 0x78]) ∧
  decode (some ⟨4, .w2, .a1, 0x08#7⟩) .tx = .instr .respR2

/-- A step runs the decoded instruction: an operation presented whole is performed, one presented as started is started, each
after it is taken off the list of turns. The list of turns and the starting turn are the model's choices (log 6, log 14). -/
def Obligations.StepRunsDecodedInstruction : Prop :=
  ∀ (s : State) (o : Operation) (i : Instr) (ts : List Turn), decode s.cfg o = .instr i →
    (s.turns = .op o :: ts → step s = exec i (s.setTurns ts)) ∧
    (s.turns = .start o :: ts → step s = startInstr i (s.setTurns ts))

/-- The host's table word is the very next operation the machine performs (the model's choice, log 2). -/
def Obligations.TableWordRunsNext : Prop :=
  ∀ (s : State) (nbits w : Nat) (i : Instr), decodeTableWord nbits w = some i →
    step (s.withFetchWord nbits w) = exec i ((s.withFetchWord nbits w).setTurns [])

/-- SELECT_A1 and SELECT_A2 complete on every ready block of their configuration, and write PRA only (R82). -/
def Obligations.SelectRowsComplete : Prop :=
  ∀ (c : Cfg) (s : State), BusReady c s →
    (∀ a, c.aw = .a1 → exec (.selectA1 a) s = .next { s with pra := a.zeroExtend 16 }) ∧
    (∀ a, c.aw = .a2 → exec (.selectA2 a) s = .next { s with pra := a })

/-- R82: a frame of AW bytes sets PRA to its address, whatever the address, and changes nothing else. -/
def Obligations.SelectFrameSetsPra : Prop :=
  ∀ (c : Cfg) (s : State) (b : List Byte) (ts : List Turn), BusReady c s → b.length = c.aw.bytes →
    s.turns = .op (.rx b) :: ts →
    step s = .next { s with pra := BitVec.ofNat 16 (leDecode b 0 c.aw.bytes), turns := ts }

/-- The six WRITE rows complete on every ready block of their configuration, with the effect of R83 and R84. -/
def Obligations.WriteRowsComplete : Prop :=
  ∀ (c : Cfg) (s : State), StateInv s → BusReady c s →
    (∀ a v, c.aw = .a1 → c.rw = .w1 → ∃ t, exec (.writeA1R1 a v) s = .next t ∧
      WriteEffect c (a.zeroExtend 16) (v.zeroExtend 32) s t) ∧
    (∀ a v, c.aw = .a1 → c.rw = .w2 → ∃ t, exec (.writeA1R2 a v) s = .next t ∧
      WriteEffect c (a.zeroExtend 16) (v.zeroExtend 32) s t) ∧
    (∀ a v, c.aw = .a1 → c.rw = .w4 → ∃ t, exec (.writeA1R4 a v) s = .next t ∧
      WriteEffect c (a.zeroExtend 16) v s t) ∧
    (∀ a v, c.aw = .a2 → c.rw = .w1 → ∃ t, exec (.writeA2R1 a v) s = .next t ∧
      WriteEffect c a (v.zeroExtend 32) s t) ∧
    (∀ a v, c.aw = .a2 → c.rw = .w2 → ∃ t, exec (.writeA2R2 a v) s = .next t ∧
      WriteEffect c a (v.zeroExtend 32) s t) ∧
    (∀ a v, c.aw = .a2 → c.rw = .w4 → ∃ t, exec (.writeA2R4 a v) s = .next t ∧ WriteEffect c a v s t)

/-- A frame of AW + RW bytes to an in-range address stores its value bytes as they come and raises the register's flag (R83,
with R26, R64, R65). -/
def Obligations.WriteFrameStoresAndFlags : Prop :=
  ∀ (c : Cfg) (s : State) (b : List Byte) (ts : List Turn), StateInv s → BusReady c s →
    b.length = c.aw.bytes + c.rw.bytes → leDecode b 0 c.aw.bytes < c.n → s.turns = .op (.rx b) :: ts →
    ∃ m, step s = .next { s with
        buf := m, turns := ts
        cf := if leDecode b 0 c.aw.bytes < 32 then s.cf ||| (1#32 <<< leDecode b 0 c.aw.bytes) else s.cf } ∧
      (∀ j < c.rw.bytes, m.read (leDecode b 0 c.aw.bytes * c.rw.bytes + j) = b[c.aw.bytes + j]?) ∧
      ∀ k, (∀ j < c.rw.bytes, k ≠ leDecode b 0 c.aw.bytes * c.rw.bytes + j) → m.read k = s.buf.read k

/-- R84: a WRITE whose address is out of range changes no state. -/
def Obligations.OutOfRangeWriteChangesNothing : Prop :=
  ∀ (c : Cfg) (s : State) (b : List Byte) (ts : List Turn), BusReady c s →
    b.length = c.aw.bytes + c.rw.bytes → c.n ≤ leDecode b 0 c.aw.bytes → s.turns = .op (.rx b) :: ts →
    step s = .next { s with turns := ts }

/-- R85: a frame of any other length changes no state. -/
def Obligations.IgnoredFrameChangesNothing : Prop :=
  ∀ (c : Cfg) (s : State) (b : List Byte), BusReady c s → b.length ≠ c.aw.bytes →
    b.length ≠ c.aw.bytes + c.rw.bytes →
    exec (.ignore b) s = .next s ∧ ∀ ts, s.turns = .op (.rx b) :: ts → step s = .next { s with turns := ts }

/-- R66: the response is `le_encode(REG[PRA], RW)`, or zeros when PRA is out of range; nothing else changes. The three
RESPONSE rows complete on every ready block of their configuration. -/
def Obligations.ResponseRowsComplete : Prop :=
  ∀ (c : Cfg) (s : State), StateInv s → BusReady c s →
    (c.rw = .w1 → ∃ t, exec .respR1 s = .next t ∧ RespondEffect c s t) ∧
    (c.rw = .w2 → ∃ t, exec .respR2 s = .next t ∧ RespondEffect c s t) ∧
    (c.rw = .w4 → ∃ t, exec .respR4 s = .next t ∧ RespondEffect c s t)

/-- Which configurations are legal (R21), and that an illegal one is refused. That it is refused by this name also where a
block exists, where a second refusal of R122 applies too, is the model's choice (log 19). -/
def Obligations.LegalConfigurations : Prop :=
  ∀ (n rw aw ba : Nat) (s : State),
    ((rw = 1 ∨ rw = 2 ∨ rw = 4) ∧ (aw = 1 ∨ aw = 2) ∧ n ≤ 256 ^ aw ∧ ba < 128 →
      s.cfg = none → ∃ t, exec (.configure n rw aw ba) s = .next t) ∧
    (¬ ((rw = 1 ∨ rw = 2 ∨ rw = 4) ∧ (aw = 1 ∨ aw = 2) ∧ n ≤ 256 ^ aw ∧ ba < 128) →
      exec (.configure n rw aw ba) s = .refused .illegalConfiguration)

/-- The state CONFIGURE leaves: CFG as given, PRA = 0, CF = 0, ACTIVE = 0, a buffer of N · RW drawn bytes (R100, R140; that
the draw is `Config.initByte` of the counter `draws` is the model's form of "unspecified", log 3 and log 5). -/
def Obligations.ConfigureCreatesBlock : Prop :=
  ∀ (c : Cfg) (s : State), c.legal = true → s.cfg = none →
    ∃ t, exec (.configure c.n c.rw.bytes c.aw.bytes c.busAddr.toNat) s = .next t ∧
      t = { s with
        cfg := some c, buf := t.buf, pra := 0, cf := 0, active := false, busFlight := none, hostFlight := none,
        draws := s.draws + 1 } ∧
      t.buf.map Prod.fst = List.range (c.n * c.rw.bytes) ∧
      ∀ k < c.n * c.rw.bytes, t.buf.read k = some (Config.initByte s.draws k)

/-- R22: RW defaults to 4 and AW defaults to 2. -/
def Obligations.ConfigureDefaults : Prop :=
  ∀ (o : Option Cfg) (n ba w : Nat),
    decode o (.configure n none none ba) = decode o (.configure n (some 4) (some 2) ba) ∧
    decode o (.configure n (some w) none ba) = decode o (.configure n (some w) (some 2) ba) ∧
    decode o (.configure n none (some w) ba) = decode o (.configure n (some 4) (some w) ba)

/-- R142: after CONFIGURE no step changes the configuration or resizes the buffer. -/
def Obligations.ConfigurationFixedForLife : Prop :=
  ∀ (s t : State) (c : Cfg), s.cfg = some c → step s = .next t →
    t.cfg = some c ∧ t.buf.map Prod.fst = s.buf.map Prod.fst

/-- A second CONFIGURE is refused: the model holds one block (the model's choice for R6, R122 and U6, log 9). -/
def Obligations.SecondConfigureRefused : Prop :=
  ∀ (s : State) (c : Cfg) (n rw aw ba : Nat), s.cfg = some c → (cfgOf n rw aw ba).isSome = true →
    exec (.configure n rw aw ba) s = .refused .secondInstance

/-- BEGIN sets ACTIVE and nothing else; a second BEGIN changes nothing (R101). -/
def Obligations.BeginActivates : Prop :=
  ∀ (c : Cfg) (s : State), HostReady c s →
    exec .begin s = .next { s with active := true } ∧ (s.active = true → exec .begin s = .next s)

/-- R33: ACTIVE is 0 at reset, BEGIN sets it, no step of a block clears it; while it is 0 no BUS operation has a step, and
HOST operations are enabled whatever it is; all this for operations performed whole and operations started. That "no step" is
the fault `inactive` and that an operation is started by a turn of its own are the model's form (log 8, log 14). -/
def Obligations.ActiveGatesTheBus : Prop :=
  State.reset.active = false ∧
  (∀ (s t : State) (c : Cfg), s.cfg = some c → s.active = true → step s = .next t → t.active = true) ∧
  (∀ (s : State) (c : Cfg) (i : Instr), s.cfg = some c → s.active = false → isBus i = true →
    exec i s = .fault .inactive ∧ startInstr i s = .fault .inactive) ∧
  (∀ (s : State) (c : Cfg) (b : Bool), StateInv s → HostReady c s → s.busFlight = none →
    exec .begin (s.setActive b) = .next (s.setActive true) ∧
    (∃ t, exec .drain (s.setActive b) = .next t) ∧
    (∀ a, ∃ t, exec (.get a) (s.setActive b) = .next t) ∧
    (∀ a d, ∃ t, exec (.set a d) (s.setActive b) = .next t) ∧
    startInstr .begin (s.setActive b) = .next (s.setActive true) ∧
    (∃ t, startInstr .drain (s.setActive b) = .next t) ∧
    (∀ a, ∃ t, startInstr (.get a) (s.setActive b) = .next t) ∧
    (∀ a d, ∃ t, startInstr (.set a d) (s.setActive b) = .next t))

/-- GET returns the register's value zero-extended to 32 bits, 0 out of range, and writes no state of the block (R102). -/
def Obligations.GetReturnsRegister : Prop :=
  ∀ (c : Cfg) (s : State) (a : Addr), StateInv s → HostReady c s →
    (a.toNat < c.n → ∃ reg, IsRegister c a s.buf reg ∧ leNat reg < 256 ^ c.rw.bytes ∧
      exec (.get a) s = .next { s with result := some (.value (BitVec.ofNat 32 (leNat reg))) }) ∧
    (c.n ≤ a.toNat → exec (.get a) s = .next { s with result := some (.value 0) })

/-- SET stores the low RW bytes of its value, changes nothing out of range, and touches no flag (R103, R148). -/
def Obligations.SetStoresRegister : Prop :=
  ∀ (c : Cfg) (s : State) (a : Addr) (d : Value), StateInv s → HostReady c s →
    ∃ t, exec (.set a d) s = .next t ∧ SetEffect c a d s t

/-- R104: DRAIN returns and clears the lowest set flag; with none set it returns VALID = 0 and some IDX, and changes no state
of the block (`draws` is the model's own counter). It is one event whether or not a BUS operation is in flight. -/
def Obligations.DrainTakesLowestFlag : Prop :=
  ∀ (c : Cfg) (s : State), HostReady c s →
    (s.cf ≠ 0 → ∃ i, i < 32 ∧ s.cf.getLsbD i = true ∧ (∀ j < i, s.cf.getLsbD j = false) ∧ (StateInv s → i < c.n) ∧
      exec .drain s = .next { s with
        cf := s.cf &&& ~~~(1#32 <<< i), result := some (.drained true (BitVec.ofNat 5 i)) }) ∧
    (s.cf = 0 → ∃ idx n, exec .drain s = .next { s with result := some (.drained false idx), draws := n })

/-- Every operation of a ready block completes: none stops (R80, R120). -/
def Obligations.EveryOperationCompletes : Prop :=
  ∀ (c : Cfg) (s : State) (i : Instr), StateInv s → i.inConfig c = true →
    (isBus i = true → BusReady c s → ∃ t, exec i s = .next t) ∧
    (isBus i = false → HostReady c s → (∀ n rw aw ba, i ≠ .configure n rw aw ba) → ∃ t, exec i s = .next t)

/-- Operations of one agent never overlap: one presented while another is in flight is refused, whether it is performed whole
or started (R47, R122; the HOST's refusal is the model's choice, log 10, and so is the starting turn, log 14). -/
def Obligations.OverlapRefused : Prop :=
  ∀ (s : State) (c : Cfg) (i : Instr), s.cfg = some c →
    (isBus i = true → s.active = true → s.busFlight ≠ none → exec i s = .refused .busOverlap ∧
      startInstr i s = .refused .busOverlap) ∧
    (isBus i = false → s.hostFlight ≠ none → (∀ n rw aw ba, i ≠ .configure n rw aw ba) →
      exec i s = .refused .hostOverlap ∧ startInstr i s = .refused .hostOverlap)

/-- SET then GET returns the value masked to RW bytes, whatever operations that do not store to the register come
between (an inference the spec makes: R106, from R102 and R103). -/
def Obligations.SetThenGet : Prop :=
  ∀ (c : Cfg) (s t : State) (a : Addr) (d : Value) (mids : List Instr), s.cfg = some c → a.toNat < c.n →
    (∀ i ∈ mids, storesTo i ≠ some a) → performAll (.set a d :: (mids ++ [.get a])) s = .next t →
    t.result = some (.value (BitVec.ofNat 32 (d.toNat &&& (2 ^ (8 * c.rw.bytes) - 1))))

/-- A SELECT of A, then a TX_REQUEST, gives the bytes of GET(A), whether the GET comes before or after; zeros when A is
out of range. Between them there may be operations that neither select nor store to register A (an inference the spec
makes: R89, from R82, R86 and R102). -/
def Obligations.SelectThenTxEqualsGet : Prop :=
  ∀ (c : Cfg) (s t : State) (a : Addr) (sel resp : Instr) (mids : List Instr), s.cfg = some c →
    selectOperand sel = some a → (resp = .respR1 ∨ resp = .respR2 ∨ resp = .respR4) →
    (∀ i ∈ mids, storesTo i ≠ some a ∧ selectOperand i = none) →
    performAll (sel :: (mids ++ [resp])) s = .next t →
    (∀ u, exec (.get a) s = .next u → ∃ d, u.result = some (.value d) ∧
      t.response = some (leEncode d.toNat c.rw.bytes)) ∧
    (∀ u, exec (.get a) t = .next u → ∃ d, u.result = some (.value d) ∧
      t.response = some (leEncode d.toNat c.rw.bytes)) ∧
    (c.n ≤ a.toNat → t.response = some (zeros c.rw.bytes))

/-- DRAIN repeated until VALID = 0 returns every set flag exactly once, in ascending order, and leaves CF = 0; a WRITE
to an address below the pending ones is returned before them (an inference the spec makes: R105, from R104 and R32). -/
def Obligations.DrainLoopAscending : Prop :=
  ∀ (c : Cfg) (s : State), HostReady c s →
    (((drainLoop 33 s).1.map BitVec.toNat).Pairwise (· < ·) ∧
      (∀ k : BitVec 5, k ∈ (drainLoop 33 s).1 ↔ s.cf.getLsbD k.toNat = true) ∧
      (drainLoop 33 s).2.cf = 0 ∧ ∃ idx, (drainLoop 33 s).2.result = some (.drained false idx)) ∧
    (∀ (i : Instr) (a : Addr) (v : Value) (t : State), writeOperands i = some (a, v) → a.toNat < c.n → a.toNat < 32 →
      (∀ k, s.cf.getLsbD k = true → a.toNat ≤ k) → performAll [i, .drain] s = .next t →
      t.result = some (.drained true (BitVec.ofNat 5 a.toNat)))

/-- Two writes to a register before a drain report once: the drain that returns the register leaves its flag clear (R32). -/
def Obligations.WritesCoalesce : Prop :=
  ∀ (c : Cfg) (s t : State) (i₁ i₂ : Instr) (a : Addr) (v₁ v₂ : Value), s.cfg = some c → a.toNat < c.n → a.toNat < 32 →
    writeOperands i₁ = some (a, v₁) → writeOperands i₂ = some (a, v₂) →
    (∀ k < a.toNat, s.cf.getLsbD k = false) → performAll [i₁, i₂, .drain] s = .next t →
    t.result = some (.drained true (BitVec.ofNat 5 a.toNat)) ∧ t.cf.getLsbD a.toNat = false ∧ HoldsValue c a v₂ t.buf

/-- The machine's state at reset meets the invariant. -/
def Obligations.ResetMeetsInvariant : Prop := StateInv State.reset

/-- Every step keeps the invariant: CFG stays legal, the buffer holds exactly its N · RW bytes, PRA fits the address width,
flags belong to registers, operations in flight stay well formed (R21, R25, R28, R29, R31). -/
def Obligations.StepKeepsInvariant : Prop :=
  ∀ s t : State, StateInv s → step s = .next t → StateInv t

/-- From a state that meets the invariant no step reaches a byte outside the buffer, runs a row of another configuration, or
meets an operation without a meaning (R27, R40, R63). -/
def Obligations.NoAccessLeavesTheBuffer : Prop :=
  ∀ s : State, StateInv s →
    step s ≠ .fault .outsideBuffer ∧ step s ≠ .refused .otherConfiguration ∧ ∀ m, step s ≠ .refused (.notModelled m)

/-- When AW = 1, PRA[15:8] = 0 at all times (an inference the spec makes: R29, from R28, R64 and R82). -/
def Obligations.PraHighByteZero : Prop :=
  (∀ c, State.reset.cfg = some c → c.aw = .a1 → State.reset.pra.extractLsb' 8 8 = 0#8) ∧
  ∀ s t : State, (∀ c, s.cfg = some c → c.aw = .a1 → s.pra.extractLsb' 8 8 = 0#8) → step s = .next t →
    ∀ c, t.cfg = some c → c.aw = .a1 → t.pra.extractLsb' 8 8 = 0#8

/-- On a block (R31), an in-range WRITE below 32 sets its flag, DRAIN clears the lowest one, and no other operation writes or
reads CF (with another CF it does the same); and CF[i] = 1 implies i < min(N, 32), which every step keeps (an
inference the spec makes in R31, from R27 and R83). Which steps change CF, event by event, is `StepsThatChangeFlags`. -/
def Obligations.OperationsThatTouchFlags : Prop :=
  (∀ (s t : State) (c : Cfg) (i : Instr), s.cfg = some c → exec i s = .next t →
    (∀ a v, writeOperands i = some (a, v) →
      t.cf = if a.toNat < c.n ∧ a.toNat < 32 then s.cf ||| (1#32 <<< a.toNat) else s.cf) ∧
    (i = .drain → ∀ k, t.cf.getLsbD k = (s.cf.getLsbD k && decide (∃ j < k, s.cf.getLsbD j = true))) ∧
    (writeOperands i = none → i ≠ .drain → t.cf = s.cf ∧ ∀ x, exec i (s.setCf x) = .next (t.setCf x))) ∧
  ∀ s t : State, (∀ c, s.cfg = some c → ∀ k, s.cf.getLsbD k = true → k < min c.n 32) → step s = .next t →
    ∀ c, t.cfg = some c → ∀ k, t.cf.getLsbD k = true → k < min c.n 32

/-- On a block, PRA changes only by a SELECT frame, to the frame's address (R28, R50). -/
def Obligations.OnlySelectWritesPra : Prop :=
  ∀ (s t : State) (c : Cfg), s.cfg = some c → step s = .next t → t.pra ≠ s.pra →
    ∃ (b : List Byte) (ts : List Turn), (s.turns = .op (.rx b) :: ts ∨ s.turns = .start (.rx b) :: ts) ∧
      b.length = c.aw.bytes ∧ t.pra = BitVec.ofNat 16 (leDecode b 0 c.aw.bytes)

/-- The access classes of R128 on a block: a BUS operation clears no flag and leaves CFG and ACTIVE; a HOST operation sets no
flag and leaves CFG and PRA. -/
def Obligations.AccessClasses : Prop :=
  ∀ (s t : State) (c : Cfg) (i : Instr), s.cfg = some c → exec i s = .next t →
    (isBus i = true → (∀ k, s.cf.getLsbD k = true → t.cf.getLsbD k = true) ∧ t.cfg = s.cfg ∧ t.active = s.active) ∧
    (isBus i = false → (∀ k, t.cf.getLsbD k = true → s.cf.getLsbD k = true) ∧ t.cfg = s.cfg ∧ t.pra = s.pra)

/-- No HOST operation reads PRA: with another PRA it does the same (R28, R128). -/
def Obligations.HostNeverReadsPra : Prop :=
  ∀ (s t : State) (i : Instr) (p : Addr), isBus i = false → exec i s = .next t →
    ∃ t', exec i (s.setPra p) = .next t' ∧ t'.setPra t.pra = t

/-- No BUS operation reads CF: with another CF it does the same but for CF (R128). -/
def Obligations.BusNeverReadsFlags : Prop :=
  ∀ (s t : State) (i : Instr) (x : BitVec 32), isBus i = true → exec i s = .next t →
    ∃ t', exec i (s.setCf x) = .next t' ∧ t'.setCf t.cf = t

/-- R23: no operation of the block reads BUS_ADDR, neither in decoding nor in what it does. -/
def Obligations.BusAddrNeverRead : Prop :=
  ∀ (s : State) (c : Cfg) (ba : BitVec 7), s.cfg = some c →
    (∀ o, decode (some { c with busAddr := ba }) o = decode (some c) o) ∧
    (∀ (i : Instr) (t : State), exec i s = .next t →
      exec i { s with cfg := some { c with busAddr := ba } } = .next { t with cfg := some { c with busAddr := ba } })

/-- Repeating an operation changes the buffer no further (R46). -/
def Obligations.RepeatedOperationKeepsBuffer : Prop :=
  ∀ (s t u : State) (i : Instr), exec i s = .next t → exec i t = .next u → u.buf = t.buf

/-- An operation started and then carried on event by event, its bytes in any order and the other agent doing nothing, ends in
the state that performing it whole gives (R47, R48; the starting turn and the final turn are the model's, log 14). -/
def Obligations.UninterruptedEventsAgree : Prop :=
  ∀ (c : Cfg) (s : State) (o : Operation) (js : List Nat), StateInv s → c.rw.bytes + 1 ≤ js.length →
    (BusReady c s → (o = .tx ∨ ∃ b, o = .rx b) →
      runTurns (.start o :: js.map .busEvent) s = runTurns [.op o] s) ∧
    (HostReady c s → (o = .begin ∨ o = .drain ∨ (∃ a, o = .get a) ∨ ∃ a d, o = .set a d) →
      runTurns (.start o :: js.map .hostEvent) s = runTurns [.op o] s)

/-- A GET that overlaps a WRITE to the same register returns, in each byte, the old byte or the new byte (R48). -/
def Obligations.TornGetBytes : Prop :=
  ∀ (c : Cfg) (s t : State) (a : Addr) (v : Value) (ts : List Turn), StateInv s → s.cfg = some c → a.toNat < c.n →
    s.hostFlight = some (.get (Access.reading c a)) → s.busFlight = some (.write (Access.writing c a v)) →
    (∀ tn ∈ ts, ∃ j, tn = .busEvent j ∨ tn = .hostEvent j) → runTurns ts s = .next t → t.hostFlight = none →
    ∃ got : List Byte, t.result = some (.value (BitVec.ofNat 32 (leNat got))) ∧ got.length = c.rw.bytes ∧
      ∀ j < c.rw.bytes, got[j]? = s.buf.read (byteOffset c a j) ∨ got[j]? = some (v.extractLsb' (8 * j) 8)

/-- Every such mix of old and new bytes is the result of some interleaving (R48, X1 of spec/95_test_vectors.md). -/
def Obligations.EveryTornGetPossible : Prop :=
  ∀ (c : Cfg) (s : State) (a : Addr) (v : Value) (reg : List Byte) (new : Nat → Bool), StateInv s → s.cfg = some c →
    a.toNat < c.n → s.hostFlight = some (.get (Access.reading c a)) →
    s.busFlight = some (.write (Access.writing c a v)) → IsRegister c a s.buf reg →
    ∃ (ts : List Turn) (t : State) (got : List Byte), (∀ tn ∈ ts, ∃ j, tn = .busEvent j ∨ tn = .hostEvent j) ∧
      runTurns ts s = .next t ∧ t.hostFlight = none ∧ t.busFlight = none ∧
      t.result = some (.value (BitVec.ofNat 32 (leNat got))) ∧ got.length = c.rw.bytes ∧
      ∀ j < c.rw.bytes, got[j]? = if new j then some (v.extractLsb' (8 * j) 8) else reg[j]?

/-- A TX_REQUEST that overlaps a SET to the same register emits, in each byte, the old byte or the new byte (R48). -/
def Obligations.TornResponseBytes : Prop :=
  ∀ (c : Cfg) (s t : State) (a : Addr) (d : Value) (ts : List Turn), StateInv s → s.cfg = some c → a.toNat < c.n →
    s.busFlight = some (.respond (Access.reading c a)) → s.hostFlight = some (.set (Access.writing c a d)) →
    (∀ tn ∈ ts, ∃ j, tn = .busEvent j ∨ tn = .hostEvent j) → runTurns ts s = .next t → t.busFlight = none →
    ∃ got : List Byte, t.response = some got ∧ got.length = c.rw.bytes ∧
      ∀ j < c.rw.bytes, got[j]? = s.buf.read (byteOffset c a j) ∨ got[j]? = some (d.extractLsb' (8 * j) 8)

/-- After an overlapping SET and WRITE on one register, each byte is the byte of one of the two: the old byte cannot survive
(R48, U3, C10). -/
def Obligations.OverlappingWritesLeaveNoOldByte : Prop :=
  ∀ (c : Cfg) (s t : State) (a : Addr) (v d : Value) (ts : List Turn), StateInv s → s.cfg = some c → a.toNat < c.n →
    s.busFlight = some (.write (Access.writing c a v)) → s.hostFlight = some (.set (Access.writing c a d)) →
    (∀ tn ∈ ts, ∃ j, tn = .busEvent j ∨ tn = .hostEvent j) → runTurns ts s = .next t →
    t.busFlight = none → t.hostFlight = none →
    SameOutside c a s.buf t.buf ∧ ∀ j < c.rw.bytes, t.buf.read (byteOffset c a j) = some (v.extractLsb' (8 * j) 8) ∨
      t.buf.read (byteOffset c a j) = some (d.extractLsb' (8 * j) 8)

/-- While a WRITE is in flight and HOST operations that do not store to its register, performed whole or event by event, come
between its events, its flag is raised only when the register holds the written value (R51, X4 of
spec/95_test_vectors.md). -/
def Obligations.FlagComesAfterTheValue : Prop :=
  ∀ (c : Cfg) (s t : State) (a : Addr) (v : Value) (ts : List Turn), StateInv s → s.cfg = some c → a.toNat < c.n →
    a.toNat < 32 → s.cf.getLsbD a.toNat = false → s.busFlight = some (.write (Access.writing c a v)) →
    (∀ x, s.hostFlight = some (.set x) → x.addr ≠ a) →
    (∀ tn ∈ ts, (∃ j, tn = .busEvent j ∨ tn = .hostEvent j) ∨
      ∃ o i, (tn = .op o ∨ tn = .start o) ∧ decode (some c) o = .instr i ∧ isBus i = false ∧ storesTo i ≠ some a) →
    runTurns ts s = .next t → (t.cf.getLsbD a.toNat = true ∨ t.busFlight = none) → HoldsValue c a v t.buf

/-- The flag event of a WRITE and a DRAIN, in either order, lose no set bit: each is still set or was returned; and when the
DRAIN comes first the WRITE's bit is set after both (R49, X3 of spec/95_test_vectors.md). -/
def Obligations.DrainAndWriteLoseNoFlag : Prop :=
  ∀ (c : Cfg) (s : State) (x : Access) (j : Nat), HostReady c s → s.busFlight = some (.write x) → x.todo = [] →
    x.addr.toNat < c.n → x.addr.toNat < 32 →
    (∃ t, runTurns [.op .drain, .busEvent j] s = .next t ∧ t.cf.getLsbD x.addr.toNat = true ∧
      ∀ k < 32, (s.cf.getLsbD k = true ∨ k = x.addr.toNat) →
        t.cf.getLsbD k = true ∨ t.result = some (.drained true (BitVec.ofNat 5 k))) ∧
    (∃ t, runTurns [.busEvent j, .op .drain] s = .next t ∧
      ∀ k < 32, (s.cf.getLsbD k = true ∨ k = x.addr.toNat) →
        t.cf.getLsbD k = true ∨ t.result = some (.drained true (BitVec.ofNat 5 k)))

/-- Every operation in flight completes (R80): each event turn of its agent does one of the bytes still to do, and the one
after the last byte ends it. That there is such an ending turn also where the spec has no event for it (a SET, an operation
out of range) is the model's choice (log 14), and so is that every number j names a byte (log 15). -/
def Obligations.EventsFinishOperations : Prop :=
  ∀ (s : State) (j : Nat) (ts : List Turn), StateInv s →
    (∀ f, s.busFlight = some f → s.turns = .busEvent j :: ts → ∃ t, step s = .next t ∧
      (f.access.todo = [] → t.busFlight = none) ∧
      (f.access.todo ≠ [] → ∃ f', t.busFlight = some f' ∧ f'.access.todo.length + 1 = f.access.todo.length)) ∧
    (∀ f, s.hostFlight = some f → s.turns = .hostEvent j :: ts → ∃ t, step s = .next t ∧
      (f.access.todo = [] → t.hostFlight = none) ∧
      (f.access.todo ≠ [] → ∃ f', t.hostFlight = some f' ∧ f'.access.todo.length + 1 = f.access.todo.length))

/-- Before CONFIGURE no other operation has a step (R100), whether performed whole or started, called by hand or presented to
the machine. That "no step" is the fault `noBlock` and that operations come as turns are the model's form (log 8, log 6,
log 14). -/
def Obligations.NoOperationBeforeConfigure : Prop :=
  ∀ s : State, s.cfg = none →
    (∀ i, (∀ n rw aw ba, i ≠ .configure n rw aw ba) → exec i s = .fault .noBlock ∧ startInstr i s = .fault .noBlock) ∧
    (∀ o ts, (∀ n rw aw ba, o ≠ .configure n rw aw ba) → (s.turns = .op o :: ts ∨ s.turns = .start o :: ts) →
      step s = .fault .noBlock)

/-- A step of a block that changes CF is one of these (R31, R49): a WRITE frame to an in-range address below 32 performed
whole; the flag event of such a WRITE in flight, after its last byte; a DRAIN. Each changes CF as its rule says. That
operations come as turns is the model's form (log 6, log 14). -/
def Obligations.StepsThatChangeFlags : Prop :=
  ∀ (s t : State) (c : Cfg), s.cfg = some c → step s = .next t → t.cf ≠ s.cf →
    (∃ b ts i a v, s.turns = .op (.rx b) :: ts ∧ decode (some c) (.rx b) = .instr i ∧ writeOperands i = some (a, v) ∧
      a.toNat < c.n ∧ a.toNat < 32 ∧ t.cf = s.cf ||| (1#32 <<< a.toNat)) ∨
    (∃ j ts x, s.turns = .busEvent j :: ts ∧ s.busFlight = some (.write x) ∧ x.todo = [] ∧
      x.addr.toNat < c.n ∧ x.addr.toNat < 32 ∧ t.cf = s.cf ||| (1#32 <<< x.addr.toNat)) ∨
    (∃ ts, (s.turns = .op .drain :: ts ∨ s.turns = .start .drain :: ts) ∧
      ∀ k, t.cf.getLsbD k = (s.cf.getLsbD k && decide (∃ j < k, s.cf.getLsbD j = true)))
end

