-- ==== Sys2Proof/Laws/State.lean ====
section
/-! SUPPORT. One lemma per field per update of State, each true by rfl.
-/
namespace Sys2Proof.Machine

variable (s : State)

@[simp] theorem State.setBuf_cfg (m : Memory) : (s.setBuf m).cfg = s.cfg := rfl
@[simp] theorem State.setBuf_buf (m : Memory) : (s.setBuf m).buf = m := rfl
@[simp] theorem State.setBuf_pra (m : Memory) : (s.setBuf m).pra = s.pra := rfl
@[simp] theorem State.setBuf_cf (m : Memory) : (s.setBuf m).cf = s.cf := rfl
@[simp] theorem State.setBuf_active (m : Memory) : (s.setBuf m).active = s.active := rfl
@[simp] theorem State.setBuf_busFlight (m : Memory) : (s.setBuf m).busFlight = s.busFlight := rfl
@[simp] theorem State.setBuf_hostFlight (m : Memory) : (s.setBuf m).hostFlight = s.hostFlight := rfl
@[simp] theorem State.setBuf_response (m : Memory) : (s.setBuf m).response = s.response := rfl
@[simp] theorem State.setBuf_result (m : Memory) : (s.setBuf m).result = s.result := rfl
@[simp] theorem State.setBuf_draws (m : Memory) : (s.setBuf m).draws = s.draws := rfl
@[simp] theorem State.setBuf_turns (m : Memory) : (s.setBuf m).turns = s.turns := rfl

@[simp] theorem State.setPra_cfg (a : Addr) : (s.setPra a).cfg = s.cfg := rfl
@[simp] theorem State.setPra_buf (a : Addr) : (s.setPra a).buf = s.buf := rfl
@[simp] theorem State.setPra_pra (a : Addr) : (s.setPra a).pra = a := rfl
@[simp] theorem State.setPra_cf (a : Addr) : (s.setPra a).cf = s.cf := rfl
@[simp] theorem State.setPra_active (a : Addr) : (s.setPra a).active = s.active := rfl
@[simp] theorem State.setPra_busFlight (a : Addr) : (s.setPra a).busFlight = s.busFlight := rfl
@[simp] theorem State.setPra_hostFlight (a : Addr) : (s.setPra a).hostFlight = s.hostFlight := rfl
@[simp] theorem State.setPra_response (a : Addr) : (s.setPra a).response = s.response := rfl
@[simp] theorem State.setPra_result (a : Addr) : (s.setPra a).result = s.result := rfl
@[simp] theorem State.setPra_draws (a : Addr) : (s.setPra a).draws = s.draws := rfl
@[simp] theorem State.setPra_turns (a : Addr) : (s.setPra a).turns = s.turns := rfl

@[simp] theorem State.setCf_cfg (x : BitVec 32) : (s.setCf x).cfg = s.cfg := rfl
@[simp] theorem State.setCf_buf (x : BitVec 32) : (s.setCf x).buf = s.buf := rfl
@[simp] theorem State.setCf_pra (x : BitVec 32) : (s.setCf x).pra = s.pra := rfl
@[simp] theorem State.setCf_cf (x : BitVec 32) : (s.setCf x).cf = x := rfl
@[simp] theorem State.setCf_active (x : BitVec 32) : (s.setCf x).active = s.active := rfl
@[simp] theorem State.setCf_busFlight (x : BitVec 32) : (s.setCf x).busFlight = s.busFlight := rfl
@[simp] theorem State.setCf_hostFlight (x : BitVec 32) : (s.setCf x).hostFlight = s.hostFlight := rfl
@[simp] theorem State.setCf_response (x : BitVec 32) : (s.setCf x).response = s.response := rfl
@[simp] theorem State.setCf_result (x : BitVec 32) : (s.setCf x).result = s.result := rfl
@[simp] theorem State.setCf_draws (x : BitVec 32) : (s.setCf x).draws = s.draws := rfl
@[simp] theorem State.setCf_turns (x : BitVec 32) : (s.setCf x).turns = s.turns := rfl

@[simp] theorem State.setActive_cfg (b : Bool) : (s.setActive b).cfg = s.cfg := rfl
@[simp] theorem State.setActive_buf (b : Bool) : (s.setActive b).buf = s.buf := rfl
@[simp] theorem State.setActive_pra (b : Bool) : (s.setActive b).pra = s.pra := rfl
@[simp] theorem State.setActive_cf (b : Bool) : (s.setActive b).cf = s.cf := rfl
@[simp] theorem State.setActive_active (b : Bool) : (s.setActive b).active = b := rfl
@[simp] theorem State.setActive_busFlight (b : Bool) : (s.setActive b).busFlight = s.busFlight := rfl
@[simp] theorem State.setActive_hostFlight (b : Bool) : (s.setActive b).hostFlight = s.hostFlight := rfl
@[simp] theorem State.setActive_response (b : Bool) : (s.setActive b).response = s.response := rfl
@[simp] theorem State.setActive_result (b : Bool) : (s.setActive b).result = s.result := rfl
@[simp] theorem State.setActive_draws (b : Bool) : (s.setActive b).draws = s.draws := rfl
@[simp] theorem State.setActive_turns (b : Bool) : (s.setActive b).turns = s.turns := rfl

@[simp] theorem State.setBusFlight_cfg (f : Option BusFlight) : (s.setBusFlight f).cfg = s.cfg := rfl
@[simp] theorem State.setBusFlight_buf (f : Option BusFlight) : (s.setBusFlight f).buf = s.buf := rfl
@[simp] theorem State.setBusFlight_pra (f : Option BusFlight) : (s.setBusFlight f).pra = s.pra := rfl
@[simp] theorem State.setBusFlight_cf (f : Option BusFlight) : (s.setBusFlight f).cf = s.cf := rfl
@[simp] theorem State.setBusFlight_active (f : Option BusFlight) : (s.setBusFlight f).active = s.active := rfl
@[simp] theorem State.setBusFlight_busFlight (f : Option BusFlight) : (s.setBusFlight f).busFlight = f := rfl
@[simp] theorem State.setBusFlight_hostFlight (f : Option BusFlight) : (s.setBusFlight f).hostFlight = s.hostFlight := rfl
@[simp] theorem State.setBusFlight_response (f : Option BusFlight) : (s.setBusFlight f).response = s.response := rfl
@[simp] theorem State.setBusFlight_result (f : Option BusFlight) : (s.setBusFlight f).result = s.result := rfl
@[simp] theorem State.setBusFlight_draws (f : Option BusFlight) : (s.setBusFlight f).draws = s.draws := rfl
@[simp] theorem State.setBusFlight_turns (f : Option BusFlight) : (s.setBusFlight f).turns = s.turns := rfl

@[simp] theorem State.setHostFlight_cfg (f : Option HostFlight) : (s.setHostFlight f).cfg = s.cfg := rfl
@[simp] theorem State.setHostFlight_buf (f : Option HostFlight) : (s.setHostFlight f).buf = s.buf := rfl
@[simp] theorem State.setHostFlight_pra (f : Option HostFlight) : (s.setHostFlight f).pra = s.pra := rfl
@[simp] theorem State.setHostFlight_cf (f : Option HostFlight) : (s.setHostFlight f).cf = s.cf := rfl
@[simp] theorem State.setHostFlight_active (f : Option HostFlight) : (s.setHostFlight f).active = s.active := rfl
@[simp] theorem State.setHostFlight_busFlight (f : Option HostFlight) : (s.setHostFlight f).busFlight = s.busFlight := rfl
@[simp] theorem State.setHostFlight_hostFlight (f : Option HostFlight) : (s.setHostFlight f).hostFlight = f := rfl
@[simp] theorem State.setHostFlight_response (f : Option HostFlight) : (s.setHostFlight f).response = s.response := rfl
@[simp] theorem State.setHostFlight_result (f : Option HostFlight) : (s.setHostFlight f).result = s.result := rfl
@[simp] theorem State.setHostFlight_draws (f : Option HostFlight) : (s.setHostFlight f).draws = s.draws := rfl
@[simp] theorem State.setHostFlight_turns (f : Option HostFlight) : (s.setHostFlight f).turns = s.turns := rfl

@[simp] theorem State.setResponse_cfg (bs : List Byte) : (s.setResponse bs).cfg = s.cfg := rfl
@[simp] theorem State.setResponse_buf (bs : List Byte) : (s.setResponse bs).buf = s.buf := rfl
@[simp] theorem State.setResponse_pra (bs : List Byte) : (s.setResponse bs).pra = s.pra := rfl
@[simp] theorem State.setResponse_cf (bs : List Byte) : (s.setResponse bs).cf = s.cf := rfl
@[simp] theorem State.setResponse_active (bs : List Byte) : (s.setResponse bs).active = s.active := rfl
@[simp] theorem State.setResponse_busFlight (bs : List Byte) : (s.setResponse bs).busFlight = s.busFlight := rfl
@[simp] theorem State.setResponse_hostFlight (bs : List Byte) : (s.setResponse bs).hostFlight = s.hostFlight := rfl
@[simp] theorem State.setResponse_response (bs : List Byte) : (s.setResponse bs).response = some bs := rfl
@[simp] theorem State.setResponse_result (bs : List Byte) : (s.setResponse bs).result = s.result := rfl
@[simp] theorem State.setResponse_draws (bs : List Byte) : (s.setResponse bs).draws = s.draws := rfl
@[simp] theorem State.setResponse_turns (bs : List Byte) : (s.setResponse bs).turns = s.turns := rfl

@[simp] theorem State.setResult_cfg (r : HostResult) : (s.setResult r).cfg = s.cfg := rfl
@[simp] theorem State.setResult_buf (r : HostResult) : (s.setResult r).buf = s.buf := rfl
@[simp] theorem State.setResult_pra (r : HostResult) : (s.setResult r).pra = s.pra := rfl
@[simp] theorem State.setResult_cf (r : HostResult) : (s.setResult r).cf = s.cf := rfl
@[simp] theorem State.setResult_active (r : HostResult) : (s.setResult r).active = s.active := rfl
@[simp] theorem State.setResult_busFlight (r : HostResult) : (s.setResult r).busFlight = s.busFlight := rfl
@[simp] theorem State.setResult_hostFlight (r : HostResult) : (s.setResult r).hostFlight = s.hostFlight := rfl
@[simp] theorem State.setResult_response (r : HostResult) : (s.setResult r).response = s.response := rfl
@[simp] theorem State.setResult_result (r : HostResult) : (s.setResult r).result = some r := rfl
@[simp] theorem State.setResult_draws (r : HostResult) : (s.setResult r).draws = s.draws := rfl
@[simp] theorem State.setResult_turns (r : HostResult) : (s.setResult r).turns = s.turns := rfl

@[simp] theorem State.nextDraw_cfg : (s.nextDraw).cfg = s.cfg := rfl
@[simp] theorem State.nextDraw_buf : (s.nextDraw).buf = s.buf := rfl
@[simp] theorem State.nextDraw_pra : (s.nextDraw).pra = s.pra := rfl
@[simp] theorem State.nextDraw_cf : (s.nextDraw).cf = s.cf := rfl
@[simp] theorem State.nextDraw_active : (s.nextDraw).active = s.active := rfl
@[simp] theorem State.nextDraw_busFlight : (s.nextDraw).busFlight = s.busFlight := rfl
@[simp] theorem State.nextDraw_hostFlight : (s.nextDraw).hostFlight = s.hostFlight := rfl
@[simp] theorem State.nextDraw_response : (s.nextDraw).response = s.response := rfl
@[simp] theorem State.nextDraw_result : (s.nextDraw).result = s.result := rfl
@[simp] theorem State.nextDraw_draws : (s.nextDraw).draws = s.draws + 1 := rfl
@[simp] theorem State.nextDraw_turns : (s.nextDraw).turns = s.turns := rfl

@[simp] theorem State.setTurns_cfg (ts : List Turn) : (s.setTurns ts).cfg = s.cfg := rfl
@[simp] theorem State.setTurns_buf (ts : List Turn) : (s.setTurns ts).buf = s.buf := rfl
@[simp] theorem State.setTurns_pra (ts : List Turn) : (s.setTurns ts).pra = s.pra := rfl
@[simp] theorem State.setTurns_cf (ts : List Turn) : (s.setTurns ts).cf = s.cf := rfl
@[simp] theorem State.setTurns_active (ts : List Turn) : (s.setTurns ts).active = s.active := rfl
@[simp] theorem State.setTurns_busFlight (ts : List Turn) : (s.setTurns ts).busFlight = s.busFlight := rfl
@[simp] theorem State.setTurns_hostFlight (ts : List Turn) : (s.setTurns ts).hostFlight = s.hostFlight := rfl
@[simp] theorem State.setTurns_response (ts : List Turn) : (s.setTurns ts).response = s.response := rfl
@[simp] theorem State.setTurns_result (ts : List Turn) : (s.setTurns ts).result = s.result := rfl
@[simp] theorem State.setTurns_draws (ts : List Turn) : (s.setTurns ts).draws = s.draws := rfl
@[simp] theorem State.setTurns_turns (ts : List Turn) : (s.setTurns ts).turns = ts := rfl

@[simp] theorem State.configured_cfg (c : Cfg) : (s.configured c).cfg = some c := rfl
@[simp] theorem State.configured_buf (c : Cfg) : (s.configured c).buf = initBuf s.draws c.bufSize := rfl
@[simp] theorem State.configured_pra (c : Cfg) : (s.configured c).pra = 0 := rfl
@[simp] theorem State.configured_cf (c : Cfg) : (s.configured c).cf = 0 := rfl
@[simp] theorem State.configured_active (c : Cfg) : (s.configured c).active = false := rfl
@[simp] theorem State.configured_busFlight (c : Cfg) : (s.configured c).busFlight = none := rfl
@[simp] theorem State.configured_hostFlight (c : Cfg) : (s.configured c).hostFlight = none := rfl
@[simp] theorem State.configured_response (c : Cfg) : (s.configured c).response = s.response := rfl
@[simp] theorem State.configured_result (c : Cfg) : (s.configured c).result = s.result := rfl
@[simp] theorem State.configured_draws (c : Cfg) : (s.configured c).draws = s.draws + 1 := rfl
@[simp] theorem State.configured_turns (c : Cfg) : (s.configured c).turns = s.turns := rfl

end Sys2Proof.Machine
end

