-- ==== Sys2Proof/Laws/Memory.lean ====
section
/-! SUPPORT. The laws of the register buffer: what one byte's read and write do, what a run of bytes does, and that every
memory operation keeps the canonical form and the set of offsets.
-/
namespace Sys2Proof.Machine

/-- A byte can be read exactly where its offset is listed. -/
theorem Memory.read_isSome_iff (m : Memory) (k : Nat) : (m.read k).isSome ↔ k ∈ m.map Prod.fst := by
  induction m with
  | nil => simp [Memory.read]
  | cons p m ih =>
    obtain ⟨a, b⟩ := p
    by_cases h : a = k
    · simp [Memory.read, h]
    · simp only [Memory.read, h, if_false, ih, List.map_cons, List.mem_cons]
      exact ⟨Or.inr, fun h' => h'.resolve_left (Ne.symm h)⟩

/-- A write succeeds exactly where the offset is listed. -/
theorem Memory.write_isSome_iff (m : Memory) (k : Nat) (v : Byte) : (m.write k v).isSome ↔ k ∈ m.map Prod.fst := by
  induction m with
  | nil => simp [Memory.write]
  | cons p m ih =>
    obtain ⟨a, b⟩ := p
    by_cases h : a = k
    · simp [Memory.write, h]
    · have : (Memory.write ((a, b) :: m) k v).isSome = (Memory.write m k v).isSome := by
        simp only [Memory.write, h, if_false]; cases Memory.write m k v <;> rfl
      rw [this, ih]
      simp only [List.map_cons, List.mem_cons]
      exact ⟨Or.inr, fun h' => h'.resolve_left (Ne.symm h)⟩

/-- A write keeps the set of offsets and their order. -/
theorem Memory.write_keys {m m' : Memory} {k : Nat} {v : Byte} (h : m.write k v = some m') :
    m'.map Prod.fst = m.map Prod.fst := by
  induction m generalizing m' with
  | nil => simp [Memory.write] at h
  | cons p m ih =>
    obtain ⟨a, b⟩ := p
    simp only [Memory.write] at h
    split at h
    · cases h; rfl
    · split at h
      · cases h
      · cases h; simp [ih ‹_›]

/-- What every byte reads as after a write: the written byte at its offset, every other as before. -/
theorem Memory.read_write {m m' : Memory} {k : Nat} {v : Byte} (h : m.write k v = some m') (i : Nat) :
    m'.read i = if i = k then some v else m.read i := by
  induction m generalizing m' with
  | nil => simp [Memory.write] at h
  | cons p m ih =>
    obtain ⟨a, b⟩ := p
    simp only [Memory.write] at h
    split at h
    · rename_i hak
      cases h
      by_cases hi : i = k
      · simp [Memory.read, hak, hi]
      · simp [Memory.read, hi, hak ▸ Ne.symm hi]
    · rename_i hak
      split at h
      · cases h
      · rename_i m'' hw
        cases h
        by_cases hai : a = i
        · simp [Memory.read, hai, show ¬ i = k from fun e => hak (hai.trans e)]
        · simp [Memory.read, hai, ih hw]

/-- Read after write, same byte. -/
theorem Memory.read_write_same {m m' : Memory} {k : Nat} {v : Byte} (h : m.write k v = some m') :
    m'.read k = some v := by simp [Memory.read_write h]

/-- Read after write, another byte. -/
theorem Memory.read_write_other {m m' : Memory} {k i : Nat} {v : Byte} (h : m.write k v = some m') (hi : i ≠ k) :
    m'.read i = m.read i := by simp [Memory.read_write h, hi]

/-- A run of writes keeps the set of offsets and their order. -/
theorem Memory.writeBytes_keys {m m' : Memory} {off : Nat} {bs : List Byte} (h : m.writeBytes off bs = some m') :
    m'.map Prod.fst = m.map Prod.fst := by
  induction bs generalizing m off with
  | nil => cases h; rfl
  | cons b bs ih =>
    simp only [Memory.writeBytes] at h
    split at h
    · exact (ih h).trans (Memory.write_keys ‹_›)
    · cases h

/-- A run of writes succeeds when all its offsets are listed. -/
theorem Memory.writeBytes_isSome {m : Memory} {off : Nat} {bs : List Byte}
    (h : ∀ j < bs.length, off + j ∈ m.map Prod.fst) : ∃ m', m.writeBytes off bs = some m' := by
  induction bs generalizing m off with
  | nil => exact ⟨m, rfl⟩
  | cons b bs ih =>
    obtain ⟨m₁, h₁⟩ := Option.isSome_iff_exists.1 ((Memory.write_isSome_iff m off b).2 (h 0 (by simp)))
    have : ∀ j < bs.length, off + 1 + j ∈ m₁.map Prod.fst := fun j hj => by
      rw [Memory.write_keys h₁, show off + 1 + j = off + (j + 1) by omega]
      exact h (j + 1) (by simpa using hj)
    obtain ⟨m', h'⟩ := ih this
    exact ⟨m', by simp [Memory.writeBytes, h₁, h']⟩

/-- What every byte reads as after a run of writes. -/
theorem Memory.read_writeBytes {m m' : Memory} {off : Nat} {bs : List Byte} (h : m.writeBytes off bs = some m') (i : Nat) :
    m'.read i = if off ≤ i ∧ i < off + bs.length then bs[i - off]? else m.read i := by
  induction bs generalizing m off with
  | nil => cases h; simp
  | cons b bs ih =>
    simp only [Memory.writeBytes] at h
    split at h
    · rename_i m₁ h₁
      rw [ih h, Memory.read_write h₁]
      rcases Nat.lt_trichotomy i off with hlt | rfl | hgt
      · simp [show ¬ (off + 1 ≤ i) by omega, show ¬ (off ≤ i) by omega, show i ≠ off by omega]
      · simp
      · obtain ⟨d, rfl⟩ : ∃ d, i = off + (d + 1) := ⟨i - off - 1, by omega⟩
        simp only [List.length_cons, show off + (d + 1) - (off + 1) = d by omega,
          show off + (d + 1) - off = d + 1 by omega, List.getElem?_cons_succ, show ¬ off + (d + 1) = off by omega, if_false]
        by_cases hd : d < bs.length
        · rw [if_pos (by omega), if_pos (by omega)]
        · rw [if_neg (by omega), if_neg (by omega)]
    · cases h

/-- A run of reads gives one byte per offset, each the byte at that offset. -/
theorem Memory.readBytes_spec {m : Memory} {off n : Nat} {bs : List Byte} (h : m.readBytes off n = some bs) :
    bs.length = n ∧ ∀ j < n, bs[j]? = m.read (off + j) := by
  induction n generalizing off bs with
  | zero => cases h; exact ⟨rfl, fun j hj => absurd hj (by omega)⟩
  | succ n ih =>
    simp only [Memory.readBytes] at h
    split at h
    · rename_i b bs' hb hbs
      cases h
      obtain ⟨hl, hr⟩ := ih hbs
      refine ⟨by simp [hl], fun j hj => ?_⟩
      cases j with
      | zero => simp [hb]
      | succ j =>
        rw [List.getElem?_cons_succ, hr j (by omega)]
        congr 1; omega
    · cases h

/-- A run of reads succeeds when all its offsets are listed. -/
theorem Memory.readBytes_isSome {m : Memory} {off n : Nat} (h : ∀ j < n, off + j ∈ m.map Prod.fst) :
    ∃ bs, m.readBytes off n = some bs := by
  induction n generalizing off with
  | zero => exact ⟨[], rfl⟩
  | succ n ih =>
    obtain ⟨b, hb⟩ := Option.isSome_iff_exists.1 ((Memory.read_isSome_iff m off).2 (h 0 (by omega)))
    obtain ⟨bs, hbs⟩ := ih (off := off + 1) fun j hj => by
      rw [show off + 1 + j = off + (j + 1) by omega]; exact h (j + 1) (by omega)
    exact ⟨b :: bs, by simp [Memory.readBytes, hb, hbs]⟩

/-- The canonical form depends on the offsets only. -/
theorem Memory.wf_of_keys {m m' : Memory} (h : m'.map Prod.fst = m.map Prod.fst) : m'.wf = m.wf := by
  simp [Memory.wf, h]

/-- Every memory operation keeps the canonical form. -/
theorem Memory.write_wf {m m' : Memory} {k : Nat} {v : Byte} (h : m.write k v = some m') (hm : m.wf = true) :
    m'.wf = true := (Memory.wf_of_keys (Memory.write_keys h)).trans hm

/-- Every memory operation keeps the canonical form. -/
theorem Memory.writeBytes_wf {m m' : Memory} {off : Nat} {bs : List Byte} (h : m.writeBytes off bs = some m')
    (hm : m.wf = true) : m'.wf = true := (Memory.wf_of_keys (Memory.writeBytes_keys h)).trans hm

/-- A drawn buffer lists exactly the offsets below its size. -/
@[simp] theorem initBuf_keys (draw size : Nat) : (initBuf draw size).map Prod.fst = List.range size := by
  simp [initBuf, Function.comp_def]

/-- A drawn buffer is in canonical form. -/
theorem initBuf_wf (draw size : Nat) : (initBuf draw size).wf = true := by
  simp [Memory.wf, List.pairwise_lt_range]

/-- The memory at reset is in canonical form. -/
theorem reset_buf_wf : State.reset.buf.wf = true := by decide

end Sys2Proof.Machine
end

