-- ==== Sys2Proof/Laws/Operands.lean ====
section
/-! SUPPORT. The laws of byte order, of the value mask and of the change-flag word.
-/
namespace Sys2Proof

@[simp] theorem leEncode_length (v n : Nat) : (leEncode v n).length = n := by
  induction n generalizing v with
  | zero => rfl
  | succ n ih => simp [leEncode, ih]

@[simp] theorem zeros_length (n : Nat) : (zeros n).length = n := by simp [zeros]

/-- Byte j of an encoded number is the number's byte j. -/
theorem leEncode_getElem? (v : Nat) {n j : Nat} (hj : j < n) :
    (leEncode v n)[j]? = some (BitVec.ofNat 8 (v / 256 ^ j)) := by
  induction n generalizing v j with
  | zero => omega
  | succ n ih =>
    cases j with
    | zero => simp [leEncode]
    | succ j =>
      simp only [leEncode, List.getElem?_cons_succ]
      rw [ih _ (by omega), Nat.div_div_eq_div_mul, Nat.pow_succ, Nat.mul_comm]

/-- Decoding is bounded by the number of bytes. -/
theorem leNat_lt (bs : List Byte) : leNat bs < 256 ^ bs.length := by
  induction bs with
  | nil => simp [leNat]
  | cons b bs ih =>
    have := b.isLt
    simp only [leNat, List.length_cons, Nat.pow_succ]
    omega

/-- Encoding then decoding gives the low bytes. -/
theorem leNat_leEncode (v n : Nat) : leNat (leEncode v n) = v % 256 ^ n := by
  induction n generalizing v with
  | zero => simp [leEncode, leNat, Nat.mod_one]
  | succ n ih =>
    have h : (BitVec.ofNat 8 v).toNat = v % 256 := BitVec.toNat_ofNat ..
    rw [leEncode, leNat, ih, h, Nat.pow_succ, Nat.mul_comm (256 ^ n) 256, Nat.mod_mul]

/-- Decoding then encoding gives the bytes back. -/
theorem leEncode_leNat (bs : List Byte) : leEncode (leNat bs) bs.length = bs := by
  induction bs with
  | nil => rfl
  | cons b bs ih =>
    have hb := b.isLt
    have h1 : (b.toNat + 256 * leNat bs) / 256 = leNat bs := by omega
    have h2 : BitVec.ofNat 8 (b.toNat + 256 * leNat bs) = b := by
      apply BitVec.eq_of_toNat_eq; rw [BitVec.toNat_ofNat]; omega
    simp only [leNat, List.length_cons, leEncode, h1, h2, ih]

/-- The value of zero bytes is 0. -/
@[simp] theorem leNat_zeros (n : Nat) : leNat (zeros n) = 0 := by
  induction n with
  | zero => rfl
  | succ n ih =>
    have e : zeros (n + 1) = 0 :: zeros n := rfl
    simp [e, leNat, ih]

/-- The mask keeps the low RW bytes. -/
theorem and_mask (v n : Nat) : v &&& mask n = v % 256 ^ n := by
  rw [mask, Nat.and_two_pow_sub_one_eq_mod, Nat.pow_mul]

@[simp] theorem valueBytes_length (c : Cfg) (v : Value) : (valueBytes c v).length = c.rw.bytes := by simp [valueBytes]

/-- Byte j of the stored value is bits [8j+7 : 8j] of the value (R26). -/
theorem valueBytes_getElem? (c : Cfg) (v : Value) {j : Nat} (hj : j < c.rw.bytes) :
    (valueBytes c v)[j]? = some (v.extractLsb' (8 * j) 8) := by
  rw [valueBytes, leEncode_getElem? _ hj, and_mask]
  congr 1
  apply BitVec.eq_of_toNat_eq
  rw [BitVec.toNat_ofNat, BitVec.extractLsb'_toNat, Nat.shiftRight_eq_div_pow, Nat.pow_mul]
  obtain ⟨d, hd⟩ : ∃ d, c.rw.bytes = j + (d + 1) := ⟨c.rw.bytes - j - 1, by omega⟩
  rw [hd, Nat.pow_add, Nat.mod_mul_right_div_self, Nat.pow_succ, Nat.mod_mul_left_mod]

theorem RegWidth.bytes_pos (w : RegWidth) : 0 < w.bytes := by cases w <;> decide

theorem RegWidth.bytes_le (w : RegWidth) : w.bytes ≤ 4 := by cases w <;> decide

theorem AddrWidth.bytes_pos (w : AddrWidth) : 0 < w.bytes := by cases w <;> decide

theorem AddrWidth.bytes_le (w : AddrWidth) : w.bytes ≤ 2 := by cases w <;> decide

/-- An RW-byte value fits the HOST port (R8). -/
theorem RegWidth.pow_le (w : RegWidth) : 256 ^ w.bytes ≤ 2 ^ 32 := by cases w <;> decide

/-- The HOST port's view of what a write of v stores is v masked to RW bytes (R44, R106). -/
theorem hostValue_valueBytes (c : Cfg) (v : Value) :
    hostValue (valueBytes c v) = BitVec.ofNat 32 (v.toNat &&& mask c.rw.bytes) := by
  rw [hostValue, valueBytes, leNat_leEncode, and_mask, Nat.mod_mod]

/-- The legal configurations are those CONFIGURE's operands describe (R21). -/
theorem cfgOf_legal {n rw aw ba : Nat} {c : Cfg} (h : cfgOf n rw aw ba = some c) : c.legal = true := by
  simp only [cfgOf] at h
  split at h
  · split at h
    · rename_i hn
      cases h
      exact decide_eq_true hn.1
    · cases h
  · cases h

theorem lowestSetFrom_spec (x : BitVec 32) (i fuel : Nat) :
    (∃ k, lowestSetFrom x i fuel = some k ∧ i ≤ k ∧ k < i + fuel ∧ x.getLsbD k = true ∧
      ∀ j, i ≤ j → j < k → x.getLsbD j = false) ∨
    (lowestSetFrom x i fuel = none ∧ ∀ j, i ≤ j → j < i + fuel → x.getLsbD j = false) := by
  induction fuel generalizing i with
  | zero => exact .inr ⟨rfl, fun j h₁ h₂ => by omega⟩
  | succ fuel ih =>
    by_cases hi : x.getLsbD i = true
    · exact .inl ⟨i, by simp [lowestSetFrom, hi], le_refl i, by omega, hi, fun j h₁ h₂ => by omega⟩
    · have hf : x.getLsbD i = false := by simpa using hi
      have e : lowestSetFrom x i (fuel + 1) = lowestSetFrom x (i + 1) fuel := by simp [lowestSetFrom, hf]
      have below : ∀ j, i ≤ j → (i + 1 ≤ j → x.getLsbD j = false) → x.getLsbD j = false := fun j h₁ h₂ => by
        rcases Nat.eq_or_lt_of_le h₁ with rfl | h
        · exact hf
        · exact h₂ h
      rcases ih (i + 1) with ⟨k, hk, h₁, h₂, h₃, h₄⟩ | ⟨hk, h⟩
      · exact .inl ⟨k, e.trans hk, by omega, by omega, h₃, fun j h₅ h₆ => below j h₅ fun h₇ => h₄ j h₇ h₆⟩
      · exact .inr ⟨e.trans hk, fun j h₁ h₂ => below j h₁ fun h₃ => h j h₃ (by omega)⟩

/-- `lowest_set` of R11: the smallest set bit, or none when the word is 0. -/
theorem lowestSet_spec (x : BitVec 32) :
    (∃ k, lowestSet x = some k ∧ k < 32 ∧ x.getLsbD k = true ∧ ∀ j < k, x.getLsbD j = false) ∨
    (lowestSet x = none ∧ x = 0) := by
  rcases lowestSetFrom_spec x 0 32 with ⟨k, hk, -, h₂, h₃, h₄⟩ | ⟨hk, h⟩
  · exact .inl ⟨k, hk, by omega, h₃, fun j hj => h₄ j (by omega) hj⟩
  · exact .inr ⟨hk, BitVec.eq_of_getLsbD_eq fun j hj => by simpa using h j (by omega) (by omega)⟩

/-- Setting a flag: bit a becomes 1, every other bit stays. -/
theorem setFlag_getLsbD (x : BitVec 32) (a i : Nat) (ha : a < 32) :
    (setFlag x a).getLsbD i = (x.getLsbD i || decide (i = a)) := by
  have : (1#32 <<< a).getLsbD i = decide (i = a) := by
    simp only [BitVec.getLsbD_shiftLeft, BitVec.getLsbD_one]
    by_cases h : i = a
    · subst h; simp [ha]
    · rw [decide_eq_false h]
      by_cases h2 : i < a
      · simp [h2]
      · simp; omega
  simp [setFlag, this]

/-- Clearing a flag: bit a becomes 0, every other bit stays. -/
theorem clearFlag_getLsbD (x : BitVec 32) (a i : Nat) :
    (clearFlag x a).getLsbD i = (x.getLsbD i && !decide (i = a)) := by
  by_cases hi : i < 32
  · have : (1#32 <<< a).getLsbD i = decide (i = a) := by
      simp only [BitVec.getLsbD_shiftLeft, BitVec.getLsbD_one]
      by_cases h : i = a
      · subst h; simp [hi]
      · rw [decide_eq_false h]
        by_cases h2 : i < a
        · simp [h2]
        · simp; omega
    rw [clearFlag, BitVec.getLsbD_and, BitVec.getLsbD_not, this]
    simp [hi]
  · simp [BitVec.getLsbD_of_ge _ _ (Nat.le_of_not_lt hi)]

end Sys2Proof
end

