-- ==== Sys2Proof/Laws/Ops.lean ====
section
/-! SUPPORT. What each shared operation can do, said once: the enables, the register access, the flags, one event of an
operation in flight, one turn.
-/
namespace Sys2Proof.Machine

section Enables

variable {s t : State} {c : Cfg}

/-- A BUS operation that answers a next state ran on a ready block. -/
theorem busOperation_next {k : Cfg → Result} (h : busOperation s k = .next t) :
    ∃ c, BusReady c s ∧ k c = .next t := by
  simp only [busOperation, withBlock] at h
  split at h
  · cases h
  · rename_i c hc
    split at h
    · rename_i ha
      split at h
      · cases h
      · exact ⟨c, ⟨hc, ha, by simpa using ‹¬ s.busFlight.isSome = true›⟩, h⟩
    · cases h

theorem busOperation_ready {k : Cfg → Result} (h : BusReady c s) : busOperation s k = k c := by
  simp [busOperation, withBlock, h.1, h.2.1, h.2.2]

/-- A HOST operation that answers a next state ran on a ready block. -/
theorem hostOperation_next {k : Cfg → Result} (h : hostOperation s k = .next t) :
    ∃ c, HostReady c s ∧ k c = .next t := by
  simp only [hostOperation, withBlock] at h
  split at h
  · cases h
  · rename_i c hc
    split at h
    · cases h
    · exact ⟨c, ⟨hc, by simpa using ‹¬ s.hostFlight.isSome = true›⟩, h⟩

theorem hostOperation_ready {k : Cfg → Result} (h : HostReady c s) : hostOperation s k = k c := by
  simp [hostOperation, withBlock, h.1, h.2]

/-- A row of the table that answers a next state ran on a ready block of its own configuration. -/
theorem onRow_next {i : Instr} {k : Cfg → Result} (h : onRow i s k = .next t) :
    ∃ c, BusReady c s ∧ i.inConfig c = true ∧ k c = .next t := by
  obtain ⟨c, hr, hk⟩ := busOperation_next h
  split at hk
  · exact ⟨c, hr, ‹_›, hk⟩
  · cases hk

theorem onRow_ready {i : Instr} {k : Cfg → Result} (h : BusReady c s) (hi : i.inConfig c = true) :
    onRow i s k = k c := by simp [onRow, busOperation_ready h, hi]

/-- Where an operation of the BUS stops before it does anything: no block, not active, another in flight. -/
theorem onRow_noBlock {i : Instr} {k : Cfg → Result} (h : s.cfg = none) : onRow i s k = .fault .noBlock := by
  simp [onRow, busOperation, withBlock, h]

theorem onRow_inactive {i : Instr} {k : Cfg → Result} (h : s.cfg = some c) (ha : s.active = false) :
    onRow i s k = .fault .inactive := by simp [onRow, busOperation, withBlock, h, ha]

theorem onRow_overlap {i : Instr} {k : Cfg → Result} (h : s.cfg = some c) (ha : s.active = true)
    (hf : s.busFlight ≠ none) : onRow i s k = .refused .busOverlap := by
  simp [onRow, busOperation, withBlock, h, ha, Option.isSome_iff_ne_none.2 hf]

/-- Where an operation of the HOST stops before it does anything: no block, another in flight. -/
theorem hostOperation_noBlock {k : Cfg → Result} (h : s.cfg = none) : hostOperation s k = .fault .noBlock := by
  simp [hostOperation, withBlock, h]

theorem hostOperation_overlap {k : Cfg → Result} (h : s.cfg = some c) (hf : s.hostFlight ≠ none) :
    hostOperation s k = .refused .hostOverlap := by
  simp [hostOperation, withBlock, h, Option.isSome_iff_ne_none.2 hf]

theorem withBlock_next {k : Cfg → Result} (h : withBlock s k = .next t) : ∃ c, s.cfg = some c ∧ k c = .next t := by
  simp only [withBlock] at h
  split at h
  · cases h
  · exact ⟨_, ‹_›, h⟩

theorem withBlock_some {k : Cfg → Result} (h : s.cfg = some c) : withBlock s k = k c := by simp [withBlock, h]

@[simp] theorem orOutside_some (s : State) : orOutside (some s) = .next s := rfl

@[simp] theorem orOutside_none : orOutside none = .fault .outsideBuffer := rfl

theorem orOutside_next {o : Option State} (h : orOutside o = .next t) : o = some t := by
  cases o with
  | none => cases h
  | some u => cases h; rfl

end Enables

section Registers

variable {s t : State} {c : Cfg} {a : Addr} {v : Value}

/-- The bytes of an in-range register lie inside the buffer (R25, R27, R40). -/
theorem byteOffset_lt (h : inRange c a = true) {j : Nat} (hj : j < c.rw.bytes) : byteOffset c a j < c.bufSize := by
  have ha : a.toNat < c.n := by simpa [inRange] using h
  calc byteOffset c a j < a.toNat * c.rw.bytes + c.rw.bytes := by simp only [byteOffset]; omega
    _ = (a.toNat + 1) * c.rw.bytes := by rw [Nat.succ_mul]
    _ ≤ c.bufSize := Nat.mul_le_mul_right _ ha

/-- The invariant of a state that has a block. -/
theorem StateInv.block (h : StateInv s) (hc : s.cfg = some c) : BlockInv c s := by simpa [StateInv, hc] using h

theorem BlockInv.mem (hs : BlockInv c s) {k : Nat} (hk : k < c.bufSize) : k ∈ s.buf.map Prod.fst := by
  rw [hs.buffer]; exact List.mem_range.2 hk

/-- Under the invariant every register read gives RW bytes: the register's, or zeros out of range (R27). -/
theorem loadRegister_exists (hs : BlockInv c s) (a : Addr) :
    ∃ bs, loadRegister c s a = some bs ∧ bs.length = c.rw.bytes ∧
      (inRange c a = true → ∀ j < c.rw.bytes, bs[j]? = s.buf.read (byteOffset c a j)) ∧
      (inRange c a = false → bs = zeros c.rw.bytes) := by
  by_cases h : inRange c a = true
  · obtain ⟨bs, hbs⟩ := Memory.readBytes_isSome (m := s.buf) (off := byteOffset c a 0) (n := c.rw.bytes)
      fun j hj => hs.mem (by simpa [byteOffset] using byteOffset_lt h hj)
    obtain ⟨hl, hr⟩ := Memory.readBytes_spec hbs
    exact ⟨bs, by simp [loadRegister, h, hbs], hl, fun _ j hj => by simpa [byteOffset] using hr j hj,
      fun h' => absurd h (by simp [h'])⟩
  · have h' : inRange c a = false := by simpa using h
    exact ⟨zeros c.rw.bytes, by simp [loadRegister, h'], by simp, fun e => absurd e h, fun _ => rfl⟩

/-- A register write changes the buffer only, keeps its offsets, and stores exactly the register's bytes (R25, R26, R44). -/
theorem storeRegister_some (h : storeRegister c s a v = some t) :
    t = s.setBuf t.buf ∧ t.buf.map Prod.fst = s.buf.map Prod.fst ∧
      (inRange c a = false → t.buf = s.buf) ∧
      (inRange c a = true → ∀ i, t.buf.read i =
        if byteOffset c a 0 ≤ i ∧ i < byteOffset c a 0 + c.rw.bytes then (valueBytes c v)[i - byteOffset c a 0]?
        else s.buf.read i) := by
  simp only [storeRegister] at h
  split at h
  · rename_i hr
    split at h
    · rename_i m hm
      cases h
      exact ⟨rfl, Memory.writeBytes_keys hm, fun h' => absurd hr (by simp [h']),
        fun _ i => by simpa using Memory.read_writeBytes hm i⟩
    · cases h
  · rename_i hr
    cases h
    exact ⟨rfl, rfl, fun _ => rfl, fun h' => absurd h' hr⟩

/-- The same, byte by byte: register a holds the value, every other byte of the buffer reads as before (R26, R44). -/
theorem storeRegister_holds (h : storeRegister c s a v = some t) (hr : inRange c a = true) :
    HoldsValue c a v t.buf ∧ SameOutside c a s.buf t.buf := by
  obtain ⟨-, -, -, h4⟩ := storeRegister_some h
  have off : ∀ j, byteOffset c a j = byteOffset c a 0 + j := fun j => by simp [byteOffset]
  constructor
  · intro j hj
    rw [h4 hr, off j, if_pos (by omega), Nat.add_sub_cancel_left, valueBytes_getElem? _ _ hj]
  · intro k hk
    rw [h4 hr, if_neg]
    rintro ⟨h1, h2⟩
    exact hk (k - byteOffset c a 0) (by omega) (by rw [off]; omega)

/-- Under the invariant every register write succeeds. -/
theorem storeRegister_exists (hs : BlockInv c s) (a : Addr) (v : Value) : ∃ t, storeRegister c s a v = some t := by
  by_cases h : inRange c a = true
  · obtain ⟨m, hm⟩ := Memory.writeBytes_isSome (m := s.buf) (off := byteOffset c a 0) (bs := valueBytes c v)
      fun j hj => hs.mem (by simpa [byteOffset] using byteOffset_lt h (by simpa using hj))
    exact ⟨s.setBuf m, by simp [storeRegister, h, hm]⟩
  · exact ⟨s, by simp [storeRegister, h]⟩

/-- The flag event: bit a is set exactly when a < N and a < 32, every other bit stays (R31, R83). -/
theorem notify_cf (c : Cfg) (a : Addr) (s : State) (i : Nat) :
    (notify c a s).cf.getLsbD i = (s.cf.getLsbD i || decide (i = a.toNat ∧ a.toNat < c.n ∧ a.toNat < 32)) := by
  by_cases h1 : a.toNat < c.n
  · by_cases h2 : a.toNat < 32
    · simp [notify, inRange, notifyFlag, flagSlots, h1, h2, setFlag_getLsbD]
    · simp [notify, inRange, notifyFlag, flagSlots, h1, h2]
  · simp [notify, inRange, h1]

/-- The flag event writes CF only. -/
theorem notify_eq (c : Cfg) (a : Addr) (s : State) : notify c a s = s.setCf (notify c a s).cf := by
  simp only [notify]; split <;> rfl

/-- Under the invariant a WRITE has its effect (R83, R84). -/
theorem writeRegister_effect (hs : BlockInv c s) (a : Addr) (v : Value) :
    ∃ t, writeRegister c a v s = .next t ∧ WriteEffect c a v s t := by
  obtain ⟨u, hu⟩ := storeRegister_exists hs a v
  obtain ⟨h1, -, h3, -⟩ := storeRegister_some hu
  refine ⟨notify c a u, by simp [writeRegister, hu], fun hr => ?_, fun hr => ?_⟩
  · have hb : (notify c a u).buf = u.buf := by rw [notify_eq]; rfl
    obtain ⟨hv, ho⟩ := storeRegister_holds hu (by simpa [inRange] using hr)
    refine ⟨by rw [notify_eq, h1]; rfl, hb ▸ hv, hb ▸ ho, fun i hi => ?_⟩
    rw [notify_cf, h1, State.setBuf_cf]
    by_cases hia : i = a.toNat
    · subst hia; simp [hr, hi]
    · simp [hia]
  · have hr' : inRange c a = false := by simpa [inRange] using hr
    have : u = s := by rw [h1, h3 hr']; rfl
    simp [notify, hr', this]

/-- Under the invariant a SET has its effect (R103). -/
theorem storeRegister_effect (hs : BlockInv c s) (a : Addr) (d : Value) :
    ∃ t, storeRegister c s a d = some t ∧ SetEffect c a d s t := by
  obtain ⟨u, hu⟩ := storeRegister_exists hs a d
  obtain ⟨h1, -, h3, -⟩ := storeRegister_some hu
  refine ⟨u, hu, fun hr => ?_, fun hr => ?_⟩
  · obtain ⟨hv, ho⟩ := storeRegister_holds hu (by simpa [inRange] using hr)
    exact ⟨h1, hv, ho⟩
  · rw [h1, h3 (by simpa [inRange] using hr)]; rfl

/-- Under the invariant a TX_REQUEST has its effect (R86). -/
theorem respond_effect (hs : BlockInv c s) : ∃ t, respond c s = .next t ∧ RespondEffect c s t := by
  obtain ⟨bs, h1, h2, h3, h4⟩ := loadRegister_exists hs s.pra
  refine ⟨s.setResponse bs, by simp [respond, h1], bs, rfl, fun hr => ?_, fun hr => h4 (by simpa [inRange] using hr)⟩
  exact ⟨bs, ⟨h2, h3 (by simpa [inRange] using hr)⟩, by rw [← h2, leEncode_leNat]⟩

/-- DRAIN's two cases (R104). -/
theorem drainFlag_cases (s : State) :
    (∃ i, i < 32 ∧ s.cf.getLsbD i = true ∧ (∀ j < i, s.cf.getLsbD j = false) ∧
      drainFlag s = (s.setCf (clearFlag s.cf i)).setResult (.drained true (BitVec.ofNat 5 i))) ∨
    (s.cf = 0 ∧ drainFlag s = (s.setResult (.drained false (Config.freeIdx s.draws))).nextDraw) := by
  rcases lowestSet_spec s.cf with ⟨i, hi, h₁, h₂, h₃⟩ | ⟨hn, h0⟩
  · exact .inl ⟨i, h₁, h₂, h₃, by simp [drainFlag, hi]⟩
  · exact .inr ⟨h0, by simp [drainFlag, hn]⟩

end Registers

section Events

variable {s t : State} {c : Cfg}

/-- The environment's choice picks one of the bytes still to do, and leaves the others. -/
theorem pick_some {todo rest : List Nat} {j k : Nat} (h : pick todo j = some (k, rest)) :
    k ∈ todo ∧ ∃ i, i < todo.length ∧ todo[i]? = some k ∧ rest = todo.eraseIdx i := by
  simp only [pick] at h
  split at h
  · rename_i k' hk
    cases h
    obtain ⟨hlt, -⟩ := List.getElem?_eq_some_iff.1 hk
    exact ⟨List.mem_of_getElem? hk, _, hlt, hk, rfl⟩
  · cases h

/-- There is a choice exactly while some byte is still to do. -/
theorem pick_none {todo : List Nat} {j : Nat} : pick todo j = none ↔ todo = [] := by
  constructor
  · intro h
    by_contra hne
    have hlt : j % todo.length < todo.length := Nat.mod_lt _ (List.length_pos_iff.2 hne)
    simp [pick, List.getElem?_eq_getElem hlt] at h
  · rintro rfl; rfl

/-- Picking shortens the list by one. -/
theorem pick_length {todo rest : List Nat} {j k : Nat} (h : pick todo j = some (k, rest)) :
    rest.length + 1 = todo.length := by
  obtain ⟨-, i, hi, -, rfl⟩ := pick_some h
  rw [List.length_eraseIdx_of_lt hi]; omega

/-- One store event changes one byte of the buffer and nothing else. -/
theorem storeByte_some {x : Access} {k : Nat} (h : storeByte c x k s = some t) :
    t = s.setBuf t.buf ∧ t.buf.map Prod.fst = s.buf.map Prod.fst ∧
      (∃ b, x.data[k]? = some b ∧ ∀ i, t.buf.read i = if i = byteOffset c x.addr k then some b else s.buf.read i) := by
  simp only [storeByte] at h
  split at h
  · rename_i b hb
    split at h
    · rename_i m hm
      cases h
      exact ⟨rfl, Memory.write_keys hm, b, hb, fun i => Memory.read_write hm i⟩
    · cases h
  · cases h

/-- One read event takes the byte the buffer holds now. -/
theorem loadByte_some {x : Access} {k : Nat} {bs : List Byte} (h : loadByte c x k s = some bs) :
    ∃ b, s.buf.read (byteOffset c x.addr k) = some b ∧ bs = x.data.set k b := by
  simp only [loadByte] at h
  split at h
  · exact ⟨_, ‹_›, by cases h; rfl⟩
  · cases h

/-- Under the invariant a byte still to be stored can be stored. -/
theorem storeByte_exists (hs : BlockInv c s) {x : Access} (hx : x.ok c) {k : Nat} (hk : k ∈ x.todo) :
    ∃ t, storeByte c x k s = some t := by
  have hr : inRange c x.addr = true := by
    by_contra h; simp [hx.2.2 (by simpa using h)] at hk
  have hlt : k < c.rw.bytes := hx.2.1.2 k hk
  obtain ⟨m, hm⟩ := Option.isSome_iff_exists.1
    ((Memory.write_isSome_iff s.buf (byteOffset c x.addr k) (x.data[k]'(hx.1 ▸ hlt))).2 (hs.mem (byteOffset_lt hr hlt)))
  exact ⟨s.setBuf m, by simp [storeByte, List.getElem?_eq_getElem (hx.1 ▸ hlt), hm]⟩

/-- Under the invariant a byte still to be read can be read. -/
theorem loadByte_exists (hs : BlockInv c s) {x : Access} (hx : x.ok c) {k : Nat} (hk : k ∈ x.todo) :
    ∃ bs, loadByte c x k s = some bs := by
  have hr : inRange c x.addr = true := by
    by_contra h; simp [hx.2.2 (by simpa using h)] at hk
  obtain ⟨b, hb⟩ := Option.isSome_iff_exists.1
    ((Memory.read_isSome_iff s.buf (byteOffset c x.addr k)).2 (hs.mem (byteOffset_lt hr (hx.2.1.2 k hk))))
  exact ⟨x.data.set k b, by simp [loadByte, hb]⟩

/-- What one event of the BUS can do (R47, R48, R51). -/
theorem busEvent_next {j : Nat} (h : busEvent j s = .next t) :
    (s.busFlight = none ∧ t = s) ∨
    (∃ c x k rest u, s.cfg = some c ∧ s.busFlight = some (.write x) ∧ pick x.todo j = some (k, rest) ∧
      storeByte c x k s = some u ∧ t = u.setBusFlight (some (.write (x.advance rest)))) ∨
    (∃ c x, s.cfg = some c ∧ s.busFlight = some (.write x) ∧ x.todo = [] ∧
      t = (notify c x.addr s).setBusFlight none) ∨
    (∃ c x k rest bs, s.cfg = some c ∧ s.busFlight = some (.respond x) ∧ pick x.todo j = some (k, rest) ∧
      loadByte c x k s = some bs ∧ t = s.setBusFlight (some (.respond ⟨x.addr, bs, rest⟩))) ∨
    (∃ x, s.busFlight = some (.respond x) ∧ x.todo = [] ∧ t = (s.setResponse x.data).setBusFlight none) := by
  simp only [busEvent] at h
  split at h
  · cases h; exact .inl ⟨‹_›, rfl⟩
  · rename_i x hx
    obtain ⟨c, hc, h⟩ := withBlock_next h
    simp only [busWriteEvent] at h
    split at h
    · rename_i k rest hp
      obtain ⟨u, hu, rfl⟩ := Option.map_eq_some_iff.1 (orOutside_next h)
      exact .inr (.inl ⟨c, x, k, rest, u, hc, hx, hp, hu, rfl⟩)
    · cases h; exact .inr (.inr (.inl ⟨c, x, hc, hx, pick_none.1 ‹_›, rfl⟩))
  · rename_i x hx
    obtain ⟨c, hc, h⟩ := withBlock_next h
    simp only [busRespondEvent] at h
    split at h
    · rename_i k rest hp
      obtain ⟨u, hu, rfl⟩ := Option.map_eq_some_iff.1 (orOutside_next h)
      exact .inr (.inr (.inr (.inl ⟨c, x, k, rest, u, hc, hx, hp, hu, rfl⟩)))
    · cases h; exact .inr (.inr (.inr (.inr ⟨x, hx, pick_none.1 ‹_›, rfl⟩)))

/-- What one event of the HOST can do (R47, R48). -/
theorem hostEvent_next {j : Nat} (h : hostEvent j s = .next t) :
    (s.hostFlight = none ∧ t = s) ∨
    (∃ c x k rest bs, s.cfg = some c ∧ s.hostFlight = some (.get x) ∧ pick x.todo j = some (k, rest) ∧
      loadByte c x k s = some bs ∧ t = s.setHostFlight (some (.get ⟨x.addr, bs, rest⟩))) ∨
    (∃ x, s.hostFlight = some (.get x) ∧ x.todo = [] ∧
      t = (s.setResult (.value (hostValue x.data))).setHostFlight none) ∨
    (∃ c x k rest u, s.cfg = some c ∧ s.hostFlight = some (.set x) ∧ pick x.todo j = some (k, rest) ∧
      storeByte c x k s = some u ∧ t = u.setHostFlight (some (.set (x.advance rest)))) ∨
    (∃ x, s.hostFlight = some (.set x) ∧ x.todo = [] ∧ t = s.setHostFlight none) := by
  simp only [hostEvent] at h
  split at h
  · cases h; exact .inl ⟨‹_›, rfl⟩
  · rename_i x hx
    obtain ⟨c, hc, h⟩ := withBlock_next h
    simp only [hostGetEvent] at h
    split at h
    · rename_i k rest hp
      obtain ⟨u, hu, rfl⟩ := Option.map_eq_some_iff.1 (orOutside_next h)
      exact .inr (.inl ⟨c, x, k, rest, u, hc, hx, hp, hu, rfl⟩)
    · cases h; exact .inr (.inr (.inl ⟨x, hx, pick_none.1 ‹_›, rfl⟩))
  · rename_i x hx
    obtain ⟨c, hc, h⟩ := withBlock_next h
    simp only [hostSetEvent] at h
    split at h
    · rename_i k rest hp
      obtain ⟨u, hu, rfl⟩ := Option.map_eq_some_iff.1 (orOutside_next h)
      exact .inr (.inr (.inr (.inl ⟨c, x, k, rest, u, hc, hx, hp, hu, rfl⟩)))
    · cases h; exact .inr (.inr (.inr (.inr ⟨x, hx, pick_none.1 ‹_›, rfl⟩)))

end Events

section Turns

variable {s t : State}

/-- Presenting an operation runs the instruction it decodes to. -/
theorem present_next {run : Instr → State → Result} {o : Operation} (h : present run o s = .next t) :
    ∃ i, decode s.cfg o = .instr i ∧ run i s = .next t := by
  simp only [present] at h
  split at h
  · exact ⟨_, ‹_›, h⟩
  · cases h
  · cases h

theorem present_instr {run : Instr → State → Result} {o : Operation} {i : Instr} (h : decode s.cfg o = .instr i) :
    present run o s = run i s := by simp [present, h]

/-- What starting an operation can do: leave it in flight with its byte events to come, or perform it (log 14). -/
theorem startInstr_next {i : Instr} (h : startInstr i s = .next t) :
    (∃ c a v, BusReady c s ∧ i.inConfig c = true ∧ writeOperands i = some (a, v) ∧
      t = s.setBusFlight (some (.write (Access.writing c a v)))) ∨
    (∃ c, BusReady c s ∧ i.inConfig c = true ∧ (i = .respR1 ∨ i = .respR2 ∨ i = .respR4) ∧
      t = s.setBusFlight (some (.respond (Access.reading c s.pra)))) ∨
    (∃ c a, HostReady c s ∧ i = .get a ∧ t = s.setHostFlight (some (.get (Access.reading c a)))) ∨
    (∃ c a d, HostReady c s ∧ i = .set a d ∧ t = s.setHostFlight (some (.set (Access.writing c a d)))) ∨
    exec i s = .next t := by
  have write : ∀ a v, writeOperands i = some (a, v) → startWrite i a v s = .next t →
      ∃ c a v, BusReady c s ∧ i.inConfig c = true ∧ writeOperands i = some (a, v) ∧
        t = s.setBusFlight (some (.write (Access.writing c a v))) := fun a v hw h => by
    obtain ⟨c, hr, hi, hk⟩ := onRow_next h
    cases hk; exact ⟨c, a, v, hr, hi, hw, rfl⟩
  have resp : (i = .respR1 ∨ i = .respR2 ∨ i = .respR4) → startRespond i s = .next t →
      ∃ c, BusReady c s ∧ i.inConfig c = true ∧ (i = .respR1 ∨ i = .respR2 ∨ i = .respR4) ∧
        t = s.setBusFlight (some (.respond (Access.reading c s.pra))) := fun hw h => by
    obtain ⟨c, hr, hi, hk⟩ := onRow_next h
    cases hk; exact ⟨c, hr, hi, hw, rfl⟩
  cases i with
  | writeA1R1 a v => exact .inl (write _ _ rfl h)
  | writeA1R2 a v => exact .inl (write _ _ rfl h)
  | writeA1R4 a v => exact .inl (write _ _ rfl h)
  | writeA2R1 a v => exact .inl (write _ _ rfl h)
  | writeA2R2 a v => exact .inl (write _ _ rfl h)
  | writeA2R4 a v => exact .inl (write _ _ rfl h)
  | respR1 => exact .inr (.inl (resp (by simp) h))
  | respR2 => exact .inr (.inl (resp (by simp) h))
  | respR4 => exact .inr (.inl (resp (by simp) h))
  | get a =>
    obtain ⟨c, hr, hk⟩ := hostOperation_next h
    cases hk; exact .inr (.inr (.inl ⟨c, a, hr, rfl, rfl⟩))
  | set a d =>
    obtain ⟨c, hr, hk⟩ := hostOperation_next h
    cases hk; exact .inr (.inr (.inr (.inl ⟨c, a, d, hr, rfl, rfl⟩)))
  | selectA1 a => exact .inr (.inr (.inr (.inr h)))
  | selectA2 a => exact .inr (.inr (.inr (.inr h)))
  | ignore b => exact .inr (.inr (.inr (.inr h)))
  | configure n rw aw ba => exact .inr (.inr (.inr (.inr h)))
  | begin => exact .inr (.inr (.inr (.inr h)))
  | drain => exact .inr (.inr (.inr (.inr h)))

/-- Every BUS operation, performed whole or started, first passes the checks of `onRow`. -/
theorem bus_onRow {i : Instr} (h : isBus i = true) (s : State) :
    (∃ k, exec i s = onRow i s k) ∧ ∃ k, startInstr i s = onRow i s k := by
  cases i <;> first | exact ⟨⟨_, rfl⟩, _, rfl⟩ | cases h

/-- Every HOST operation but CONFIGURE, performed whole or started, first passes the checks of `hostOperation`. -/
theorem host_hostOperation {i : Instr} (h : isBus i = false) (hn : ∀ n rw aw ba, i ≠ .configure n rw aw ba) (s : State) :
    (∃ k, exec i s = hostOperation s k) ∧ ∃ k, startInstr i s = hostOperation s k := by
  cases i with
  | configure n rw aw ba => exact absurd rfl (hn n rw aw ba)
  | begin => exact ⟨⟨_, rfl⟩, _, rfl⟩
  | get a => exact ⟨⟨_, rfl⟩, _, rfl⟩
  | set a d => exact ⟨⟨_, rfl⟩, _, rfl⟩
  | drain => exact ⟨⟨_, rfl⟩, _, rfl⟩
  | _ => cases h

/-- What performing an operation can do, one case for each kind of operation (R82 to R86, R100 to R104). -/
theorem exec_next {i : Instr} (h : exec i s = .next t) :
    (∃ c a, BusReady c s ∧ i.inConfig c = true ∧ selectOperand i = some a ∧ t = s.setPra a) ∨
    (∃ c a v u, BusReady c s ∧ i.inConfig c = true ∧ writeOperands i = some (a, v) ∧ storeRegister c s a v = some u ∧
      t = notify c a u) ∨
    (∃ c b, BusReady c s ∧ i.inConfig c = true ∧ i = .ignore b ∧ t = s) ∨
    (∃ c bs, BusReady c s ∧ i.inConfig c = true ∧ (i = .respR1 ∨ i = .respR2 ∨ i = .respR4) ∧
      loadRegister c s s.pra = some bs ∧ t = s.setResponse bs) ∨
    (∃ c n rw aw ba, s.cfg = none ∧ cfgOf n rw aw ba = some c ∧ i = .configure n rw aw ba ∧ t = s.configured c) ∨
    (∃ c, HostReady c s ∧ i = .begin ∧ t = s.setActive true) ∨
    (∃ c a bs, HostReady c s ∧ i = .get a ∧ loadRegister c s a = some bs ∧
      t = s.setResult (.value (hostValue bs))) ∨
    (∃ c a d, HostReady c s ∧ i = .set a d ∧ storeRegister c s a d = some t) ∨
    (∃ c, HostReady c s ∧ i = .drain ∧ t = drainFlag s) := by
  have sel : ∀ a, selectOperand i = some a → onRow i s (fun _ => selectAddress a s) = .next t →
      ∃ c a, BusReady c s ∧ i.inConfig c = true ∧ selectOperand i = some a ∧ t = s.setPra a := fun a hw h => by
    obtain ⟨c, hr, hi, hk⟩ := onRow_next h
    cases hk; exact ⟨c, a, hr, hi, hw, rfl⟩
  have write : ∀ a v, writeOperands i = some (a, v) → onRow i s (fun c => writeRegister c a v s) = .next t →
      ∃ c a v u, BusReady c s ∧ i.inConfig c = true ∧ writeOperands i = some (a, v) ∧ storeRegister c s a v = some u ∧
        t = notify c a u := fun a v hw h => by
    obtain ⟨c, hr, hi, hk⟩ := onRow_next h
    obtain ⟨u, hu, rfl⟩ := Option.map_eq_some_iff.1 (orOutside_next hk)
    exact ⟨c, a, v, u, hr, hi, hw, hu, rfl⟩
  have resp : (i = .respR1 ∨ i = .respR2 ∨ i = .respR4) → onRow i s (fun c => respond c s) = .next t →
      ∃ c bs, BusReady c s ∧ i.inConfig c = true ∧ (i = .respR1 ∨ i = .respR2 ∨ i = .respR4) ∧
        loadRegister c s s.pra = some bs ∧ t = s.setResponse bs := fun hw h => by
    obtain ⟨c, hr, hi, hk⟩ := onRow_next h
    obtain ⟨bs, hbs, rfl⟩ := Option.map_eq_some_iff.1 (orOutside_next hk)
    exact ⟨c, bs, hr, hi, hw, hbs, rfl⟩
  cases i with
  | selectA1 a => exact .inl (sel _ rfl h)
  | selectA2 a => exact .inl (sel _ rfl h)
  | writeA1R1 a v => exact .inr (.inl (write _ _ rfl h))
  | writeA1R2 a v => exact .inr (.inl (write _ _ rfl h))
  | writeA1R4 a v => exact .inr (.inl (write _ _ rfl h))
  | writeA2R1 a v => exact .inr (.inl (write _ _ rfl h))
  | writeA2R2 a v => exact .inr (.inl (write _ _ rfl h))
  | writeA2R4 a v => exact .inr (.inl (write _ _ rfl h))
  | ignore b =>
    obtain ⟨c, hr, hi, hk⟩ := onRow_next h
    cases hk; exact .inr (.inr (.inl ⟨c, b, hr, hi, rfl, rfl⟩))
  | respR1 => exact .inr (.inr (.inr (.inl (resp (by simp) h))))
  | respR2 => exact .inr (.inr (.inr (.inl (resp (by simp) h))))
  | respR4 => exact .inr (.inr (.inr (.inl (resp (by simp) h))))
  | configure n rw aw ba =>
    simp only [exec, execConfigure] at h
    split at h
    · cases h
    · rename_i c hc
      split at h
      · cases h
      · cases h
        exact .inr (.inr (.inr (.inr (.inl ⟨c, n, rw, aw, ba, by simpa using ‹¬ s.cfg.isSome = true›, hc, rfl, rfl⟩))))
  | begin =>
    obtain ⟨c, hr, hk⟩ := hostOperation_next h
    cases hk; exact .inr (.inr (.inr (.inr (.inr (.inl ⟨c, hr, rfl, rfl⟩)))))
  | get a =>
    obtain ⟨c, hr, hk⟩ := hostOperation_next h
    obtain ⟨bs, hbs, rfl⟩ := Option.map_eq_some_iff.1 (orOutside_next hk)
    exact .inr (.inr (.inr (.inr (.inr (.inr (.inl ⟨c, a, bs, hr, rfl, hbs, rfl⟩))))))
  | set a d =>
    obtain ⟨c, hr, hk⟩ := hostOperation_next h
    exact .inr (.inr (.inr (.inr (.inr (.inr (.inr (.inl ⟨c, a, d, hr, rfl, orOutside_next hk⟩)))))))
  | drain =>
    obtain ⟨c, hr, hk⟩ := hostOperation_next h
    cases hk; exact .inr (.inr (.inr (.inr (.inr (.inr (.inr (.inr ⟨c, hr, rfl, rfl⟩)))))))

/-- A step takes the next turn off the list and does it. -/
theorem step_cons {tn : Turn} {ts : List Turn} (h : s.turns = tn :: ts) : step s = takeTurn tn (s.setTurns ts) := by
  simp [step, nextTurn, h]

theorem step_nil (h : s.turns = []) : step s = .next s := by simp [step, nextTurn, h]

end Turns

end Sys2Proof.Machine
end

