-- ==== Sys2Proof/Laws/PerInstr.lean ====
section
/-! SUPPORT. Per-instruction facts about the operations as syntax.
-/
namespace Sys2Proof.Laws.FrameLength

/-- The "length_bytes" column of spec/opcode_table.json for the inbound rows; the other rows are no inbound frame. -/
def tableLength : Instr → Option Nat
  | .selectA1 _ => some 1
  | .selectA2 _ => some 2
  | .writeA1R1 _ _ => some 2
  | .writeA1R2 _ _ => some 3
  | .writeA1R4 _ _ => some 5
  | .writeA2R1 _ _ => some 3
  | .writeA2R2 _ _ => some 4
  | .writeA2R4 _ _ => some 6
  | .ignore b => some b.length
  | .respR1 | .respR2 | .respR4 => none
  | .configure _ _ _ _ | .begin | .get _ | .set _ _ | .drain => none

/-- The number of bytes of an inbound frame; none for what is no frame. -/
def frameLength : Operation → Option Nat
  | .rx b => some b.length
  | .tx | .configure _ _ _ _ | .begin | .get _ | .set _ _ | .drain => none

/-- The encoder writes as many bytes as the table gives the row. -/
def Statement (i : Instr) : Prop := frameLength (encode i) = tableLength i

theorem selectA1 (a : BitVec 8) : Statement (.selectA1 a) := by simp [Statement, encode, frameLength, tableLength]

theorem selectA2 (a : BitVec 16) : Statement (.selectA2 a) := by simp [Statement, encode, frameLength, tableLength]

theorem writeA1R1 (a : BitVec 8) (v : BitVec 8) : Statement (.writeA1R1 a v) := by
  simp [Statement, encode, frameLength, tableLength]

theorem writeA1R2 (a : BitVec 8) (v : BitVec 16) : Statement (.writeA1R2 a v) := by
  simp [Statement, encode, frameLength, tableLength]

theorem writeA1R4 (a : BitVec 8) (v : BitVec 32) : Statement (.writeA1R4 a v) := by
  simp [Statement, encode, frameLength, tableLength]

theorem writeA2R1 (a : BitVec 16) (v : BitVec 8) : Statement (.writeA2R1 a v) := by
  simp [Statement, encode, frameLength, tableLength]

theorem writeA2R2 (a : BitVec 16) (v : BitVec 16) : Statement (.writeA2R2 a v) := by
  simp [Statement, encode, frameLength, tableLength]

theorem writeA2R4 (a : BitVec 16) (v : BitVec 32) : Statement (.writeA2R4 a v) := by
  simp [Statement, encode, frameLength, tableLength]

theorem ignore (b : List Byte) : Statement (.ignore b) := rfl

theorem respR1 : Statement .respR1 := rfl

theorem respR2 : Statement .respR2 := rfl

theorem respR4 : Statement .respR4 := rfl

theorem configure (n rw aw busAddr : Nat) : Statement (.configure n rw aw busAddr) := rfl

theorem begin : Statement .begin := rfl

theorem get (a : Addr) : Statement (.get a) := rfl

theorem set (a : Addr) (d : Value) : Statement (.set a d) := rfl

theorem drain : Statement .drain := rfl

end Sys2Proof.Laws.FrameLength
end

