-- ==== Sys2Proof/Tests/Slice0.lean ====
section
/-! SUPPORT. The model's own tests: decode words written out from spec/30_encoding.md and spec/95_test_vectors.md, the
well-formedness checks, one or two steps of every operation, and a witness for the hypotheses of every obligation. The name of
a vector (S1, W2, ...) is that of spec/95_test_vectors.md.
-/
namespace Sys2Proof.Tests

open Sys2Proof Sys2Proof.Machine

/-! The configurations of spec/95_test_vectors.md. -/

def CA : Cfg := ⟨10, .w4, .a2, 0x10#7⟩
def CB : Cfg := ⟨300, .w2, .a2, 0x10#7⟩
def CC : Cfg := ⟨256, .w1, .a1, 0x2A#7⟩
def CD : Cfg := ⟨4, .w2, .a1, 0x08#7⟩
def CE : Cfg := ⟨64, .w4, .a1, 0x10#7⟩
def CG : Cfg := ⟨65536, .w1, .a2, 0x20#7⟩
def CZ : Cfg := ⟨0, .w1, .a1, 0x20#7⟩

/-- An active block of configuration c whose buffer bytes are all 0x00, as any INIT_BUF may be. -/
def blk (c : Cfg) : State :=
  { State.reset with cfg := some c, buf := (List.range c.bufSize).map fun k => (k, 0), active := true }

/-- A field of the next state. -/
def look {α : Type} (f : State → α) : Result → Option α
  | .next t => some (f t)
  | .fault _ => none
  | .refused _ => none

/-- Byte k of the buffer in the next state. -/
def byteAt (k : Nat) (r : Result) : Option Byte := (look (fun t => t.buf.read k) r).getD none

theorem blk_inv (c : Cfg) (h : c.legal = true) : StateInv (blk c) where
  legal := h
  buffer := by simp [blk, Function.comp_def]
  pra := by simp [blk, State.reset]
  flags := by simp [blk, State.reset]
  active := by simp [blk, State.reset]
  bus := by simp [blk, State.reset]
  host := by simp [blk, State.reset]

theorem access_ok (c : Cfg) (a : Addr) (bs : List Byte) (h : bs.length = c.rw.bytes) :
    (⟨a, bs, if inRange c a then List.range c.rw.bytes else []⟩ : Access).ok c := by
  refine ⟨h, ⟨?_, ?_⟩, ?_⟩ <;> by_cases hr : inRange c a = true <;> simp [hr, List.nodup_range]

theorem reading_ok (c : Cfg) (a : Addr) : (Access.reading c a).ok c := access_ok c a _ (zeros_length _)

theorem writing_ok (c : Cfg) (a : Addr) (v : Value) : (Access.writing c a v).ok c := access_ok c a _ (valueBytes_length c v)

/-- A block with operations in flight whose accesses are well formed meets the invariant. -/
theorem blk_flight_inv (c : Cfg) (h : c.legal = true) (f : Option BusFlight) (g : Option HostFlight)
    (hf : ∀ x, f = some x → x.access.ok c) (hg : ∀ x, g = some x → x.access.ok c) :
    StateInv { blk c with busFlight := f, hostFlight := g } where
  legal := h
  buffer := by simp [blk, Function.comp_def]
  pra := by simp [blk, State.reset]
  flags := by simp [blk, State.reset]
  active := by simp [blk]
  bus := hf
  host := hg

/-- The invariant says nothing of the turns presented. -/
theorem inv_setTurns {s : State} (ts : List Turn) (h : StateInv s) : StateInv (s.setTurns ts) := by
  cases hc : s.cfg with
  | none =>
    simp only [StateInv, hc, State.setTurns_cfg] at h ⊢
    exact ⟨h.buf, h.pra, h.cf, h.active, h.busFlight, h.hostFlight⟩
  | some c =>
    simp only [StateInv, hc, State.setTurns_cfg] at h ⊢
    exact ⟨h.legal, h.buffer, h.pra, h.flags, h.active, h.bus, h.host⟩

/-! ## Decoding: words written from the encodings -/

theorem test_decode_selectA1 : decode (some CC) (.rx [0xFF]) = .instr (.selectA1 0xFF#8) := by rfl
theorem test_decode_selectA2 : decode (some CA) (.rx [0x00, 0x01]) = .instr (.selectA2 0x0100#16) := by rfl
theorem test_decode_writeA1R1 : decode (some CC) (.rx [0x07, 0xAB]) = .instr (.writeA1R1 0x07#8 0xAB#8) := by rfl
theorem test_decode_writeA1R2 : decode (some CD) (.rx [0x02, 0x22, 0x11]) = .instr (.writeA1R2 0x02#8 0x1122#16) := by rfl
theorem test_decode_writeA1R4 :
    decode (some CE) (.rx [0x1F, 0x01, 0x02, 0x03, 0x04]) = .instr (.writeA1R4 0x1F#8 0x04030201#32) := by rfl
theorem test_decode_writeA2R1 : decode (some CG) (.rx [0x34, 0x12, 0x7F]) = .instr (.writeA2R1 0x1234#16 0x7F#8) := by rfl
theorem test_decode_writeA2R2 :
    decode (some CB) (.rx [0x28, 0x01, 0x34, 0x12]) = .instr (.writeA2R2 0x0128#16 0x1234#16) := by rfl
theorem test_decode_writeA2R4 :
    decode (some CA) (.rx [0x03, 0x00, 0x78, 0x56, 0x34, 0x12]) = .instr (.writeA2R4 0x0003#16 0x12345678#32) := by rfl
theorem test_decode_ignore : decode (some CA) (.rx [0x03, 0x00, 0x78]) = .instr (.ignore [0x03, 0x00, 0x78]) := by rfl
theorem test_decode_ignore_empty : decode (some CA) (.rx []) = .instr (.ignore []) := by rfl
theorem test_decode_resp :
    decode (some CC) .tx = .instr .respR1 ∧ decode (some CD) .tx = .instr .respR2 ∧
      decode (some CA) .tx = .instr .respR4 := ⟨rfl, rfl, rfl⟩
theorem test_decode_host :
    decode (some CA) .begin = .instr .begin ∧ decode (some CA) (.get 3) = .instr (.get 3) ∧
      decode (some CA) (.set 3 7) = .instr (.set 3 7) ∧ decode (some CA) .drain = .instr .drain := ⟨rfl, rfl, rfl, rfl⟩
/-- K1, K2, K4, K9: legal configurations. -/
theorem test_decode_configure :
    decode none (.configure 10 none none 0x10) = .instr (.configure 10 4 2 0x10) ∧
      decode none (.configure 256 (some 1) (some 1) 0x20) = .instr (.configure 256 1 1 0x20) ∧
      decode none (.configure 65536 (some 1) (some 2) 0x20) = .instr (.configure 65536 1 2 0x20) ∧
      decode none (.configure 0 (some 1) (some 1) 0x20) = .instr (.configure 0 1 1 0x20) := ⟨rfl, rfl, rfl, rfl⟩
/-- K3, K5, K6, K7, K8: illegal configurations. -/
theorem test_decode_illegal :
    decode none (.configure 257 (some 1) (some 1) 0x20) = .reject .illegalConfiguration ∧
      decode none (.configure 65537 (some 1) (some 2) 0x20) = .reject .illegalConfiguration ∧
      decode none (.configure 4 (some 3) (some 1) 0x20) = .reject .illegalConfiguration ∧
      decode none (.configure 4 (some 1) (some 3) 0x20) = .reject .illegalConfiguration ∧
      decode none (.configure 4 (some 1) (some 1) 0x80) = .reject .illegalConfiguration := ⟨rfl, rfl, rfl, rfl, rfl⟩
theorem test_decode_noBlock : decode none (.rx [0x05, 0x00]) = .reject .noBlock := by rfl
theorem test_encode_writeA2R4 :
    encode (.writeA2R4 0x0003#16 0x12345678#32) = .rx [0x03, 0x00, 0x78, 0x56, 0x34, 0x12] := by rfl
/-- I9 (C4): the initiator's write is ignored by a block with AW = 1. -/
theorem test_decode_iwrite : decode (some CE) (.iwrite 1 7) = .instr (.ignore [0x01, 0x00, 0x07, 0x00, 0x00, 0x00]) := by rfl
/-- The table's word of WRITE_A2_R4, byte 0 in bits 7..0 (log 2). -/
theorem test_tableWord : decodeTableWord 48 0x123456780003 = some (.writeA2R4 0x0003#16 0x12345678#32) := by rfl

/-! ## Well-formedness: an ill-formed term for each check -/

theorem test_wf_select : (Instr.selectA1 5).inConfig CA = false ∧ (Instr.selectA2 5).inConfig CC = false := ⟨rfl, rfl⟩
theorem test_wf_write_a1 :
    (Instr.writeA1R1 0 0).inConfig CD = false ∧ (Instr.writeA1R2 0 0).inConfig CB = false ∧
      (Instr.writeA1R4 0 0).inConfig CA = false := ⟨rfl, rfl, rfl⟩
theorem test_wf_write_a2 :
    (Instr.writeA2R1 0 0).inConfig CC = false ∧ (Instr.writeA2R2 0 0).inConfig CA = false ∧
      (Instr.writeA2R4 0 0).inConfig CE = false := ⟨rfl, rfl, rfl⟩
theorem test_wf_ignore :
    (Instr.ignore [1, 0]).inConfig CA = false ∧ (Instr.ignore [1, 0, 0, 0, 0, 0]).inConfig CA = false := ⟨rfl, rfl⟩
theorem test_wf_resp :
    Instr.respR1.inConfig CA = false ∧ Instr.respR2.inConfig CA = false ∧ Instr.respR4.inConfig CC = false :=
  ⟨rfl, rfl, rfl⟩
theorem test_wf_configure :
    wellFormed none (.configure 257 1 1 0) = false ∧ wellFormed none (.configure 4 3 1 0) = false ∧
      wellFormed none (.configure 4 1 3 0) = false ∧ wellFormed none (.configure 4 1 1 128) = false := ⟨rfl, rfl, rfl, rfl⟩
theorem test_wf_noBlock : wellFormed none .drain = false := rfl

/-! ## One step of each operation -/

/-- An address that is out of range is selected as it is (R82; S5 and S2). -/
theorem test_selectA1 : look State.pra (exec (.selectA1 0xFF) (blk CD)) = some 0x00FF#16 := by rfl
theorem test_selectA2 : look State.pra (exec (.selectA2 0xFFFF) (blk CA)) = some 0xFFFF#16 := by rfl

/-- A block with N = 33, one register past the flags. -/
def c33 (rw : RegWidth) (aw : AddrWidth) : Cfg := ⟨33, rw, aw, 0x10#7⟩

/-- W9, on a block with N = 33: the byte is stored and the flag set. -/
theorem test_writeA1R1 :
    byteAt 7 (exec (.writeA1R1 0x07 0xAB) (blk (c33 .w1 .a1))) = some 0xAB ∧
      look State.cf (exec (.writeA1R1 0x07 0xAB) (blk (c33 .w1 .a1))) = some 0x80#32 := ⟨rfl, rfl⟩
/-- W11, and W10 (A < 32 but out of range). -/
theorem test_writeA1R2 :
    byteAt 5 (exec (.writeA1R2 0x02 0x1122) (blk CD)) = some 0x11 ∧
      look State.cf (exec (.writeA1R2 0x02 0x1122) (blk CD)) = some 0x4#32 := ⟨rfl, rfl⟩
theorem test_writeA1R2_outOfRange : exec (.writeA1R2 0x10 0x1122) (blk CD) = .next (blk CD) := by rfl
/-- W12 and W13. -/
theorem test_writeA1R4 :
    byteAt 124 (exec (.writeA1R4 0x1F 0x04030201) (blk (c33 .w4 .a1))) = some 0x01 ∧
      look State.cf (exec (.writeA1R4 0x1F 0x04030201) (blk (c33 .w4 .a1))) = some 0x80000000#32 := by decide +kernel
theorem test_writeA1R4_noFlag :
    byteAt 131 (exec (.writeA1R4 0x20 0x04030201) (blk (c33 .w4 .a1))) = some 0x04 ∧
      look State.cf (exec (.writeA1R4 0x20 0x04030201) (blk (c33 .w4 .a1))) = some 0 := by decide +kernel
theorem test_writeA2R1 :
    byteAt 32 (exec (.writeA2R1 0x20 0x7F) (blk (c33 .w1 .a2))) = some 0x7F ∧
      look State.cf (exec (.writeA2R1 0x20 0x7F) (blk (c33 .w1 .a2))) = some 0 := ⟨rfl, rfl⟩
/-- W6 and W8. -/
theorem test_writeA2R2 :
    byteAt 63 (exec (.writeA2R2 0x1F 0xABCD) (blk (c33 .w2 .a2))) = some 0xAB ∧
      look State.cf (exec (.writeA2R2 0x1F 0xABCD) (blk (c33 .w2 .a2))) = some 0x80000000#32 := ⟨rfl, rfl⟩
/-- W4 and W3. -/
theorem test_writeA2R4 :
    byteAt 36 (exec (.writeA2R4 9 0xDEADBEEF) (blk CA)) = some 0xEF ∧
      look State.cf (exec (.writeA2R4 9 0xDEADBEEF) (blk CA)) = some 0x200#32 := ⟨rfl, rfl⟩
theorem test_writeA2R4_outOfRange : exec (.writeA2R4 10 0xFFFFFFFF) (blk CA) = .next (blk CA) := by rfl
/-- I4. -/
theorem test_ignore :
    exec (.ignore [0x01, 0x00, 0x07, 0x00, 0x00, 0x00, 0x00]) (blk CA) = .next (blk CA) := by rfl

/-- T1: REG[3] = 0x12345678, PRA = 3. -/
def t1 : State :=
  { blk CA with
    buf := (List.range 12).map (fun k => (k, 0)) ++ [(12, 0x78), (13, 0x56), (14, 0x34), (15, 0x12)] ++
      (List.range 24).map fun k => (k + 16, 0)
    pra := 3 }

theorem test_respR4 : look State.response (exec .respR4 t1) = some (some [0x78, 0x56, 0x34, 0x12]) := by rfl
/-- T3: PRA = N. -/
theorem test_respR4_outOfRange : look State.response (exec .respR4 (t1.setPra 10)) = some (some [0, 0, 0, 0]) := by rfl
/-- T8: N = 0. -/
theorem test_respR1 : look State.response (exec .respR1 ((blk CZ).setPra 7)) = some (some [0]) := by rfl
/-- T5: REG[2] = 0x1122, PRA = 2. -/
theorem test_respR2 :
    look State.response (exec .respR2 { blk CD with
      buf := [(0, 0), (1, 0), (2, 0), (3, 0), (4, 0x22), (5, 0x11), (6, 0), (7, 0)], pra := 2 }) =
      some (some [0x22, 0x11]) := by rfl
/-- B3. -/
theorem test_inactive : exec .respR4 (t1.setActive false) = .fault .inactive := by rfl
theorem test_inactive_started : startInstr (.selectA2 5) (t1.setActive false) = .fault .inactive := by rfl

/-- K1 and B1. -/
theorem test_configure :
    look State.cfg (exec (.configure 10 4 2 0x10) State.reset) = some (some CA) ∧
      look (fun t => t.buf.length) (exec (.configure 10 4 2 0x10) State.reset) = some 40 := ⟨rfl, rfl⟩
theorem test_configure_illegal : exec (.configure 257 1 1 0x20) State.reset = .refused .illegalConfiguration := by rfl
theorem test_begin : exec .begin ((blk CA).setActive false) = .next (blk CA) := by rfl
/-- G3 and G2. -/
theorem test_get : look State.result (exec (.get 3) t1) = some (some (.value 0x12345678)) := by rfl
theorem test_get_outOfRange : look State.result (exec (.get 10) t1) = some (some (.value 0)) := by rfl
/-- SE3, on a block with N = 33, and SE5: the flag stays. -/
theorem test_set : byteAt 7 (exec (.set 7 0x1FF) (blk (c33 .w1 .a1))) = some 0xFF := by rfl
theorem test_set_keepsFlags : look State.cf (exec (.set 1 0) ((blk CA).setCf 0x2)) = some 0x2#32 := by rfl
/-- D2's first drain, and D3. -/
theorem test_drain :
    look State.result (exec .drain ((blk CA).setCf 0x224)) = some (some (.drained true 2)) ∧
      look State.cf (exec .drain ((blk CA).setCf 0x224)) = some 0x220#32 := ⟨rfl, rfl⟩
theorem test_drain_empty : look State.cf (exec .drain (blk CA)) = some 0 := by rfl

/-- The host's table word is run by the very next step. -/
theorem test_fetch : look State.pra (step (State.reset.withFetchWord 16 5)) = some 5#16 := by rfl
/-- X3: the DRAIN comes between the last byte and the flag event of a WRITE. -/
theorem test_events :
    look State.cf (runTurns [.start (.rx [0x01, 0x22, 0x11]), .busEvent 1, .busEvent 0, .op .drain, .busEvent 0] (blk CD)) =
      some 0x2#32 := by rfl
/-- X1: a torn GET, on a two-byte register. -/
theorem test_torn :
    look State.result (runTurns [.start (.rx [0x01, 0x22, 0x11]), .start (.get 1), .busEvent 1, .hostEvent 0, .hostEvent 0,
      .hostEvent 0] (blk CD)) = some (some (.value 0x1100)) := by rfl

/-! ## Witnesses: concrete states and operands that meet the hypotheses of each obligation -/

/-- A block whose flags are x. -/
def flagged (c : Cfg) (x : BitVec 32) : State := (blk c).setCf x

theorem flagged_inv (c : Cfg) (x : BitVec 32) (h : c.legal = true) (hx : ∀ i < 32, x.getLsbD i = true → i < c.n) :
    StateInv (flagged c x) where
  legal := h
  buffer := by simp [flagged, blk, Function.comp_def]
  pra := by simp [flagged, blk, State.reset]
  flags := fun i hi => hx i (BitVec.lt_of_getLsbD hi) hi
  active := by simp [flagged, blk, State.reset]
  bus := by simp [flagged, blk, State.reset]
  host := by simp [flagged, blk, State.reset]

/-- CD with a BUS and a HOST operation in flight on one register. -/
def racing (f : BusFlight) (g : HostFlight) : State := { blk CD with busFlight := some f, hostFlight := some g }

theorem racing_inv (f : BusFlight) (g : HostFlight) (hf : f.access.ok CD) (hg : g.access.ok CD) : StateInv (racing f g) :=
  blk_flight_inv CD rfl (some f) (some g) (fun x h => by cases h; exact hf) fun x h => by cases h; exact hg

theorem witness_DecodeOfEncode :
    wellFormed (some CA) (.writeA2R4 0xFFFF 0xFFFFFFFF) = true ∧ wellFormed none (.configure 65536 4 2 127) = true :=
  ⟨rfl, rfl⟩

theorem witness_FrameClassByLength :
    [5, 0].length = CA.aw.bytes ∧ [5, 0, 1, 2, 3, 4].length = CA.aw.bytes + CA.rw.bytes ∧
      [5, 0, 1, 2, 3].length ≠ CA.aw.bytes ∧ [5, 0, 1, 2, 3].length ≠ CA.aw.bytes + CA.rw.bytes := by decide

theorem witness_FrameOperandsLittleEndian :
    (CC.aw = .a1 ∧ CC.rw = .w1) ∧ (CD.aw = .a1 ∧ CD.rw = .w2) ∧ (CE.aw = .a1 ∧ CE.rw = .w4) ∧
      (CG.aw = .a2 ∧ CG.rw = .w1) ∧ (CB.aw = .a2 ∧ CB.rw = .w2) ∧ (CA.aw = .a2 ∧ CA.rw = .w4) := by decide

theorem witness_StepRunsDecodedInstruction :
    decode ((blk CA).setTurns [.op (.rx [5, 0])]).cfg (.rx [5, 0]) = .instr (.selectA2 5) ∧
      ((blk CA).setTurns [.op (.rx [5, 0])]).turns = [.op (.rx [5, 0])] ∧
      ((blk CA).setTurns [.start (.rx [5, 0])]).turns = [.start (.rx [5, 0])] := ⟨rfl, rfl, rfl⟩

theorem witness_TableWordRunsNext :
    decodeTableWord 16 0x0005 = some (.selectA2 5) ∧ decodeTableWord 0 0 = some (.ignore []) := ⟨rfl, rfl⟩

theorem witness_SelectRowsComplete :
    (BusReady CC (blk CC) ∧ CC.aw = .a1) ∧ BusReady CA (blk CA) ∧ CA.aw = .a2 :=
  ⟨⟨⟨rfl, rfl, rfl⟩, rfl⟩, ⟨rfl, rfl, rfl⟩, rfl⟩

theorem witness_SelectFrameSetsPra :
    BusReady CA ((blk CA).setTurns [.op (.rx [0xFF, 0xFF])]) ∧ [0xFF, 0xFF].length = CA.aw.bytes ∧
      ((blk CA).setTurns [.op (.rx [0xFF, 0xFF])]).turns = [.op (.rx [0xFF, 0xFF])] := ⟨⟨rfl, rfl, rfl⟩, rfl, rfl⟩

/-- In range at N − 1, out of range at N. -/
theorem witness_WriteRowsComplete (c : Cfg) (h : c = CA ∨ c = CB ∨ c = CC ∨ c = CD ∨ c = CE ∨ c = CG) :
    StateInv (blk c) ∧ BusReady c (blk c) := by
  refine ⟨blk_inv c ?_, rfl, rfl, rfl⟩
  obtain rfl | rfl | rfl | rfl | rfl | rfl := h <;> rfl

theorem witness_WriteRowsComplete_addresses :
    (9#16).toNat < CA.n ∧ CA.n ≤ (10#16).toNat ∧ (299#16).toNat < CB.n ∧ CB.n ≤ (300#16).toNat ∧
      (3#16).toNat < CD.n ∧ CD.n ≤ (4#16).toNat := by decide

/-- A flagged register (9) and, with N = 33, one past the flags (32). -/
theorem witness_WriteFrameStoresAndFlags :
    (StateInv ((blk CA).setTurns [.op (.rx [9, 0, 1, 2, 3, 4])]) ∧
      BusReady CA ((blk CA).setTurns [.op (.rx [9, 0, 1, 2, 3, 4])]) ∧
      [9, 0, 1, 2, 3, 4].length = CA.aw.bytes + CA.rw.bytes ∧ leDecode [9, 0, 1, 2, 3, 4] 0 CA.aw.bytes < CA.n) ∧
    (StateInv ((blk (c33 .w1 .a1)).setTurns [.op (.rx [32, 1])]) ∧
      BusReady (c33 .w1 .a1) ((blk (c33 .w1 .a1)).setTurns [.op (.rx [32, 1])]) ∧ leDecode [32, 1] 0 1 < 33) :=
  ⟨⟨inv_setTurns _ (blk_inv _ rfl), ⟨rfl, rfl, rfl⟩, rfl, by decide⟩, inv_setTurns _ (blk_inv _ rfl),
    ⟨rfl, rfl, rfl⟩, by decide⟩

theorem witness_OutOfRangeWriteChangesNothing :
    BusReady CA ((blk CA).setTurns [.op (.rx [10, 0, 1, 2, 3, 4])]) ∧
      [10, 0, 1, 2, 3, 4].length = CA.aw.bytes + CA.rw.bytes ∧ CA.n ≤ leDecode [10, 0, 1, 2, 3, 4] 0 CA.aw.bytes :=
  ⟨⟨rfl, rfl, rfl⟩, rfl, by decide⟩

theorem witness_IgnoredFrameChangesNothing :
    BusReady CA ((blk CA).setTurns [.op (.rx [3, 0, 0x78])]) ∧ [3, 0, 0x78].length ≠ CA.aw.bytes ∧
      [3, 0, 0x78].length ≠ CA.aw.bytes + CA.rw.bytes ∧
      ((blk CA).setTurns [.op (.rx [3, 0, 0x78])]).turns = [.op (.rx [3, 0, 0x78])] :=
  ⟨⟨rfl, rfl, rfl⟩, by decide, by decide, rfl⟩

/-- PRA at N − 1 and at N, for the three widths. -/
theorem witness_ResponseRowsComplete :
    (StateInv (blk CZ) ∧ BusReady CZ (blk CZ) ∧ CZ.rw = .w1 ∧ CZ.n ≤ (blk CZ).pra.toNat) ∧
      (StateInv (blk CD) ∧ BusReady CD (blk CD) ∧ CD.rw = .w2 ∧ (blk CD).pra.toNat < CD.n) ∧
      StateInv (blk CA) ∧ BusReady CA (blk CA) ∧ CA.rw = .w4 :=
  ⟨⟨blk_inv _ rfl, ⟨rfl, rfl, rfl⟩, rfl, by decide⟩, ⟨blk_inv _ rfl, ⟨rfl, rfl, rfl⟩, rfl, by decide⟩,
    blk_inv _ rfl, ⟨rfl, rfl, rfl⟩, rfl⟩

theorem witness_LegalConfigurations :
    ((1 = 1 ∨ 1 = 2 ∨ 1 = 4) ∧ (1 = 1 ∨ 1 = 2) ∧ 256 ≤ 256 ^ 1 ∧ 127 < 128 ∧ State.reset.cfg = none) ∧
      ¬ ((1 = 1 ∨ 1 = 2 ∨ 1 = 4) ∧ (1 = 1 ∨ 1 = 2) ∧ 257 ≤ 256 ^ 1 ∧ 127 < 128) := by decide

theorem witness_ConfigureCreatesBlock : CG.legal = true ∧ CA.legal = true ∧ State.reset.cfg = none := ⟨rfl, rfl, rfl⟩

theorem witness_ConfigurationFixedForLife :
    ((flagged CD 1).setTurns [.op .drain]).cfg = some CD ∧ ∃ t, step ((flagged CD 1).setTurns [.op .drain]) = .next t :=
  ⟨rfl, _, rfl⟩

theorem witness_SecondConfigureRefused : (blk CA).cfg = some CA ∧ (cfgOf 10 4 2 0x10).isSome = true := ⟨rfl, rfl⟩

theorem witness_BeginActivates : HostReady CA (blk CA) ∧ (blk CA).active = true := ⟨⟨rfl, rfl⟩, rfl⟩

theorem witness_ActiveGatesTheBus :
    ((blk CD).cfg = some CD ∧ (blk CD).active = true ∧ ∃ t, step (blk CD) = .next t) ∧
      (((blk CD).setActive false).cfg = some CD ∧ ((blk CD).setActive false).active = false ∧ isBus .respR2 = true) ∧
      StateInv (blk CD) ∧ HostReady CD (blk CD) ∧ (blk CD).busFlight = none :=
  ⟨⟨rfl, rfl, _, rfl⟩, ⟨rfl, rfl, rfl⟩, blk_inv _ rfl, ⟨rfl, rfl⟩, rfl⟩

theorem witness_GetReturnsRegister :
    StateInv (blk CA) ∧ HostReady CA (blk CA) ∧ (9#16).toNat < CA.n ∧ CA.n ≤ (10#16).toNat :=
  ⟨blk_inv _ rfl, ⟨rfl, rfl⟩, by decide, by decide⟩

theorem witness_SetStoresRegister : StateInv (blk CA) ∧ HostReady CA (blk CA) := ⟨blk_inv _ rfl, rfl, rfl⟩

theorem witness_DrainTakesLowestFlag :
    (HostReady CA (flagged CA 0x224) ∧ (flagged CA 0x224).cf ≠ 0 ∧ StateInv (flagged CA 0x224)) ∧
      HostReady CA (blk CA) ∧ (blk CA).cf = 0 :=
  ⟨⟨⟨rfl, rfl⟩, by decide, flagged_inv _ _ rfl (by decide)⟩, ⟨rfl, rfl⟩, rfl⟩

theorem witness_EveryOperationCompletes :
    StateInv (blk CA) ∧ (Instr.inConfig CA .respR4 = true ∧ isBus .respR4 = true ∧ BusReady CA (blk CA)) ∧
      Instr.inConfig CA .drain = true ∧ isBus .drain = false ∧ HostReady CA (blk CA) ∧
      ∀ n rw aw ba, Instr.drain ≠ .configure n rw aw ba :=
  ⟨blk_inv _ rfl, ⟨rfl, rfl, rfl, rfl, rfl⟩, rfl, rfl, ⟨rfl, rfl⟩, by simp⟩

theorem witness_OverlapRefused :
    (racing (.respond (Access.reading CD 0)) (.get (Access.reading CD 0))).cfg = some CD ∧
      (isBus .respR2 = true ∧ (racing (.respond (Access.reading CD 0)) (.get (Access.reading CD 0))).active = true ∧
        (racing (.respond (Access.reading CD 0)) (.get (Access.reading CD 0))).busFlight ≠ none) ∧
      isBus .drain = false ∧ (racing (.respond (Access.reading CD 0)) (.get (Access.reading CD 0))).hostFlight ≠ none ∧
      ∀ n rw aw ba, Instr.drain ≠ .configure n rw aw ba :=
  ⟨rfl, ⟨rfl, rfl, by simp [racing]⟩, rfl, by simp [racing], by simp⟩

theorem witness_SetThenGet :
    (blk CA).cfg = some CA ∧ (9#16).toNat < CA.n ∧
      (∀ i ∈ [Instr.set 8 5, .writeA2R4 7 1, .drain], storesTo i ≠ some 9) ∧
      ∃ t, performAll (.set 9 0xDEADBEEF :: ([.set 8 5, .writeA2R4 7 1, .drain] ++ [.get 9])) (blk CA) = .next t :=
  ⟨rfl, by decide, by decide, _, rfl⟩

/-- In range at N − 1 and out of range at N. -/
theorem witness_SelectThenTxEqualsGet (a : Addr) (h : a = 9 ∨ a = 10) :
    (blk CA).cfg = some CA ∧ selectOperand (.selectA2 a) = some a ∧
      (∀ i ∈ [Instr.set 8 5, .writeA2R4 7 1, .drain], storesTo i ≠ some a ∧ selectOperand i = none) ∧
      (∃ t, performAll (.selectA2 a :: ([.set 8 5, .writeA2R4 7 1, .drain] ++ [.respR4])) (blk CA) = .next t ∧
        ∃ u, exec (.get a) t = .next u) ∧ ∃ u, exec (.get a) (blk CA) = .next u := by
  obtain rfl | rfl := h
  · exact ⟨rfl, rfl, by decide, ⟨_, rfl, _, rfl⟩, _, rfl⟩
  · exact ⟨rfl, rfl, by decide, ⟨_, rfl, _, rfl⟩, _, rfl⟩

/-- The last flag, 31, on a block with N = 33, and the empty flag word below it. -/
theorem witness_DrainLoopAscending :
    HostReady (c33 .w1 .a1) (flagged (c33 .w1 .a1) 0x80000000) ∧ writeOperands (.writeA1R1 31 5) = some (31, 5) ∧
      (31#16).toNat < 33 ∧ (31#16).toNat < 32 ∧
      (∀ k, (flagged (c33 .w1 .a1) 0x80000000).cf.getLsbD k = true → (31#16).toNat ≤ k) ∧
      ∃ t, performAll [.writeA1R1 31 5, .drain] (flagged (c33 .w1 .a1) 0x80000000) = .next t := by
  refine ⟨⟨rfl, rfl⟩, rfl, by decide, by decide, fun k hk => ?_, _, rfl⟩
  have h : ∀ i < 32, (0x80000000#32).getLsbD i = true → 31 ≤ i := by decide
  exact h k (BitVec.lt_of_getLsbD hk) hk

theorem witness_WritesCoalesce :
    (flagged CD 0x8).cfg = some CD ∧ (3#16).toNat < CD.n ∧ writeOperands (.writeA1R2 3 1) = some (3, 1) ∧
      writeOperands (.writeA1R2 3 2) = some (3, 2) ∧ (∀ k < (3#16).toNat, (flagged CD 0x8).cf.getLsbD k = false) ∧
      ∃ t, performAll [.writeA1R2 3 1, .writeA1R2 3 2, .drain] (flagged CD 0x8) = .next t :=
  ⟨rfl, by decide, rfl, rfl, by decide, _, rfl⟩

theorem witness_StepKeepsInvariant :
    StateInv ((racing (.write (Access.writing CD 1 7)) (.get (Access.reading CD 1))).setTurns [.hostEvent 1]) ∧
      ∃ t, step ((racing (.write (Access.writing CD 1 7)) (.get (Access.reading CD 1))).setTurns [.hostEvent 1]) = .next t :=
  ⟨inv_setTurns _ (racing_inv _ _ (writing_ok _ _ _) (reading_ok _ _)), _, rfl⟩

theorem witness_NoAccessLeavesTheBuffer : StateInv ((blk CA).setTurns [.op (.get 0xFFFF)]) :=
  inv_setTurns _ (blk_inv _ rfl)

theorem witness_PraHighByteZero :
    (∀ c, ((blk CC).setTurns [.op (.rx [0xFF])]).cfg = some c → c.aw = .a1 →
        ((blk CC).setTurns [.op (.rx [0xFF])]).pra.extractLsb' 8 8 = 0#8) ∧ CC.aw = .a1 ∧
      ∃ t, step ((blk CC).setTurns [.op (.rx [0xFF])]) = .next t :=
  ⟨fun _ _ _ => rfl, rfl, _, rfl⟩

theorem witness_OperationsThatTouchFlags :
    (blk CD).cfg = some CD ∧ (∃ t, exec (.writeA1R2 3 5) (blk CD) = .next t) ∧ (∃ t, exec .drain (flagged CD 8) = .next t) ∧
      (∃ t, exec (.set 3 5) (flagged CD 8) = .next t) ∧ writeOperands (.set 3 5) = none ∧
      (∀ c, (flagged CD 8).cfg = some c → ∀ k, (flagged CD 8).cf.getLsbD k = true → k < min c.n 32) ∧
      ∃ t, step (flagged CD 8) = .next t := by
  refine ⟨rfl, ⟨_, rfl⟩, ⟨_, rfl⟩, ⟨_, rfl⟩, rfl, fun c hc k hk => ?_, _, rfl⟩
  cases hc
  have h : ∀ i < 32, (8#32).getLsbD i = true → i < min CD.n 32 := by decide
  exact h k (BitVec.lt_of_getLsbD hk) hk

theorem witness_OnlySelectWritesPra :
    ∃ t, step ((blk CA).setTurns [.op (.rx [5, 0])]) = .next t ∧ t.pra ≠ ((blk CA).setTurns [.op (.rx [5, 0])]).pra :=
  ⟨_, rfl, by decide⟩

theorem witness_AccessClasses :
    (blk CD).cfg = some CD ∧ ((∃ t, exec (.writeA1R2 3 5) (blk CD) = .next t) ∧ isBus (.writeA1R2 3 5) = true) ∧
      (∃ t, exec .drain (blk CD) = .next t) ∧ isBus .drain = false := ⟨rfl, ⟨⟨_, rfl⟩, rfl⟩, ⟨_, rfl⟩, rfl⟩

theorem witness_HostNeverReadsPra : isBus (.get 3) = false ∧ ∃ t, exec (.get 3) (blk CD) = .next t := ⟨rfl, _, rfl⟩

theorem witness_BusNeverReadsFlags :
    isBus (.writeA1R2 3 5) = true ∧ ∃ t, exec (.writeA1R2 3 5) (flagged CD 1) = .next t := ⟨rfl, _, rfl⟩

theorem witness_BusAddrNeverRead : (blk CD).cfg = some CD ∧ ∃ t, exec (.writeA1R2 3 5) (blk CD) = .next t := ⟨rfl, _, rfl⟩

theorem witness_RepeatedOperationKeepsBuffer :
    ∃ t u, exec (.set 3 5) (blk CD) = .next t ∧ exec (.set 3 5) t = .next u := ⟨_, _, rfl, rfl⟩

theorem witness_UninterruptedEventsAgree :
    StateInv (blk CA) ∧ CA.rw.bytes + 1 ≤ [3, 2, 1, 0, 0].length ∧ BusReady CA (blk CA) ∧ HostReady CA (blk CA) :=
  ⟨blk_inv _ rfl, by decide, ⟨rfl, rfl, rfl⟩, rfl, rfl⟩

theorem test_uninterrupted :
    look State.buf (runTurns (.start (.rx [3, 0x22, 0x11]) :: [1, 0, 0].map Turn.busEvent) (blk CD)) =
      look State.buf (runTurns [.op (.rx [3, 0x22, 0x11])] (blk CD)) := by rfl

/-- The turns of a GET and a WRITE on register 3 of CD, all their events, the GET's first byte read before the store. -/
def raceTurns : List Turn := [.hostEvent 0, .busEvent 0, .busEvent 0, .hostEvent 0, .hostEvent 0, .busEvent 0]

theorem raceTurns_events : ∀ tn ∈ raceTurns, ∃ j, tn = .busEvent j ∨ tn = .hostEvent j := by
  simp [raceTurns]

theorem witness_TornGetBytes :
    StateInv (racing (.write (Access.writing CD 3 7)) (.get (Access.reading CD 3))) ∧ (3#16).toNat < CD.n ∧
      ∃ t, runTurns raceTurns (racing (.write (Access.writing CD 3 7)) (.get (Access.reading CD 3))) = .next t ∧
        t.hostFlight = none :=
  ⟨racing_inv _ _ (writing_ok _ _ _) (reading_ok _ _), by decide, _, rfl, rfl⟩

theorem witness_EveryTornGetPossible :
    StateInv (racing (.write (Access.writing CD 3 7)) (.get (Access.reading CD 3))) ∧ (3#16).toNat < CD.n ∧
      IsRegister CD 3 (racing (.write (Access.writing CD 3 7)) (.get (Access.reading CD 3))).buf [0, 0] := by
  refine ⟨racing_inv _ _ (writing_ok _ _ _) (reading_ok _ _), by decide, rfl, ?_⟩
  decide

theorem witness_TornResponseBytes :
    StateInv (racing (.respond (Access.reading CD 3)) (.set (Access.writing CD 3 7))) ∧ (3#16).toNat < CD.n ∧
      ∃ t, runTurns raceTurns (racing (.respond (Access.reading CD 3)) (.set (Access.writing CD 3 7))) = .next t ∧
        t.busFlight = none :=
  ⟨racing_inv _ _ (reading_ok _ _) (writing_ok _ _ _), by decide, _, rfl, rfl⟩

theorem witness_OverlappingWritesLeaveNoOldByte :
    StateInv (racing (.write (Access.writing CD 3 7)) (.set (Access.writing CD 3 8))) ∧ (3#16).toNat < CD.n ∧
      ∃ t, runTurns raceTurns (racing (.write (Access.writing CD 3 7)) (.set (Access.writing CD 3 8))) = .next t ∧
        t.busFlight = none ∧ t.hostFlight = none :=
  ⟨racing_inv _ _ (writing_ok _ _ _) (writing_ok _ _ _), by decide, _, rfl, rfl, rfl⟩

/-- CD with a WRITE of 7 to register 3 in flight and no HOST operation. -/
def writing3 : State := (blk CD).setBusFlight (some (.write (Access.writing CD 3 7)))

/-- The events of a WRITE to register 3 and a SET of register 2; the SET ends and a GET of register 3 starts inside. -/
def flagTurns : List Turn :=
  [.busEvent 1, .hostEvent 0, .busEvent 0, .hostEvent 0, .hostEvent 0, .start (.get 3), .busEvent 0]

theorem witness_FlagComesAfterTheValue :
    StateInv (racing (.write (Access.writing CD 3 7)) (.set (Access.writing CD 2 9))) ∧ (3#16).toNat < CD.n ∧
      (racing (.write (Access.writing CD 3 7)) (.set (Access.writing CD 2 9))).cf.getLsbD (3#16).toNat = false ∧
      (∀ x, (racing (.write (Access.writing CD 3 7)) (.set (Access.writing CD 2 9))).hostFlight = some (.set x) →
        x.addr ≠ 3) ∧
      (∀ tn ∈ flagTurns, (∃ j, tn = .busEvent j ∨ tn = .hostEvent j) ∨
        ∃ o i, (tn = .op o ∨ tn = .start o) ∧ decode (some CD) o = .instr i ∧ isBus i = false ∧ storesTo i ≠ some 3) ∧
      ∃ t, runTurns flagTurns (racing (.write (Access.writing CD 3 7)) (.set (Access.writing CD 2 9))) = .next t ∧
        t.cf.getLsbD (3#16).toNat = true ∧ t.busFlight = none := by
  refine ⟨racing_inv _ _ (writing_ok _ _ _) (writing_ok _ _ _), by decide, rfl, fun x h => by cases h; decide, ?_, _, rfl, rfl,
    rfl⟩
  simp only [flagTurns, List.forall_mem_cons]
  exact ⟨.inl ⟨1, .inl rfl⟩, .inl ⟨0, .inr rfl⟩, .inl ⟨0, .inl rfl⟩, .inl ⟨0, .inr rfl⟩, .inl ⟨0, .inr rfl⟩,
    .inr ⟨.get 3, .get 3, .inr rfl, rfl, rfl, nofun⟩, .inl ⟨0, .inl rfl⟩, nofun⟩

theorem witness_DrainAndWriteLoseNoFlag :
    HostReady CD (writing3.setBusFlight (some (.write ⟨3, [7, 0], []⟩))) ∧
      (writing3.setBusFlight (some (.write ⟨3, [7, 0], []⟩))).busFlight = some (.write ⟨3, [7, 0], []⟩) ∧
      (3#16).toNat < CD.n ∧ (3#16).toNat < 32 := ⟨⟨rfl, rfl⟩, rfl, by decide, by decide⟩

/-- A BUS operation with bytes still to do and a HOST operation with none (out of range, at N). -/
theorem witness_EventsFinishOperations :
    StateInv ((racing (.write (Access.writing CD 3 7)) (.get (Access.reading CD 4))).setTurns [.busEvent 5]) ∧
      StateInv ((racing (.write (Access.writing CD 3 7)) (.get (Access.reading CD 4))).setTurns [.hostEvent 5]) ∧
      (BusFlight.write (Access.writing CD 3 7)).access.todo ≠ [] ∧
      (HostFlight.get (Access.reading CD 4)).access.todo = [] :=
  ⟨inv_setTurns _ (racing_inv _ _ (writing_ok _ _ _) (reading_ok _ _)),
    inv_setTurns _ (racing_inv _ _ (writing_ok _ _ _) (reading_ok _ _)), by decide, by decide⟩

theorem witness_NoOperationBeforeConfigure :
    State.reset.cfg = none ∧ (∀ n rw aw ba, Instr.drain ≠ .configure n rw aw ba) ∧
      (∀ n rw aw ba, Operation.tx ≠ .configure n rw aw ba) ∧
      (State.reset.setTurns [.op .tx]).turns = [.op .tx] ∧ (State.reset.setTurns [.start .tx]).turns = [.start .tx] :=
  ⟨rfl, nofun, nofun, rfl, rfl⟩

/-- A WRITE frame, the flag event of a WRITE in flight, and a DRAIN: each changes CF. -/
theorem witness_StepsThatChangeFlags :
    (∃ t, step ((blk CD).setTurns [.op (.rx [3, 7, 0])]) = .next t ∧ t.cf ≠ (blk CD).cf) ∧
      (∃ t, step ((writing3.setBusFlight (some (.write ⟨3, [7, 0], []⟩))).setTurns [.busEvent 0]) = .next t ∧
        t.cf ≠ writing3.cf) ∧
      ∃ t, step ((flagged CD 1).setTurns [.start .drain]) = .next t ∧ t.cf ≠ (flagged CD 1).cf :=
  ⟨⟨_, rfl, by decide⟩, ⟨_, rfl, by decide⟩, _, rfl, by decide⟩

end Sys2Proof.Tests
end

/-! # The state's registers: what each operation changes, and what no operation reads (spec/10_state.md)
-/

section
namespace Sys2Proof.Machine

/-! ## The frame of the shared operations -/

section Frame

variable {s t : State} {c : Cfg} {a : Addr} {v : Value}

@[simp] theorem notify_cfg (c : Cfg) (a : Addr) (s : State) : (notify c a s).cfg = s.cfg := by rw [notify_eq]; rfl

@[simp] theorem notify_buf (c : Cfg) (a : Addr) (s : State) : (notify c a s).buf = s.buf := by rw [notify_eq]; rfl

@[simp] theorem notify_pra (c : Cfg) (a : Addr) (s : State) : (notify c a s).pra = s.pra := by rw [notify_eq]; rfl

theorem storeRegister_cfg (h : storeRegister c s a v = some t) : t.cfg = s.cfg := by
  rw [(storeRegister_some h).1, State.setBuf_cfg]

theorem storeRegister_pra (h : storeRegister c s a v = some t) : t.pra = s.pra := by
  rw [(storeRegister_some h).1, State.setBuf_pra]

theorem storeRegister_cf (h : storeRegister c s a v = some t) : t.cf = s.cf := by
  rw [(storeRegister_some h).1, State.setBuf_cf]

theorem storeByte_pra {x : Access} {k : Nat} (h : storeByte c x k s = some t) : t.pra = s.pra := by
  rw [(storeByte_some h).1, State.setBuf_pra]

@[simp] theorem drainFlag_pra (s : State) : (drainFlag s).pra = s.pra := by
  rcases drainFlag_cases s with ⟨i, -, -, -, h⟩ | ⟨-, h⟩ <;> rw [h] <;> rfl

/-- The DRAIN of a word whose lowest set flag is `k` returns and clears flag `k` (R104). -/
theorem drainFlag_of_lowest {k : Nat} (hk : s.cf.getLsbD k = true) (hlow : ∀ j < k, s.cf.getLsbD j = false) :
    drainFlag s = (s.setCf (clearFlag s.cf k)).setResult (.drained true (BitVec.ofNat 5 k)) := by
  rcases drainFlag_cases s with ⟨i, -, hi, hbelow, h⟩ | ⟨h0, -⟩
  · have hki : ¬ k < i := fun hlt => by simp [hbelow k hlt] at hk
    have hik : ¬ i < k := fun hlt => by simp [hlow i hlt] at hi
    obtain rfl : i = k := by omega
    exact h
  · simp [h0] at hk

end Frame

/-! ## Operations by kind: one equation for all the rows of a kind -/

section Kinds

variable {s t : State} {c : Cfg} {i : Instr} {a : Addr} {v : Value}

/-- Every SELECT row is the same operation on its zero-extended address (R82). -/
theorem exec_of_selectOperand (h : selectOperand i = some a) (s : State) :
    exec i s = onRow i s fun _ => selectAddress a s := by
  cases i with
  | selectA1 a => cases h; rfl
  | selectA2 a => cases h; rfl
  | _ => cases h

/-- Every WRITE row is the same operation on its zero-extended operands (R83). -/
theorem exec_of_writeOperands (h : writeOperands i = some (a, v)) (s : State) :
    exec i s = onRow i s fun c => writeRegister c a v s := by
  cases i with
  | writeA1R1 a v => cases h; rfl
  | writeA1R2 a v => cases h; rfl
  | writeA1R4 a v => cases h; rfl
  | writeA2R1 a v => cases h; rfl
  | writeA2R2 a v => cases h; rfl
  | writeA2R4 a v => cases h; rfl
  | _ => cases h

/-- Every RESPONSE row is the same operation (R86). -/
theorem exec_of_resp (h : i = .respR1 ∨ i = .respR2 ∨ i = .respR4) (s : State) :
    exec i s = onRow i s fun c => respond c s := by
  rcases h with rfl | rfl | rfl <;> rfl

/-- An IGNORE does nothing where it is enabled (R85). -/
theorem exec_ignore (b : List Byte) (s : State) : exec (.ignore b) s = onRow (.ignore b) s fun _ => .next s := rfl

theorem exec_begin (s : State) : exec .begin s = hostOperation s fun _ => .next (s.setActive true) := rfl

theorem exec_get (a : Addr) (s : State) :
    exec (.get a) s = hostOperation s fun c =>
      orOutside ((loadRegister c s a).map fun bs => s.setResult (.value (hostValue bs))) := rfl

theorem exec_set (a : Addr) (d : Value) (s : State) :
    exec (.set a d) s = hostOperation s fun c => orOutside (storeRegister c s a d) := rfl

theorem exec_drain (s : State) : exec .drain s = hostOperation s fun _ => .next (drainFlag s) := rfl

/-- A WRITE that completes stores its value, then raises its flag (R83, R84). -/
theorem exec_write_next (hc : s.cfg = some c) (hw : writeOperands i = some (a, v)) (h : exec i s = .next t) :
    ∃ u, storeRegister c s a v = some u ∧ t = notify c a u := by
  rw [exec_of_writeOperands hw] at h
  obtain ⟨c', ⟨hc', -, -⟩, -, hk⟩ := onRow_next h
  obtain rfl : c' = c := Option.some.inj (hc'.symm.trans hc)
  obtain ⟨u, hu, rfl⟩ := Option.map_eq_some_iff.1 (orOutside_next hk)
  exact ⟨u, hu, rfl⟩

theorem exec_write_cfg (hc : s.cfg = some c) (hw : writeOperands i = some (a, v)) (h : exec i s = .next t) :
    t.cfg = some c := by
  obtain ⟨u, hu, rfl⟩ := exec_write_next hc hw h
  rw [notify_cfg, storeRegister_cfg hu, hc]

theorem exec_write_cf (hc : s.cfg = some c) (hw : writeOperands i = some (a, v)) (h : exec i s = .next t) (k : Nat) :
    t.cf.getLsbD k = (s.cf.getLsbD k || decide (k = a.toNat ∧ a.toNat < c.n ∧ a.toNat < 32)) := by
  obtain ⟨u, hu, rfl⟩ := exec_write_next hc hw h
  rw [notify_cf, storeRegister_cf hu]

theorem exec_write_holdsValue (hc : s.cfg = some c) (hw : writeOperands i = some (a, v)) (h : exec i s = .next t)
    (ha : a.toNat < c.n) : HoldsValue c a v t.buf := by
  obtain ⟨u, hu, rfl⟩ := exec_write_next hc hw h
  rw [notify_buf]
  exact (storeRegister_holds hu (by simpa [inRange] using ha)).1

theorem exec_drain_next (h : exec .drain s = .next t) : t = drainFlag s := by
  rw [exec_drain] at h
  obtain ⟨c, -, hk⟩ := hostOperation_next h
  cases hk; rfl

/-- Operations performed one after another complete one by one. -/
theorem performAll_cons_next {is : List Instr} (h : performAll (i :: is) s = .next t) :
    ∃ u, exec i s = .next u ∧ performAll is u = .next t := by
  simp only [performAll] at h
  split at h
  · exact ⟨_, ‹_›, h⟩
  · cases h
  · cases h

theorem performAll_singleton_next (h : performAll [i] s = .next t) : exec i s = .next t := by
  obtain ⟨u, hu, hnil⟩ := performAll_cons_next h
  cases hnil; exact hu

end Kinds

/-! ## Which frames select -/

section Select

variable {c : Cfg} {i : Instr} {a : Addr}

theorem leDecode_lt (b : List Byte) (i n : Nat) : leDecode b i n < 256 ^ n :=
  calc leDecode b i n < 256 ^ ((b.drop i).take n).length := leNat_lt _
    _ ≤ 256 ^ n := Nat.pow_le_pow_right (by decide) (List.length_take_le _ _)

/-- A SELECT row built from an address that fits AW selects that address (R64, R82). -/
theorem selectOperand_selectInstr {aw : AddrWidth} {n : Nat} (h : n < 256 ^ aw.bytes) :
    selectOperand (selectInstr aw n) = some (BitVec.ofNat 16 n) := by
  cases aw with
  | a1 =>
    have hn : n < 256 := h
    simp only [selectInstr, selectOperand, Option.some.injEq]
    apply BitVec.eq_of_toNat_eq
    simp only [BitVec.truncate_eq_setWidth, BitVec.toNat_setWidth, BitVec.toNat_ofNat]
    omega
  | a2 => rfl

theorem selectOperand_writeInstr (aw : AddrWidth) (rw : RegWidth) (a v : Nat) :
    selectOperand (writeInstr aw rw a v) = none := by
  cases aw <;> cases rw <;> rfl

theorem selectOperand_respInstr (rw : RegWidth) : selectOperand (respInstr rw) = none := by
  cases rw <;> rfl

/-- A frame of AW bytes is a SELECT (R63, R64). -/
theorem decodeFrame_of_select {b : List Byte} (h : b.length = c.aw.bytes) :
    decodeFrame c b = selectInstr c.aw (leDecode b 0 c.aw.bytes) := by
  simp [decodeFrame, frameClass, h]

/-- A frame of AW + RW bytes is a WRITE (R63, R64, R65). -/
theorem decodeFrame_of_write {b : List Byte} (h : b.length = c.aw.bytes + c.rw.bytes) :
    decodeFrame c b = writeInstr c.aw c.rw (leDecode b 0 c.aw.bytes) (leDecode b c.aw.bytes c.rw.bytes) := by
  simp [decodeFrame, frameClass, h, Nat.ne_of_gt c.rw.bytes_pos]

/-- A frame of any other length is an IGNORE (R63, R85). -/
theorem decodeFrame_of_ignore {b : List Byte} (hs : b.length ≠ c.aw.bytes)
    (hw : b.length ≠ c.aw.bytes + c.rw.bytes) : decodeFrame c b = .ignore b := by
  simp [decodeFrame, frameClass, hs, hw]

/-- A frame that decodes to a SELECT row has AW bytes and selects its little-endian address (R63, R64). -/
theorem decodeFrame_selects {b : List Byte} (h : selectOperand (decodeFrame c b) = some a) :
    b.length = c.aw.bytes ∧ a = BitVec.ofNat 16 (leDecode b 0 c.aw.bytes) := by
  by_cases hs : b.length = c.aw.bytes
  · rw [decodeFrame_of_select hs, selectOperand_selectInstr (leDecode_lt b 0 c.aw.bytes)] at h
    exact ⟨hs, (Option.some.inj h).symm⟩
  · by_cases hw : b.length = c.aw.bytes + c.rw.bytes
    · rw [decodeFrame_of_write hw, selectOperand_writeInstr] at h
      cases h
    · rw [decodeFrame_of_ignore hs hw] at h
      cases h

/-- The only operations that decode to a SELECT row are the frames of AW bytes. -/
theorem decode_selects {o : Operation} (hd : decode (some c) o = .instr i) (hi : selectOperand i = some a) :
    ∃ b, o = .rx b ∧ b.length = c.aw.bytes ∧ a = BitVec.ofNat 16 (leDecode b 0 c.aw.bytes) := by
  cases o with
  | rx b => cases hd; exact ⟨b, rfl, decodeFrame_selects hi⟩
  | tx => cases hd; simp [selectOperand_respInstr] at hi
  | configure n rw aw ba =>
    simp only [decode, decodeConfigure] at hd
    split at hd <;> cases hd
    cases hi
  | begin => cases hd; cases hi
  | get a => cases hd; cases hi
  | set a d => cases hd; cases hi
  | drain => cases hd; cases hi

end Select

/-! ## Who writes PRA (R28, R50) -/

section Pra

variable {s t : State} {c : Cfg} {i : Instr}

/-- On a block an operation performed whole leaves PRA, or is a SELECT of the new one. -/
theorem exec_pra (hc : s.cfg = some c) (h : exec i s = .next t) : t.pra = s.pra ∨ selectOperand i = some t.pra := by
  rcases exec_next h with ⟨_, a, -, -, ha, rfl⟩ | ⟨_, a, v, u, -, -, -, hu, rfl⟩ | ⟨_, b, -, -, -, rfl⟩ |
    ⟨_, bs, -, -, -, -, rfl⟩ | ⟨_, n, rw, aw, ba, hnone, -, -, -⟩ | ⟨_, -, -, rfl⟩ | ⟨_, a, bs, -, -, -, rfl⟩ |
    ⟨_, a, d, -, -, hu⟩ | ⟨_, -, -, rfl⟩
  · exact .inr ha
  · exact .inl ((notify_pra _ a u).trans (storeRegister_pra hu))
  · exact .inl rfl
  · exact .inl rfl
  · rw [hc] at hnone; cases hnone
  · exact .inl rfl
  · exact .inl rfl
  · exact .inl (storeRegister_pra hu)
  · exact .inl (drainFlag_pra s)

/-- The same for an operation started: what it leaves in flight does not touch PRA. -/
theorem startInstr_pra (hc : s.cfg = some c) (h : startInstr i s = .next t) :
    t.pra = s.pra ∨ selectOperand i = some t.pra := by
  rcases startInstr_next h with ⟨_, a, v, -, -, -, rfl⟩ | ⟨_, -, -, -, rfl⟩ | ⟨_, a, -, -, rfl⟩ | ⟨_, a, d, -, -, rfl⟩ | h
  · exact .inl rfl
  · exact .inl rfl
  · exact .inl rfl
  · exact .inl rfl
  · exact exec_pra hc h

theorem busEvent_pra {j : Nat} (h : busEvent j s = .next t) : t.pra = s.pra := by
  rcases busEvent_next h with ⟨-, rfl⟩ | ⟨_, x, k, rest, u, -, -, -, hu, rfl⟩ | ⟨_, x, -, -, -, rfl⟩ |
    ⟨_, x, k, rest, bs, -, -, -, -, rfl⟩ | ⟨x, -, -, rfl⟩
  · rfl
  · exact (State.setBusFlight_pra u _).trans (storeByte_pra hu)
  · exact notify_pra _ x.addr s
  · rfl
  · rfl

theorem hostEvent_pra {j : Nat} (h : hostEvent j s = .next t) : t.pra = s.pra := by
  rcases hostEvent_next h with ⟨-, rfl⟩ | ⟨_, x, k, rest, bs, -, -, -, -, rfl⟩ | ⟨x, -, -, rfl⟩ |
    ⟨_, x, k, rest, u, -, -, -, hu, rfl⟩ | ⟨x, -, -, rfl⟩
  · rfl
  · rfl
  · rfl
  · exact (State.setHostFlight_pra u _).trans (storeByte_pra hu)
  · rfl

/-- A presented operation that changes PRA is a frame of AW bytes, if only SELECT rows change PRA when run. -/
theorem present_pra {run : Instr → State → Result} {o : Operation} (hc : s.cfg = some c)
    (hrun : ∀ {i}, run i s = .next t → t.pra = s.pra ∨ selectOperand i = some t.pra)
    (h : present run o s = .next t) (hne : t.pra ≠ s.pra) :
    ∃ b, o = .rx b ∧ b.length = c.aw.bytes ∧ t.pra = BitVec.ofNat 16 (leDecode b 0 c.aw.bytes) := by
  obtain ⟨i, hd, hi⟩ := present_next h
  exact decode_selects (hc ▸ hd) ((hrun hi).resolve_left hne)

/-- A turn of a block that changes PRA is a frame of AW bytes, performed whole or started. -/
theorem takeTurn_pra {tn : Turn} (hc : s.cfg = some c) (h : takeTurn tn s = .next t) (hne : t.pra ≠ s.pra) :
    ∃ b, (tn = .op (.rx b) ∨ tn = .start (.rx b)) ∧ b.length = c.aw.bytes ∧
      t.pra = BitVec.ofNat 16 (leDecode b 0 c.aw.bytes) := by
  cases tn with
  | op o =>
    obtain ⟨b, rfl, hb⟩ := present_pra hc (exec_pra hc) h hne
    exact ⟨b, .inl rfl, hb⟩
  | start o =>
    obtain ⟨b, rfl, hb⟩ := present_pra hc (startInstr_pra hc) h hne
    exact ⟨b, .inr rfl, hb⟩
  | busEvent j => exact absurd (busEvent_pra h) hne
  | hostEvent j => exact absurd (hostEvent_pra h) hne

end Pra

/-! ## Another BUS_ADDR (R23) -/

section BusAddr

variable {s t : State} {c : Cfg} {i : Instr} {a : Addr} {v : Value}

/-- The configuration with another BUS_ADDR. -/
def withBusAddr (c : Cfg) (ba : BitVec 7) : Cfg := { c with busAddr := ba }

/-- The state with another configuration. -/
def State.setCfg (s : State) (c : Cfg) : State := { s with cfg := some c }

@[simp] theorem State.setCfg_cf (s : State) (c : Cfg) : (s.setCfg c).cf = s.cf := rfl

@[simp] theorem State.setCfg_pra (s : State) (c : Cfg) : (s.setCfg c).pra = s.pra := rfl

theorem BusReady.setCfg (h : BusReady c s) (c' : Cfg) : BusReady c' (s.setCfg c') := ⟨rfl, h.2⟩

theorem HostReady.setCfg (h : HostReady c s) (c' : Cfg) : HostReady c' (s.setCfg c') := ⟨rfl, h.2⟩

theorem drainFlag_setCfg (c' : Cfg) (s : State) : drainFlag (s.setCfg c') = (drainFlag s).setCfg c' := by
  simp only [drainFlag, State.setCfg_cf]
  cases lowestSet s.cf <;> rfl

/-- A register write is a write of the buffer: of the register's bytes, or of none out of range (R27, R44). -/
theorem storeRegister_eq_map (c : Cfg) (s : State) (a : Addr) (v : Value) :
    storeRegister c s a v =
      (if inRange c a then s.buf.writeBytes (byteOffset c a 0) (valueBytes c v) else some s.buf).map s.setBuf := by
  by_cases hr : inRange c a = true
  · cases hm : s.buf.writeBytes (byteOffset c a 0) (valueBytes c v) <;> simp [storeRegister, hr, hm]
  · simp only [storeRegister, hr]; rfl

variable (ba : BitVec 7)

theorem decode_withBusAddr (c : Cfg) (o : Operation) : decode (some (withBusAddr c ba)) o = decode (some c) o := by
  cases o <;> rfl

theorem inConfig_withBusAddr (c : Cfg) (i : Instr) : i.inConfig (withBusAddr c ba) = i.inConfig c := by
  cases i <;> rfl

theorem loadRegister_withBusAddr (c c' : Cfg) (s : State) (a : Addr) :
    loadRegister (withBusAddr c ba) (s.setCfg c') a = loadRegister c s a := rfl

theorem storeRegister_withBusAddr (c' : Cfg) (h : storeRegister c s a v = some t) :
    storeRegister (withBusAddr c ba) (s.setCfg c') a v = some (t.setCfg c') := by
  rw [storeRegister_eq_map] at h ⊢
  obtain ⟨m, hm, rfl⟩ := Option.map_eq_some_iff.1 h
  exact Option.map_eq_some_iff.2 ⟨m, hm, rfl⟩

theorem notify_withBusAddr (c c' : Cfg) (a : Addr) (s : State) :
    notify (withBusAddr c ba) a (s.setCfg c') = (notify c a s).setCfg c' := by
  unfold notify
  rw [apply_ite (State.setCfg · c')]
  rfl

/-- An enabled BUS operation of a block is enabled in the same way with another BUS_ADDR, and runs its meaning there. -/
theorem onRow_withBusAddr {k : Cfg → Result} (hr : BusReady c s) (hi : i.inConfig c = true) :
    onRow i (s.setCfg (withBusAddr c ba)) k = k (withBusAddr c ba) :=
  onRow_ready (hr.setCfg _) ((inConfig_withBusAddr ba c i).trans hi)

/-- Performing an operation of a block does the same with another BUS_ADDR. -/
theorem exec_withBusAddr (hc : s.cfg = some c) (h : exec i s = .next t) :
    exec i (s.setCfg (withBusAddr c ba)) = .next (t.setCfg (withBusAddr c ba)) := by
  have same : ∀ {c'}, s.cfg = some c' → c' = c := fun hc' => Option.some.inj (hc'.symm.trans hc)
  rcases exec_next h with ⟨_, a, hr, hi, ha, rfl⟩ | ⟨_, a, v, u, hr, hi, hw, hu, rfl⟩ | ⟨_, b, hr, hi, rfl, rfl⟩ |
    ⟨_, bs, hr, hi, hresp, hbs, rfl⟩ | ⟨_, n, rw, aw, ba', hnone, -, -, -⟩ | ⟨_, hr, rfl, rfl⟩ |
    ⟨_, a, bs, hr, rfl, hbs, rfl⟩ | ⟨_, a, d, hr, rfl, hu⟩ | ⟨_, hr, rfl, rfl⟩
  · obtain rfl := same hr.1
    rw [exec_of_selectOperand ha, onRow_withBusAddr ba hr hi]; rfl
  · obtain rfl := same hr.1
    rw [exec_of_writeOperands hw, onRow_withBusAddr ba hr hi, writeRegister, storeRegister_withBusAddr ba _ hu,
      Option.map_some, notify_withBusAddr, orOutside_some]
  · obtain rfl := same hr.1
    rw [exec_ignore, onRow_withBusAddr ba hr hi]
  · obtain rfl := same hr.1
    rw [exec_of_resp hresp, onRow_withBusAddr ba hr hi, respond, loadRegister_withBusAddr, State.setCfg_pra, hbs]; rfl
  · rw [hc] at hnone; cases hnone
  · rw [exec_begin, hostOperation_ready (hr.setCfg _)]; rfl
  · obtain rfl := same hr.1
    rw [exec_get, hostOperation_ready (hr.setCfg _), loadRegister_withBusAddr, hbs]; rfl
  · obtain rfl := same hr.1
    rw [exec_set, hostOperation_ready (hr.setCfg _), storeRegister_withBusAddr ba _ hu, orOutside_some]
  · rw [exec_drain, hostOperation_ready (hr.setCfg _), drainFlag_setCfg]

end BusAddr

/-! ## The obligations -/

/-- Settles O30: each WRITE keeps CFG and sets at most its own flag, so the DRAIN finds that flag the lowest; the DRAIN leaves
the buffer of the second WRITE. -/
theorem writesCoalesce : Obligations.WritesCoalesce := by
  intro c s t i₁ i₂ a v₁ v₂ hc hn h32 hw₁ hw₂ hlow h
  obtain ⟨s₁, h₁, h⟩ := performAll_cons_next h
  obtain ⟨s₂, h₂, h⟩ := performAll_cons_next h
  obtain rfl := exec_drain_next (performAll_singleton_next h)
  have hc₁ : s₁.cfg = some c := exec_write_cfg hc hw₁ h₁
  have hset : s₂.cf.getLsbD a.toNat = true := by simp [exec_write_cf hc₁ hw₂ h₂, hn, h32]
  have hbelow : ∀ k < a.toNat, s₂.cf.getLsbD k = false := fun k hk => by
    simp [exec_write_cf hc₁ hw₂ h₂, exec_write_cf hc hw₁ h₁, hlow k hk, Nat.ne_of_lt hk]
  have hvalue : HoldsValue c a v₂ s₂.buf := exec_write_holdsValue hc₁ hw₂ h₂ hn
  rw [drainFlag_of_lowest hset hbelow]
  exact ⟨rfl, by simp [clearFlag_getLsbD], hvalue⟩

/-- Settles O36: a step does its next turn, and of the turns only a frame of AW bytes writes PRA. -/
theorem onlySelectWritesPra : Obligations.OnlySelectWritesPra := by
  intro s t c hc h hne
  cases hts : s.turns with
  | nil =>
    rw [step_nil hts] at h
    cases h
    exact absurd rfl hne
  | cons tn ts =>
    rw [step_cons hts] at h
    obtain ⟨b, htn, hlen, hpra⟩ := takeTurn_pra (s := s.setTurns ts) hc h hne
    exact ⟨b, ts, htn.imp (congrArg (· :: ts)) (congrArg (· :: ts)), hlen, hpra⟩

/-- Settles O40: the rows, the enables and the shared operations read N, RW and AW of CFG only. -/
theorem busAddrNeverRead : Obligations.BusAddrNeverRead := fun _ c ba hc =>
  ⟨decode_withBusAddr ba c, fun _ _ h => exec_withBusAddr ba hc h⟩

/-- Settles O17: `decodeConfigure` fills in `defaultRW` = 4 and `defaultAW` = 2, so both sides compute to one term (R22). -/
theorem configureDefaults : Obligations.ConfigureDefaults := fun _ _ _ _ => ⟨rfl, rfl, rfl⟩

end Sys2Proof.Machine
end

/-! # The buffer under the two agents: accesses stay inside it, and the races of spec/20_memory.md section 3 end as R48, R49
and R51 say
-/

section
namespace Sys2Proof.Machine

/-! ## The kinds of operation, started -/

section Started

variable {i : Instr} {a : Addr} {v : Value}

/-- Every row is of one of the kinds of R82 to R86 and R100 to R104. -/
theorem instr_kinds (i : Instr) :
    (∃ a, selectOperand i = some a) ∨ (∃ a v, writeOperands i = some (a, v)) ∨ (∃ b, i = .ignore b) ∨
      (i = .respR1 ∨ i = .respR2 ∨ i = .respR4) ∨ (∃ n rw aw ba, i = .configure n rw aw ba) ∨ i = .begin ∨
      (∃ a, i = .get a) ∨ (∃ a d, i = .set a d) ∨ i = .drain := by
  cases i <;> simp [selectOperand, writeOperands]

theorem startInstr_of_selectOperand (h : selectOperand i = some a) (s : State) : startInstr i s = exec i s := by
  cases i with
  | selectA1 a => rfl
  | selectA2 a => rfl
  | _ => cases h

/-- Every WRITE row starts the same access on its zero-extended operands (R83). -/
theorem startInstr_of_writeOperands (h : writeOperands i = some (a, v)) (s : State) :
    startInstr i s = onRow i s fun c => .next (s.setBusFlight (some (.write (Access.writing c a v)))) := by
  cases i with
  | writeA1R1 a v => cases h; rfl
  | writeA1R2 a v => cases h; rfl
  | writeA1R4 a v => cases h; rfl
  | writeA2R1 a v => cases h; rfl
  | writeA2R2 a v => cases h; rfl
  | writeA2R4 a v => cases h; rfl
  | _ => cases h

/-- Every RESPONSE row starts the same access, to the register at PRA (R86). -/
theorem startInstr_of_resp (h : i = .respR1 ∨ i = .respR2 ∨ i = .respR4) (s : State) :
    startInstr i s = onRow i s fun c => .next (s.setBusFlight (some (.respond (Access.reading c s.pra)))) := by
  rcases h with rfl | rfl | rfl <;> rfl

theorem startInstr_get (a : Addr) (s : State) :
    startInstr (.get a) s = hostOperation s fun c => .next (s.setHostFlight (some (.get (Access.reading c a)))) := rfl

theorem startInstr_set (a : Addr) (d : Value) (s : State) :
    startInstr (.set a d) s = hostOperation s fun c => .next (s.setHostFlight (some (.set (Access.writing c a d)))) := rfl

end Started

/-! ## The decoder gives rows of the block's configuration only (R63, R68) -/

section Decoder

variable {c : Cfg} {i : Instr}

theorem inConfig_selectInstr (c : Cfg) (a : Nat) : (selectInstr c.aw a).inConfig c = true := by
  cases haw : c.aw <;> simp [selectInstr, Instr.inConfig, haw]

theorem inConfig_writeInstr (c : Cfg) (a v : Nat) : (writeInstr c.aw c.rw a v).inConfig c = true := by
  cases haw : c.aw <;> cases hrw : c.rw <;> simp [writeInstr, Instr.inConfig, haw, hrw]

theorem inConfig_respInstr (c : Cfg) : (respInstr c.rw).inConfig c = true := by
  cases hrw : c.rw <;> simp [respInstr, Instr.inConfig, hrw]

theorem inConfig_decodeFrame (c : Cfg) (b : List Byte) : (decodeFrame c b).inConfig c = true := by
  by_cases hs : b.length = c.aw.bytes
  · rw [decodeFrame_of_select hs]; exact inConfig_selectInstr c _
  · by_cases hw : b.length = c.aw.bytes + c.rw.bytes
    · rw [decodeFrame_of_write hw]; exact inConfig_writeInstr c _ _
    · rw [decodeFrame_of_ignore hs hw]; simp [Instr.inConfig, Cfg.unrecognized, hs, hw]

theorem decode_inConfig {o : Operation} (hd : decode (some c) o = .instr i) : i.inConfig c = true := by
  cases o with
  | rx b => cases hd; exact inConfig_decodeFrame c b
  | tx => cases hd; exact inConfig_respInstr c
  | configure n rw aw ba =>
    simp only [decode, decodeConfigure] at hd
    split at hd <;> cases hd
    simp [Instr.inConfig, *]
  | begin => cases hd; rfl
  | get a => cases hd; rfl
  | set a d => cases hd; rfl
  | drain => cases hd; rfl

end Decoder

/-! ## No access leaves the buffer (R27, R40, R63) -/

section Inside

variable {s : State} {c : Cfg} {i : Instr}

/-- The outcome is none of the three that the invariant shuts out: an access outside the buffer, a row of another
configuration, an operation without a meaning. -/
def Regular (r : Result) : Prop :=
  r ≠ .fault .outsideBuffer ∧ r ≠ .refused .otherConfiguration ∧ ∀ m, r ≠ .refused (.notModelled m)

theorem regular_next (t : State) : Regular (.next t) := ⟨nofun, nofun, nofun⟩

theorem regular_orOutside {o : Option State} (h : ∃ t, o = some t) : Regular (orOutside o) := by
  obtain ⟨t, rfl⟩ := h
  exact regular_next t

theorem regular_withBlock {k : Cfg → Result} (hk : ∀ c, s.cfg = some c → Regular (k c)) : Regular (withBlock s k) := by
  cases hc : s.cfg with
  | none => simp [withBlock, hc, Regular]
  | some c => rw [withBlock_some hc]; exact hk c hc

theorem regular_hostOperation {k : Cfg → Result} (hk : ∀ c, s.cfg = some c → Regular (k c)) :
    Regular (hostOperation s k) := by
  refine regular_withBlock fun c hc => ?_
  split
  · exact ⟨nofun, nofun, nofun⟩
  · exact hk c hc

theorem regular_onRow {k : Cfg → Result} (hi : ∀ c, s.cfg = some c → i.inConfig c = true)
    (hk : ∀ c, s.cfg = some c → Regular (k c)) : Regular (onRow i s k) := by
  refine regular_withBlock fun c hc => ?_
  split
  · split
    · exact ⟨nofun, nofun, nofun⟩
    · simpa [hi c hc] using hk c hc
  · exact ⟨nofun, nofun, nofun⟩

theorem regular_configure (n rw aw ba : Nat) (s : State) : Regular (exec (.configure n rw aw ba) s) := by
  simp only [exec, execConfigure]
  split
  · exact ⟨nofun, nofun, nofun⟩
  · split
    · exact ⟨nofun, nofun, nofun⟩
    · exact regular_next _

/-- Under the invariant an operation of the block's configuration performed whole finds every byte it reads or writes. -/
theorem regular_exec (hs : StateInv s) (hi : ∀ c, s.cfg = some c → i.inConfig c = true) : Regular (exec i s) := by
  rcases instr_kinds i with ⟨a, ha⟩ | ⟨a, v, hw⟩ | ⟨b, rfl⟩ | hresp | ⟨n, rw, aw, ba, rfl⟩ | rfl | ⟨a, rfl⟩ | ⟨a, d, rfl⟩ | rfl
  · rw [exec_of_selectOperand ha]
    exact regular_onRow hi fun _ _ => regular_next _
  · rw [exec_of_writeOperands hw]
    refine regular_onRow hi fun c hc => ?_
    obtain ⟨t, ht, -⟩ := writeRegister_effect (hs.block hc) a v
    rw [ht]
    exact regular_next t
  · rw [exec_ignore]
    exact regular_onRow hi fun _ _ => regular_next _
  · rw [exec_of_resp hresp]
    refine regular_onRow hi fun c hc => ?_
    obtain ⟨t, ht, -⟩ := respond_effect (hs.block hc)
    rw [ht]
    exact regular_next t
  · exact regular_configure n rw aw ba s
  · exact regular_hostOperation fun _ _ => regular_next _
  · rw [exec_get]
    refine regular_hostOperation fun c hc => ?_
    obtain ⟨bs, hbs, -⟩ := loadRegister_exists (hs.block hc) a
    exact regular_orOutside ⟨_, by rw [hbs, Option.map_some]⟩
  · rw [exec_set]
    exact regular_hostOperation fun c hc => regular_orOutside (storeRegister_exists (hs.block hc) a d)
  · exact regular_hostOperation fun _ _ => regular_next _

/-- The same for an operation started, which either touches no byte yet or is performed at once. -/
theorem regular_startInstr (hs : StateInv s) (hi : ∀ c, s.cfg = some c → i.inConfig c = true) :
    Regular (startInstr i s) := by
  rcases instr_kinds i with ⟨a, ha⟩ | ⟨a, v, hw⟩ | ⟨b, rfl⟩ | hresp | ⟨n, rw, aw, ba, rfl⟩ | rfl | ⟨a, rfl⟩ | ⟨a, d, rfl⟩ | rfl
  · rw [startInstr_of_selectOperand ha]
    exact regular_exec hs hi
  · rw [startInstr_of_writeOperands hw]
    exact regular_onRow hi fun _ _ => regular_next _
  · exact regular_exec hs hi
  · rw [startInstr_of_resp hresp]
    exact regular_onRow hi fun _ _ => regular_next _
  · exact regular_configure n rw aw ba s
  · exact regular_exec hs hi
  · rw [startInstr_get]
    exact regular_hostOperation fun _ _ => regular_next _
  · rw [startInstr_set]
    exact regular_hostOperation fun _ _ => regular_next _
  · exact regular_exec hs hi

theorem regular_present {run : Instr → State → Result} {o : Operation}
    (hrun : ∀ i, (∀ c, s.cfg = some c → i.inConfig c = true) → Regular (run i s)) : Regular (present run o s) := by
  unfold present
  split
  · rename_i i hd
    exact hrun i fun c hc => decode_inConfig (hc ▸ hd)
  · exact ⟨nofun, nofun, nofun⟩
  · exact ⟨nofun, nofun, nofun⟩

/-- Under the invariant the byte that the next event stores exists. -/
theorem storeByte_pick_exists (hs : BlockInv c s) {x : Access} (hx : x.ok c) {j k : Nat} {rest : List Nat}
    (hp : pick x.todo j = some (k, rest)) (f : State → State) : ∃ t, (storeByte c x k s).map f = some t := by
  obtain ⟨t, ht⟩ := storeByte_exists hs hx (pick_some hp).1
  exact ⟨f t, by rw [ht, Option.map_some]⟩

/-- Under the invariant the byte that the next event reads exists. -/
theorem loadByte_pick_exists (hs : BlockInv c s) {x : Access} (hx : x.ok c) {j k : Nat} {rest : List Nat}
    (hp : pick x.todo j = some (k, rest)) (f : List Byte → State) : ∃ t, (loadByte c x k s).map f = some t := by
  obtain ⟨bs, hbs⟩ := loadByte_exists hs hx (pick_some hp).1
  exact ⟨f bs, by rw [hbs, Option.map_some]⟩

theorem regular_busEvent (hs : StateInv s) (j : Nat) : Regular (busEvent j s) := by
  unfold busEvent
  split
  · exact regular_next s
  · rename_i x hx
    refine regular_withBlock fun c hc => ?_
    unfold busWriteEvent
    split
    · rename_i k rest hp
      exact regular_orOutside (storeByte_pick_exists (hs.block hc) ((hs.block hc).bus _ hx) hp _)
    · exact regular_next _
  · rename_i x hx
    refine regular_withBlock fun c hc => ?_
    unfold busRespondEvent
    split
    · rename_i k rest hp
      exact regular_orOutside (loadByte_pick_exists (hs.block hc) ((hs.block hc).bus _ hx) hp _)
    · exact regular_next _

theorem regular_hostEvent (hs : StateInv s) (j : Nat) : Regular (hostEvent j s) := by
  unfold hostEvent
  split
  · exact regular_next s
  · rename_i x hx
    refine regular_withBlock fun c hc => ?_
    unfold hostGetEvent
    split
    · rename_i k rest hp
      exact regular_orOutside (loadByte_pick_exists (hs.block hc) ((hs.block hc).host _ hx) hp _)
    · exact regular_next _
  · rename_i x hx
    refine regular_withBlock fun c hc => ?_
    unfold hostSetEvent
    split
    · rename_i k rest hp
      exact regular_orOutside (storeByte_pick_exists (hs.block hc) ((hs.block hc).host _ hx) hp _)
    · exact regular_next _

theorem regular_takeTurn (hs : StateInv s) (tn : Turn) : Regular (takeTurn tn s) := by
  cases tn with
  | op o => exact regular_present fun _ hi => regular_exec hs hi
  | start o => exact regular_present fun _ hi => regular_startInstr hs hi
  | busEvent j => exact regular_busEvent hs j
  | hostEvent j => exact regular_hostEvent hs j

/-- The invariant does not speak of the turns presented. -/
theorem StateInv.setTurns (hs : StateInv s) (ts : List Turn) : StateInv (s.setTurns ts) := by
  cases hc : s.cfg with
  | none =>
    simp only [StateInv, State.setTurns_cfg, hc] at hs ⊢
    exact ⟨hs.buf, hs.pra, hs.cf, hs.active, hs.busFlight, hs.hostFlight⟩
  | some c =>
    simp only [StateInv, State.setTurns_cfg, hc] at hs ⊢
    exact ⟨hs.legal, hs.buffer, hs.pra, hs.flags, hs.active, hs.bus, hs.host⟩

end Inside

/-- Settles O33: a decoded row is one of the block's configuration, and under the invariant each register access, whole or byte
by byte, finds its bytes. -/
theorem noAccessLeavesTheBuffer : Obligations.NoAccessLeavesTheBuffer := by
  intro s hs
  change Regular (step s)
  cases hts : s.turns with
  | nil => rw [step_nil hts]; exact regular_next s
  | cons tn ts => rw [step_cons hts]; exact regular_takeTurn (hs.setTurns ts) tn

/-! ## Storing what is already there (R46) -/

section Repeat

variable {s t u : State} {c : Cfg} {i : Instr} {a : Addr} {v : Value}

/-- Writing the byte that is there gives the same buffer, cell for cell. -/
theorem Memory.write_of_read {m : Memory} {k : Nat} {b : Byte} (h : m.read k = some b) : m.write k b = some m := by
  induction m with
  | nil => cases h
  | cons p m ih =>
    obtain ⟨off, b'⟩ := p
    by_cases hk : off = k
    · simp only [Memory.read, hk, if_true, Option.some.injEq] at h
      simp [Memory.write, hk, h]
    · simp only [Memory.read, hk, if_false] at h
      simp [Memory.write, hk, ih h]

theorem Memory.writeBytes_of_read {m : Memory} {off : Nat} {bs : List Byte}
    (h : ∀ j < bs.length, m.read (off + j) = bs[j]?) : m.writeBytes off bs = some m := by
  induction bs generalizing off with
  | nil => rfl
  | cons b bs ih =>
    have hb : m.write off b = some m := Memory.write_of_read (by simpa using h 0 (by simp))
    simp only [Memory.writeBytes, hb]
    refine ih fun j hj => ?_
    rw [show off + 1 + j = off + (j + 1) by omega, h (j + 1) (by simpa using hj), List.getElem?_cons_succ]

/-- A store to a register that holds the value already changes nothing. -/
theorem storeRegister_of_holdsValue (h : inRange c a = true → HoldsValue c a v s.buf) :
    storeRegister c s a v = some s := by
  rw [storeRegister_eq_map]
  split
  · rename_i hr
    rw [Memory.writeBytes_of_read]
    · rfl
    · intro j hj
      rw [valueBytes_length] at hj
      rw [valueBytes_getElem? c v hj, ← h hr j hj]
      rfl
  · rfl

/-- The second of two stores of one value to one register changes nothing. -/
theorem storeRegister_again (h : storeRegister c s a v = some u) (hb : t.buf = u.buf) :
    storeRegister c t a v = some t :=
  storeRegister_of_holdsValue fun hr => hb ▸ (storeRegister_holds h hr).1

@[simp] theorem drainFlag_buf (s : State) : (drainFlag s).buf = s.buf := by
  rcases drainFlag_cases s with ⟨i, -, -, -, h⟩ | ⟨-, h⟩ <;> rw [h] <;> rfl

/-- A WRITE repeated at once stores what its register holds. -/
theorem exec_write_again (hw : writeOperands i = some (a, v)) (h₁ : exec i s = .next t) (h₂ : exec i t = .next u) :
    u.buf = t.buf := by
  obtain ⟨c, hr, -, -⟩ := onRow_next (exec_of_writeOperands hw s ▸ h₁)
  obtain ⟨w₁, hw₁, rfl⟩ := exec_write_next hr.1 hw h₁
  obtain ⟨w₂, hw₂, rfl⟩ := exec_write_next (exec_write_cfg hr.1 hw h₁) hw h₂
  rw [storeRegister_again hw₁ (notify_buf c a w₁)] at hw₂
  cases hw₂
  exact notify_buf c a _

/-- A SET that completes stores its value (R103). -/
theorem exec_set_next {d : Value} (hc : s.cfg = some c) (h : exec (.set a d) s = .next t) :
    storeRegister c s a d = some t := by
  obtain ⟨c', ⟨hc', -⟩, hk⟩ := hostOperation_next h
  obtain rfl : c' = c := Option.some.inj (hc'.symm.trans hc)
  exact orOutside_next hk

/-- A SET repeated at once stores what its register holds. -/
theorem exec_set_again {d : Value} (h₁ : exec (.set a d) s = .next t) (h₂ : exec (.set a d) t = .next u) :
    u.buf = t.buf := by
  obtain ⟨c, hr, -⟩ := hostOperation_next h₁
  have hst := exec_set_next hr.1 h₁
  have htu := exec_set_next ((storeRegister_cfg hst).trans hr.1) h₂
  rw [storeRegister_again hst rfl] at htu
  cases htu
  rfl

/-- A CONFIGURE that completes creates a block where there was none (R100, R129). -/
theorem exec_configure_next {n rw aw ba : Nat} (h : exec (.configure n rw aw ba) s = .next t) :
    s.cfg = none ∧ ∃ c, t = s.configured c := by
  simp only [exec, execConfigure] at h
  split at h
  · cases h
  · split at h
    · cases h
    · rename_i hs
      cases h
      exact ⟨Option.not_isSome_iff_eq_none.1 hs, _, rfl⟩

end Repeat

/-- Settles O41: a WRITE or SET repeated at once stores what its register holds, a second CONFIGURE has no next state, and no
other operation writes the buffer. -/
theorem repeatedOperationKeepsBuffer : Obligations.RepeatedOperationKeepsBuffer := by
  intro s t u i h₁ h₂
  rcases exec_next h₂ with ⟨_, a, -, -, -, rfl⟩ | ⟨_, a, v, _, -, -, hw, -, -⟩ | ⟨_, b, -, -, -, rfl⟩ |
    ⟨_, bs, -, -, -, -, rfl⟩ | ⟨_, n, rw, aw, ba, hnone, -, rfl, -⟩ | ⟨_, -, -, rfl⟩ | ⟨_, a, bs, -, -, -, rfl⟩ |
    ⟨_, a, d, -, rfl, -⟩ | ⟨_, -, -, rfl⟩
  · rfl
  · exact exec_write_again hw h₁ h₂
  · rfl
  · rfl
  · obtain ⟨-, c, rfl⟩ := exec_configure_next h₁
    cases hnone
  · rfl
  · rfl
  · exact exec_set_again h₁ h₂
  · exact drainFlag_buf t

/-! ## A run of turns -/

section Run

variable {s t u : State} {c : Cfg} {i : Instr} {a : Addr} {v : Value} {tn : Turn} {ts : List Turn}

@[simp] theorem notify_turns (c : Cfg) (a : Addr) (s : State) : (notify c a s).turns = s.turns := by rw [notify_eq]; rfl

theorem storeRegister_turns (h : storeRegister c s a v = some t) : t.turns = s.turns := by
  rw [(storeRegister_some h).1, State.setBuf_turns]

theorem storeByte_turns {x : Access} {k : Nat} (h : storeByte c x k s = some t) : t.turns = s.turns := by
  rw [(storeByte_some h).1, State.setBuf_turns]

@[simp] theorem drainFlag_turns (s : State) : (drainFlag s).turns = s.turns := by
  rcases drainFlag_cases s with ⟨i, -, -, -, h⟩ | ⟨-, h⟩ <;> rw [h] <;> rfl

theorem exec_turns (h : exec i s = .next t) : t.turns = s.turns := by
  rcases exec_next h with ⟨_, a, -, -, -, rfl⟩ | ⟨_, a, v, u, -, -, -, hu, rfl⟩ | ⟨_, b, -, -, -, rfl⟩ |
    ⟨_, bs, -, -, -, -, rfl⟩ | ⟨_, n, rw, aw, ba, -, -, -, rfl⟩ | ⟨_, -, -, rfl⟩ | ⟨_, a, bs, -, -, -, rfl⟩ |
    ⟨_, a, d, -, -, hu⟩ | ⟨_, -, -, rfl⟩
  · rfl
  · exact (notify_turns _ a u).trans (storeRegister_turns hu)
  · rfl
  · rfl
  · rfl
  · rfl
  · rfl
  · exact storeRegister_turns hu
  · exact drainFlag_turns s

theorem startInstr_turns (h : startInstr i s = .next t) : t.turns = s.turns := by
  rcases startInstr_next h with ⟨_, a, v, -, -, -, rfl⟩ | ⟨_, -, -, -, rfl⟩ | ⟨_, a, -, -, rfl⟩ | ⟨_, a, d, -, -, rfl⟩ | h
  · rfl
  · rfl
  · rfl
  · rfl
  · exact exec_turns h

theorem busEvent_turns {j : Nat} (h : busEvent j s = .next t) : t.turns = s.turns := by
  rcases busEvent_next h with ⟨-, rfl⟩ | ⟨_, x, k, rest, u, -, -, -, hu, rfl⟩ | ⟨_, x, -, -, -, rfl⟩ |
    ⟨_, x, k, rest, bs, -, -, -, -, rfl⟩ | ⟨x, -, -, rfl⟩
  · rfl
  · exact (State.setBusFlight_turns u _).trans (storeByte_turns hu)
  · exact notify_turns _ x.addr s
  · rfl
  · rfl

theorem hostEvent_turns {j : Nat} (h : hostEvent j s = .next t) : t.turns = s.turns := by
  rcases hostEvent_next h with ⟨-, rfl⟩ | ⟨_, x, k, rest, bs, -, -, -, -, rfl⟩ | ⟨x, -, -, rfl⟩ |
    ⟨_, x, k, rest, u, -, -, -, hu, rfl⟩ | ⟨x, -, -, rfl⟩
  · rfl
  · rfl
  · rfl
  · exact (State.setHostFlight_turns u _).trans (storeByte_turns hu)
  · rfl

/-- No turn presents another: the list of turns is the environment's alone (log 6). -/
theorem takeTurn_turns (h : takeTurn tn s = .next t) : t.turns = s.turns := by
  cases tn with
  | op o => obtain ⟨i, -, hi⟩ := present_next h; exact exec_turns hi
  | start o => obtain ⟨i, -, hi⟩ := present_next h; exact startInstr_turns hi
  | busEvent j => exact busEvent_turns h
  | hostEvent j => exact hostEvent_turns h

/-- A run does one step, then the others from where it led. -/
theorem core_run_succ {M : Host.Core} {k : Nat} {s u : M.State} (h : M.step s = .next u) : M.run (k + 1) s = M.run k u := by
  simp only [Host.Core.run, h]

theorem core_run_succ_next {M : Host.Core} {k : Nat} {s t : M.State} (h : M.run (k + 1) s = .next t) :
    ∃ u, M.step s = .next u ∧ M.run k u = .next t := by
  cases hu : M.step s with
  | next u => exact ⟨u, rfl, core_run_succ hu ▸ h⟩
  | fault r => simp only [Host.Core.run, hu] at h; cases h
  | refused r => simp only [Host.Core.run, hu] at h; cases h

theorem setTurns_of_takeTurn (h : takeTurn tn (s.setTurns ts) = .next u) : u.setTurns ts = u := by
  rw [← State.setTurns_turns s ts, ← takeTurn_turns h]
  rfl

/-- A run over a list of turns does the first turn, then runs over the others. -/
theorem runTurns_cons (h : takeTurn tn (s.setTurns ts) = .next u) : runTurns (tn :: ts) s = runTurns ts u :=
  (core_run_succ (M := core) (s := s.setTurns (tn :: ts)) h).trans
    (congrArg (core.run ts.length) (setTurns_of_takeTurn h).symm)

/-- The same, where the turn leads to u with the other turns still presented. -/
theorem runTurns_cons_setTurns (h : takeTurn tn (s.setTurns ts) = .next (u.setTurns ts)) :
    runTurns (tn :: ts) s = runTurns ts u := runTurns_cons (u := u.setTurns ts) h

theorem runTurns_cons_next (h : runTurns (tn :: ts) s = .next t) :
    ∃ u, takeTurn tn (s.setTurns ts) = .next u ∧ runTurns ts u = .next t := by
  obtain ⟨u, hu, -⟩ := core_run_succ_next (M := core) (s := s.setTurns (tn :: ts)) h
  exact ⟨u, hu, runTurns_cons hu ▸ h⟩

/-- What holds at the start and is kept by each of the turns holds at the end of the run. -/
theorem runTurns_invariant {P : State → Prop} (hturns : ∀ {s} ts, P s → P (s.setTurns ts))
    (hstep : ∀ tn ∈ ts, ∀ {s t}, P s → takeTurn tn s = .next t → P t) (hs : P s) (h : runTurns ts s = .next t) : P t := by
  induction ts generalizing s with
  | nil => cases h; exact hturns [] hs
  | cons tn ts ih =>
    obtain ⟨u, hu, h⟩ := runTurns_cons_next h
    exact ih (fun tn' htn' => hstep tn' (List.mem_cons_of_mem _ htn')) (hstep tn List.mem_cons_self (hturns ts hs) hu) h

/-- The same for a run of event turns only. -/
theorem runTurns_events {P : State → Prop} (hturns : ∀ {s} ts, P s → P (s.setTurns ts))
    (hbus : ∀ {s t} j, P s → busEvent j s = .next t → P t) (hhost : ∀ {s t} j, P s → hostEvent j s = .next t → P t)
    (hts : ∀ tn ∈ ts, ∃ j, tn = .busEvent j ∨ tn = .hostEvent j) (hs : P s) (h : runTurns ts s = .next t) : P t := by
  refine runTurns_invariant hturns (fun tn htn {s t} hs h => ?_) hs h
  obtain ⟨j, rfl | rfl⟩ := hts tn htn
  · exact hbus j hs h
  · exact hhost j hs h

end Run

/-! ## A WRITE's flag event and a DRAIN (R49) -/

section Flags

variable {s : State} {c : Cfg}

theorem busEvent_write {x : Access} (hc : s.cfg = some c) (hf : s.busFlight = some (.write x)) (j : Nat) :
    busEvent j s = busWriteEvent c x j s := by simp [busEvent, hf, withBlock_some hc]

/-- A WRITE with no byte left to store raises its flag and ends (R51). -/
theorem busEvent_flag {x : Access} (hc : s.cfg = some c) (hf : s.busFlight = some (.write x)) (hx : x.todo = []) (j : Nat) :
    busEvent j s = .next ((notify c x.addr s).setBusFlight none) := by
  rw [busEvent_write hc hf, busWriteEvent, hx]
  rfl

/-- A DRAIN presented to a block that no HOST operation occupies takes a flag. -/
theorem takeTurn_drain (h : HostReady c s) : takeTurn (.op .drain) s = .next (drainFlag s) := by
  have hd : decode s.cfg .drain = .instr .drain := by rw [h.1]; rfl
  rw [takeTurn, present_instr hd, exec_drain, hostOperation_ready h]

@[simp] theorem drainFlag_cfg (s : State) : (drainFlag s).cfg = s.cfg := by
  rcases drainFlag_cases s with ⟨i, -, -, -, h⟩ | ⟨-, h⟩ <;> rw [h] <;> rfl

@[simp] theorem drainFlag_busFlight (s : State) : (drainFlag s).busFlight = s.busFlight := by
  rcases drainFlag_cases s with ⟨i, -, -, -, h⟩ | ⟨-, h⟩ <;> rw [h] <;> rfl

@[simp] theorem drainFlag_hostFlight (s : State) : (drainFlag s).hostFlight = s.hostFlight := by
  rcases drainFlag_cases s with ⟨i, -, -, -, h⟩ | ⟨-, h⟩ <;> rw [h] <;> rfl

/-- A DRAIN clears only the flag that it returns (R104). -/
theorem drainFlag_keeps_or_returns (s : State) {k : Nat} (hk : s.cf.getLsbD k = true) :
    (drainFlag s).cf.getLsbD k = true ∨ (drainFlag s).result = some (.drained true (BitVec.ofNat 5 k)) := by
  rcases drainFlag_cases s with ⟨i, -, -, -, h⟩ | ⟨h0, -⟩
  · by_cases hki : k = i
    · subst hki; right; rw [h]; rfl
    · left; simp [h, clearFlag_getLsbD, hk, hki]
  · simp [h0] at hk

/-- A DRAIN sets no flag (R104, R128). -/
theorem drainFlag_sets_none (s : State) {k : Nat} (hk : (drainFlag s).cf.getLsbD k = true) : s.cf.getLsbD k = true := by
  rcases drainFlag_cases s with ⟨i, -, -, -, h⟩ | ⟨-, h⟩
  · rw [h, State.setResult_cf, State.setCf_cf, clearFlag_getLsbD, Bool.and_eq_true] at hk
    exact hk.1
  · rw [h] at hk; exact hk

@[simp] theorem notify_result (c : Cfg) (a : Addr) (s : State) : (notify c a s).result = s.result := by rw [notify_eq]; rfl

@[simp] theorem notify_hostFlight (c : Cfg) (a : Addr) (s : State) : (notify c a s).hostFlight = s.hostFlight := by
  rw [notify_eq]; rfl

end Flags

/-- Settles O48: the flag event only adds a bit, and the DRAIN clears only the bit it returns. -/
theorem drainAndWriteLoseNoFlag : Obligations.DrainAndWriteLoseNoFlag := by
  intro c s x j hready hbus htodo hn h32
  constructor
  · have hdrain : takeTurn (.op .drain) (s.setTurns [.busEvent j]) = _ := takeTurn_drain (c := c) hready
    have hflag := busEvent_flag (s := (drainFlag (s.setTurns [.busEvent j])).setTurns [])
      ((drainFlag_cfg _).trans hready.1) ((drainFlag_busFlight _).trans hbus) htodo j
    refine ⟨_, (runTurns_cons hdrain).trans (runTurns_cons hflag), by simp [notify_cf, hn, h32], fun k _ hk => ?_⟩
    simp only [State.setTurns_cf, State.setTurns_result, State.setBusFlight_cf, State.setBusFlight_result, notify_cf,
      notify_result, Bool.or_eq_true]
    rcases hk with hk | rfl
    · exact (drainFlag_keeps_or_returns (s.setTurns [.busEvent j]) hk).imp_left .inl
    · exact .inl (.inr (by simp [hn, h32]))
  · have hflag : takeTurn (.busEvent j) (s.setTurns [.op .drain]) = _ :=
      busEvent_flag (s := s.setTurns [.op .drain]) hready.1 hbus htodo j
    have hdrain := takeTurn_drain (c := c) (s := ((notify c x.addr (s.setTurns [.op .drain])).setBusFlight none).setTurns [])
      ⟨(notify_cfg _ _ _).trans hready.1, (notify_hostFlight _ _ _).trans hready.2⟩
    refine ⟨_, (runTurns_cons hflag).trans (runTurns_cons hdrain), fun k _ hk => drainFlag_keeps_or_returns _ ?_⟩
    rcases hk with hk | rfl
    · simp [notify_cf, hk]
    · simp [notify_cf, hn, h32]

/-! ## Accesses in flight to one register, event by event (R47, R48) -/

section Accesses

variable {s t : State} {c : Cfg} {a : Addr} {v : Value} {p : Nat → Option Byte → Prop} {x : Access} {j k : Nat}
  {todo rest : List Nat}

/-- A pick leaves every byte still to do but the one picked. -/
theorem pick_mem_or (h : pick todo j = some (k, rest)) {l : Nat} (hl : l ∈ todo) : l = k ∨ l ∈ rest := by
  obtain ⟨-, i, -, hi, rfl⟩ := pick_some h
  obtain ⟨i', hi'⟩ := List.mem_iff_getElem?.1 hl
  by_cases he : i' = i
  · subst he; exact .inl (Option.some.inj (hi'.symm.trans hi))
  · exact .inr (List.mem_eraseIdx_iff_getElem?.2 ⟨i', he, hi'⟩)

/-- A pick adds no byte to those still to do. -/
theorem pick_subset (h : pick todo j = some (k, rest)) {l : Nat} (hl : l ∈ rest) : l ∈ todo := by
  obtain ⟨-, i, -, -, rfl⟩ := pick_some h
  exact List.mem_of_mem_eraseIdx hl

/-- The access stores v to register a; any of its bytes may be stored already. -/
def Access.Stores (c : Cfg) (a : Addr) (v : Value) (x : Access) : Prop :=
  x.addr = a ∧ x.data = valueBytes c v ∧ ∀ j ∈ x.todo, j < c.rw.bytes

/-- The access reads register a, and each byte it has read so far satisfies p. -/
def Access.Reads (c : Cfg) (a : Addr) (p : Nat → Option Byte → Prop) (x : Access) : Prop :=
  x.addr = a ∧ x.data.length = c.rw.bytes ∧ ∀ j < c.rw.bytes, j ∈ x.todo ∨ p j x.data[j]?

/-- RW bytes, each of which satisfies p. -/
def BytesAre (c : Cfg) (p : Nat → Option Byte → Prop) (bs : List Byte) : Prop :=
  bs.length = c.rw.bytes ∧ ∀ j < c.rw.bytes, p j bs[j]?

/-- Each byte of register a satisfies p. -/
def RegisterIs (c : Cfg) (a : Addr) (p : Nat → Option Byte → Prop) (m : Memory) : Prop :=
  ∀ j < c.rw.bytes, p j (m.read (byteOffset c a j))

/-- The byte is byte j of register a as the buffer m holds it, or byte j of v. -/
def OldOrNew (c : Cfg) (a : Addr) (m : Memory) (v : Value) (j : Nat) (b : Option Byte) : Prop :=
  b = m.read (byteOffset c a j) ∨ b = some (v.extractLsb' (8 * j) 8)

/-- The buffers differ by byte k of register a, which is byte k of v in the second. -/
def StoresByte (c : Cfg) (a : Addr) (v : Value) (k : Nat) (m m' : Memory) : Prop :=
  ∀ i, m'.read i = if i = byteOffset c a k then some (v.extractLsb' (8 * k) 8) else m.read i

theorem writing_inRange (h : a.toNat < c.n) (v : Value) :
    Access.writing c a v = ⟨a, valueBytes c v, List.range c.rw.bytes⟩ := by simp [Access.writing, inRange, h]

theorem reading_inRange (h : a.toNat < c.n) :
    Access.reading c a = ⟨a, zeros c.rw.bytes, List.range c.rw.bytes⟩ := by simp [Access.reading, inRange, h]

theorem writing_stores (c : Cfg) (a : Addr) (v : Value) : (Access.writing c a v).Stores c a v := by
  refine ⟨rfl, rfl, fun j hj => ?_⟩
  by_cases hr : inRange c a = true
  · exact List.mem_range.1 (by simpa [Access.writing, hr] using hj)
  · simp [Access.writing, hr] at hj

theorem reading_reads (h : a.toNat < c.n) (p : Nat → Option Byte → Prop) : (Access.reading c a).Reads c a p := by
  rw [reading_inRange h]
  exact ⟨rfl, zeros_length _, fun j hj => .inl (List.mem_range.2 hj)⟩

/-- Bytes of different registers have different offsets (R25, R45). -/
theorem byteOffset_inj {a b : Addr} (hj : j < c.rw.bytes) (hk : k < c.rw.bytes)
    (h : byteOffset c a j = byteOffset c b k) : a = b := by
  have quot : ∀ (d : Addr) {i : Nat}, i < c.rw.bytes → byteOffset c d i / c.rw.bytes = d.toNat := fun d i hi => by
    rw [byteOffset, Nat.mul_comm, Nat.mul_add_div c.rw.bytes_pos, Nat.div_eq_of_lt hi, Nat.add_zero]
  exact BitVec.eq_of_toNat_eq ((quot a hj).symm.trans (h ▸ quot b hk))

theorem StoresByte.read {m m' : Memory} (h : StoresByte c a v k m m') (j : Nat) :
    m'.read (byteOffset c a j) = if j = k then some (v.extractLsb' (8 * k) 8) else m.read (byteOffset c a j) := by
  rw [h]
  simp only [byteOffset, Nat.add_left_cancel_iff]

theorem StoresByte.sameOutside {m m' : Memory} (h : StoresByte c a v k m m') (hk : k < c.rw.bytes) :
    SameOutside c a m m' := fun i hi => by rw [h, if_neg (hi k hk)]

/-- A byte stored keeps what holds of each byte of the register, if it holds of the stored one. -/
theorem StoresByte.registerIs {m m' : Memory} (h : StoresByte c a v k m m')
    (hp : p k (some (v.extractLsb' (8 * k) 8))) (hm : RegisterIs c a p m) : RegisterIs c a p m' := fun j hj => by
  rw [h.read]
  split
  · subst j; exact hp
  · exact hm j hj

/-- One store event of an access that stores v to register a: a byte of v goes to its place there. -/
theorem Access.Stores.storeByte (hx : x.Stores c a v) (hp : pick x.todo j = some (k, rest))
    (h : storeByte c x k s = some t) :
    k < c.rw.bytes ∧ (x.advance rest).Stores c a v ∧ StoresByte c a v k s.buf t.buf := by
  obtain ⟨rfl, hdata, htodo⟩ := hx
  have hk : k < c.rw.bytes := htodo k (pick_some hp).1
  obtain ⟨-, -, b, hb, hread⟩ := storeByte_some h
  rw [hdata, valueBytes_getElem? c v hk] at hb
  cases hb
  exact ⟨hk, ⟨rfl, hdata, fun l hl => htodo l (pick_subset hp hl)⟩, hread⟩

/-- One read event of an access that reads register a takes a byte that satisfies p, if each byte there does. -/
theorem Access.Reads.loadByte {bs : List Byte} (hx : x.Reads c a p) (hs : RegisterIs c a p s.buf)
    (hp : pick x.todo j = some (k, rest)) (h : loadByte c x k s = some bs) :
    Access.Reads c a p ⟨x.addr, bs, rest⟩ := by
  obtain ⟨rfl, hlen, hread⟩ := hx
  obtain ⟨b, hb, rfl⟩ := loadByte_some h
  refine ⟨rfl, by simp [hlen], fun l hl => ?_⟩
  by_cases hlk : l = k
  · subst hlk
    right
    rw [List.getElem?_set_self (hlen ▸ hl), ← hb]
    exact hs l hl
  · rcases hread l hl with hmem | hpl
    · exact .inl ((pick_mem_or hp hmem).resolve_left hlk)
    · exact .inr (by rw [List.getElem?_set_ne (Ne.symm hlk)]; exact hpl)

/-- An access that has read every byte holds bytes that satisfy p. -/
theorem Access.Reads.bytesAre (hx : x.Reads c a p) (h : x.todo = []) : BytesAre c p x.data := by
  obtain ⟨-, hlen, hread⟩ := hx
  exact ⟨hlen, fun l hl => (hread l hl).resolve_left (by simp [h])⟩

end Accesses

/-! ## What one event of each kind of operation in flight does -/

section FlightEvents

variable {s t : State} {c : Cfg} {a : Addr} {v : Value} {p : Nat → Option Byte → Prop} {x : Access} {j : Nat}

theorem busEvent_respond (hc : s.cfg = some c) (hf : s.busFlight = some (.respond x)) (j : Nat) :
    busEvent j s = busRespondEvent c x j s := by simp [busEvent, hf, withBlock_some hc]

theorem hostEvent_get (hc : s.cfg = some c) (hf : s.hostFlight = some (.get x)) (j : Nat) :
    hostEvent j s = hostGetEvent c x j s := by simp [hostEvent, hf, withBlock_some hc]

theorem hostEvent_set (hc : s.cfg = some c) (hf : s.hostFlight = some (.set x)) (j : Nat) :
    hostEvent j s = hostSetEvent c x j s := by simp [hostEvent, hf, withBlock_some hc]

theorem busEvent_none (hf : s.busFlight = none) (j : Nat) : busEvent j s = .next s := by simp [busEvent, hf]

theorem hostEvent_none (hf : s.hostFlight = none) (j : Nat) : hostEvent j s = .next s := by simp [hostEvent, hf]

/-- The BUS has no operation in flight but a WRITE of v to register a. -/
def BusStores (c : Cfg) (a : Addr) (v : Value) (f : Option BusFlight) : Prop :=
  ∀ g, f = some g → ∃ x, g = .write x ∧ x.Stores c a v

/-- The HOST has no operation in flight but a SET of v to register a. -/
def HostStores (c : Cfg) (a : Addr) (v : Value) (f : Option HostFlight) : Prop :=
  ∀ g, f = some g → ∃ x, g = .set x ∧ x.Stores c a v

/-- Byte j of the BUS operation in flight is still to do. -/
def BusPending (f : Option BusFlight) (j : Nat) : Prop := ∃ g, f = some g ∧ j ∈ g.access.todo

/-- The HOST has a GET of register a in flight whose bytes read satisfy p, or has returned such bytes. -/
def HostGets (c : Cfg) (a : Addr) (p : Nat → Option Byte → Prop) (f : Option HostFlight) (r : Option HostResult) : Prop :=
  (∃ x, f = some (.get x) ∧ x.Reads c a p) ∨ (f = none ∧ ∃ got, r = some (.value (hostValue got)) ∧ BytesAre c p got)

/-- The BUS has a TX_REQUEST of register a in flight whose bytes read satisfy p, or has emitted such bytes. -/
def BusResponds (c : Cfg) (a : Addr) (p : Nat → Option Byte → Prop) (f : Option BusFlight) (r : Option (List Byte)) :
    Prop :=
  (∃ x, f = some (.respond x) ∧ x.Reads c a p) ∨ (f = none ∧ ∃ got, r = some got ∧ BytesAre c p got)

theorem busStores_none (c : Cfg) (a : Addr) (v : Value) : BusStores c a v none := nofun

theorem busStores_write (hx : x.Stores c a v) : BusStores c a v (some (.write x)) :=
  fun _ hg => ⟨x, (Option.some.inj hg).symm, hx⟩

theorem hostStores_set (hx : x.Stores c a v) : HostStores c a v (some (.set x)) :=
  fun _ hg => ⟨x, (Option.some.inj hg).symm, hx⟩

theorem not_busPending_none (j : Nat) : ¬ BusPending none j := nofun

/-- What one BUS event does while the BUS has no operation in flight but a WRITE of v to register a: it stores a byte of v that
was to be stored, or, with none left, it ends the WRITE. -/
structure BusStoreEvent (c : Cfg) (a : Addr) (v : Value) (s t : State) : Prop where
  cfg : t.cfg = s.cfg
  hostFlight : t.hostFlight = s.hostFlight
  result : t.result = s.result
  stores : BusStores c a v t.busFlight
  effect : (t.busFlight = none ∧ t.buf = s.buf ∧ ∀ l, ¬ BusPending s.busFlight l) ∨
    (t.cf = s.cf ∧ ∃ k < c.rw.bytes, StoresByte c a v k s.buf t.buf ∧
      ∀ l, BusPending s.busFlight l → l = k ∨ BusPending t.busFlight l)

/-- What one HOST event does while the HOST has no operation in flight but a SET of v to register a. -/
structure HostStoreEvent (c : Cfg) (a : Addr) (v : Value) (s t : State) : Prop where
  cfg : t.cfg = s.cfg
  busFlight : t.busFlight = s.busFlight
  response : t.response = s.response
  stores : HostStores c a v t.hostFlight
  effect : t.buf = s.buf ∨ ∃ k < c.rw.bytes, StoresByte c a v k s.buf t.buf

theorem busEvent_stores (hc : s.cfg = some c) (hs : BusStores c a v s.busFlight) (h : busEvent j s = .next t) :
    BusStoreEvent c a v s t := by
  cases hf : s.busFlight with
  | none =>
    rw [busEvent_none hf] at h
    cases h
    exact ⟨rfl, rfl, rfl, hs, .inl ⟨hf, rfl, fun l => hf ▸ not_busPending_none l⟩⟩
  | some f =>
    obtain ⟨x, rfl, hx⟩ := hs f hf
    rw [busEvent_write hc hf, busWriteEvent] at h
    split at h
    · rename_i k rest hp
      obtain ⟨u, hu, rfl⟩ := Option.map_eq_some_iff.1 (orOutside_next h)
      obtain ⟨hk, hadv, hbyte⟩ := hx.storeByte hp hu
      obtain ⟨hframe, -, -⟩ := storeByte_some hu
      refine ⟨by rw [hframe]; rfl, by rw [hframe]; rfl, by rw [hframe]; rfl, busStores_write hadv, .inr
        ⟨by rw [hframe]; rfl, k, hk, hbyte, fun l hl => ?_⟩⟩
      obtain ⟨g, hg, hl⟩ := hl
      cases hf.symm.trans hg
      exact (pick_mem_or hp hl).imp_right fun hl => ⟨_, rfl, hl⟩
    · rename_i hp
      cases h
      refine ⟨notify_cfg _ _ _, notify_hostFlight _ _ _, notify_result _ _ _, busStores_none c a v,
        .inl ⟨rfl, notify_buf _ _ _, fun l hl => ?_⟩⟩
      obtain ⟨g, hg, hl⟩ := hl
      cases hf.symm.trans hg
      simp [BusFlight.access, pick_none.1 hp] at hl

theorem hostEvent_stores (hc : s.cfg = some c) (hs : HostStores c a v s.hostFlight) (h : hostEvent j s = .next t) :
    HostStoreEvent c a v s t := by
  cases hf : s.hostFlight with
  | none =>
    rw [hostEvent_none hf] at h
    cases h
    exact ⟨rfl, rfl, rfl, hs, .inl rfl⟩
  | some f =>
    obtain ⟨x, rfl, hx⟩ := hs f hf
    rw [hostEvent_set hc hf, hostSetEvent] at h
    split at h
    · rename_i k rest hp
      obtain ⟨u, hu, rfl⟩ := Option.map_eq_some_iff.1 (orOutside_next h)
      obtain ⟨hk, hadv, hbyte⟩ := hx.storeByte hp hu
      obtain ⟨hframe, -, -⟩ := storeByte_some hu
      exact ⟨by rw [hframe]; rfl, by rw [hframe]; rfl, by rw [hframe]; rfl, hostStores_set hadv, .inr ⟨k, hk, hbyte⟩⟩
    · cases h
      exact ⟨rfl, rfl, rfl, nofun, .inl rfl⟩

/-- One HOST event while a GET of register a is in flight or has returned: nothing but the GET goes on. -/
theorem hostEvent_gets (hc : s.cfg = some c) (hm : RegisterIs c a p s.buf) (hs : HostGets c a p s.hostFlight s.result)
    (h : hostEvent j s = .next t) :
    t.cfg = s.cfg ∧ t.busFlight = s.busFlight ∧ t.buf = s.buf ∧ HostGets c a p t.hostFlight t.result := by
  rcases id hs with ⟨x, hf, hx⟩ | ⟨hf, -⟩
  · rw [hostEvent_get hc hf, hostGetEvent] at h
    split at h
    · rename_i k rest hp
      obtain ⟨bs, hbs, rfl⟩ := Option.map_eq_some_iff.1 (orOutside_next h)
      exact ⟨rfl, rfl, rfl, .inl ⟨_, rfl, hx.loadByte hm hp hbs⟩⟩
    · rename_i hp
      cases h
      exact ⟨rfl, rfl, rfl, .inr ⟨rfl, x.data, rfl, hx.bytesAre (pick_none.1 hp)⟩⟩
  · rw [hostEvent_none hf] at h
    cases h
    exact ⟨rfl, rfl, rfl, hs⟩

/-- One BUS event while a TX_REQUEST of register a is in flight or has been answered: nothing but the TX_REQUEST goes on. -/
theorem busEvent_responds (hc : s.cfg = some c) (hm : RegisterIs c a p s.buf)
    (hs : BusResponds c a p s.busFlight s.response) (h : busEvent j s = .next t) :
    t.cfg = s.cfg ∧ t.hostFlight = s.hostFlight ∧ t.buf = s.buf ∧ BusResponds c a p t.busFlight t.response := by
  rcases id hs with ⟨x, hf, hx⟩ | ⟨hf, -⟩
  · rw [busEvent_respond hc hf, busRespondEvent] at h
    split at h
    · rename_i k rest hp
      obtain ⟨bs, hbs, rfl⟩ := Option.map_eq_some_iff.1 (orOutside_next h)
      exact ⟨rfl, rfl, rfl, .inl ⟨_, rfl, hx.loadByte hm hp hbs⟩⟩
    · rename_i hp
      cases h
      exact ⟨rfl, rfl, rfl, .inr ⟨rfl, x.data, rfl, hx.bytesAre (pick_none.1 hp)⟩⟩
  · rw [busEvent_none hf] at h
    cases h
    exact ⟨rfl, rfl, rfl, hs⟩

end FlightEvents

/-! ## Torn reads (R48) -/

section Torn

variable {s t : State} {c : Cfg} {a : Addr} {v : Value} {p : Nat → Option Byte → Prop} {j : Nat}

/-- A GET of register a races a WRITE of v to it, and each byte the register holds or the GET has read satisfies p. -/
structure TornGet (c : Cfg) (a : Addr) (v : Value) (p : Nat → Option Byte → Prop) (s : State) : Prop where
  cfg : s.cfg = some c
  register : RegisterIs c a p s.buf
  bus : BusStores c a v s.busFlight
  host : HostGets c a p s.hostFlight s.result

theorem TornGet.busEvent (hp : ∀ k, p k (some (v.extractLsb' (8 * k) 8))) (hs : TornGet c a v p s)
    (h : busEvent j s = .next t) : TornGet c a v p t := by
  have e := busEvent_stores hs.cfg hs.bus h
  refine ⟨e.cfg.trans hs.cfg, ?_, e.stores, by rw [e.hostFlight, e.result]; exact hs.host⟩
  rcases e.effect with ⟨-, hbuf, -⟩ | ⟨-, k, -, hbyte, -⟩
  · exact hbuf ▸ hs.register
  · exact hbyte.registerIs (hp k) hs.register

theorem TornGet.hostEvent (hs : TornGet c a v p s) (h : hostEvent j s = .next t) : TornGet c a v p t := by
  obtain ⟨hcfg, hbus, hbuf, hhost⟩ := hostEvent_gets hs.cfg hs.register hs.host h
  exact ⟨hcfg.trans hs.cfg, hbuf ▸ hs.register, hbus ▸ hs.bus, hhost⟩

/-- A TX_REQUEST of register a races a SET of v to it, and each byte the register holds or the TX_REQUEST has read satisfies
p. -/
structure TornResponse (c : Cfg) (a : Addr) (v : Value) (p : Nat → Option Byte → Prop) (s : State) : Prop where
  cfg : s.cfg = some c
  register : RegisterIs c a p s.buf
  bus : BusResponds c a p s.busFlight s.response
  host : HostStores c a v s.hostFlight

theorem TornResponse.busEvent (hs : TornResponse c a v p s) (h : busEvent j s = .next t) : TornResponse c a v p t := by
  obtain ⟨hcfg, hhost, hbuf, hbus⟩ := busEvent_responds hs.cfg hs.register hs.bus h
  exact ⟨hcfg.trans hs.cfg, hbuf ▸ hs.register, hbus, hhost ▸ hs.host⟩

theorem TornResponse.hostEvent (hp : ∀ k, p k (some (v.extractLsb' (8 * k) 8))) (hs : TornResponse c a v p s)
    (h : hostEvent j s = .next t) : TornResponse c a v p t := by
  have e := hostEvent_stores hs.cfg hs.host h
  refine ⟨e.cfg.trans hs.cfg, ?_, by rw [e.busFlight, e.response]; exact hs.bus, e.stores⟩
  rcases e.effect with hbuf | ⟨k, -, hbyte⟩
  · exact hbuf ▸ hs.register
  · exact hbyte.registerIs (hp k) hs.register

end Torn

/-- Settles O43: no event of the two leaves a byte in the register, or in what the GET has read, that is neither old nor new. -/
theorem tornGetBytes : Obligations.TornGetBytes := by
  intro c s t a v ts _ hc hn hhost hbus hts h hend
  have hstart : TornGet c a v (OldOrNew c a s.buf v) s :=
    ⟨hc, fun _ _ => .inl rfl, hbus ▸ busStores_write (writing_stores c a v), .inl ⟨_, hhost, reading_reads hn _⟩⟩
  have hfinal : TornGet c a v (OldOrNew c a s.buf v) t :=
    runTurns_events (fun _ h => ⟨h.cfg, h.register, h.bus, h.host⟩) (fun _ => TornGet.busEvent fun _ => .inr rfl)
      (fun _ => TornGet.hostEvent) hts hstart h
  rcases hfinal.host with ⟨x, hx, -⟩ | ⟨-, got, hgot, hlen, hbytes⟩
  · rw [hend] at hx; cases hx
  · exact ⟨got, hgot, hlen, hbytes⟩

/-- Settles O45: the same with the agents' parts exchanged. -/
theorem tornResponseBytes : Obligations.TornResponseBytes := by
  intro c s t a d ts _ hc hn hbus hhost hts h hend
  have hstart : TornResponse c a d (OldOrNew c a s.buf d) s :=
    ⟨hc, fun _ _ => .inl rfl, .inl ⟨_, hbus, reading_reads hn _⟩, hhost ▸ hostStores_set (writing_stores c a d)⟩
  have hfinal : TornResponse c a d (OldOrNew c a s.buf d) t :=
    runTurns_events (fun _ h => ⟨h.cfg, h.register, h.bus, h.host⟩) (fun _ => TornResponse.busEvent)
      (fun _ => TornResponse.hostEvent fun _ => .inr rfl) hts hstart h
  rcases hfinal.bus with ⟨x, hx, -⟩ | ⟨-, got, hgot, hlen, hbytes⟩
  · rw [hend] at hx; cases hx
  · exact ⟨got, hgot, hlen, hbytes⟩

/-! ## A WRITE in flight leaves each byte stored or still to be stored (R48, R51) -/

section Stored

variable {s t : State} {c : Cfg} {a : Addr} {v d : Value} {p : Nat → Option Byte → Prop} {j : Nat}

/-- Each byte of register a satisfies p, or is one that the WRITE in flight has still to store. -/
def StoredOrPending (c : Cfg) (a : Addr) (p : Nat → Option Byte → Prop) (s : State) : Prop :=
  RegisterIs c a (fun j b => BusPending s.busFlight j ∨ p j b) s.buf

theorem writing_storedOrPending (hn : a.toNat < c.n) (hbus : s.busFlight = some (.write (Access.writing c a v)))
    (p : Nat → Option Byte → Prop) : StoredOrPending c a p s := fun j hj =>
  .inl ⟨_, hbus, by rw [writing_inRange hn]; exact List.mem_range.2 hj⟩

theorem StoredOrPending.registerIs (h : StoredOrPending c a p s) (hend : s.busFlight = none) :
    RegisterIs c a p s.buf := fun j hj =>
  (h j hj).resolve_left (hend ▸ not_busPending_none j)

/-- An event of the WRITE keeps this, if what it stores satisfies p. -/
theorem BusStoreEvent.storedOrPending (e : BusStoreEvent c a v s t) (hp : ∀ k, p k (some (v.extractLsb' (8 * k) 8)))
    (h : StoredOrPending c a p s) : StoredOrPending c a p t := by
  rcases e.effect with ⟨-, hbuf, hnone⟩ | ⟨-, k, hk, hbyte, hpend⟩
  · exact fun j hj => .inr (hbuf ▸ (h j hj).resolve_left (hnone j))
  · intro j hj
    rw [hbyte.read]
    split
    · subst j; exact .inr (hp k)
    · rename_i hjk
      exact (h j hj).imp_left fun hl => (hpend j hl).resolve_left hjk

/-- A WRITE of v and a SET of d to register a race, and nothing outside the register differs from the buffer m. -/
structure RacingWrites (c : Cfg) (a : Addr) (v d : Value) (m : Memory) (s : State) : Prop where
  cfg : s.cfg = some c
  bus : BusStores c a v s.busFlight
  host : HostStores c a d s.hostFlight
  outside : SameOutside c a m s.buf
  register : StoredOrPending c a
    (fun j b => b = some (v.extractLsb' (8 * j) 8) ∨ b = some (d.extractLsb' (8 * j) 8)) s

theorem SameOutside.trans {m m' m'' : Memory} (h : SameOutside c a m m') (h' : SameOutside c a m' m'') :
    SameOutside c a m m'' := fun k hk => (h' k hk).trans (h k hk)

theorem RacingWrites.busEvent {m : Memory} (hs : RacingWrites c a v d m s) (h : busEvent j s = .next t) :
    RacingWrites c a v d m t := by
  have e := busEvent_stores hs.cfg hs.bus h
  refine ⟨e.cfg.trans hs.cfg, e.stores, e.hostFlight ▸ hs.host, ?_, e.storedOrPending (fun _ => .inl rfl) hs.register⟩
  rcases e.effect with ⟨-, hbuf, -⟩ | ⟨-, k, hk, hbyte, -⟩
  · exact hbuf ▸ hs.outside
  · exact hs.outside.trans (hbyte.sameOutside hk)

theorem RacingWrites.hostEvent {m : Memory} (hs : RacingWrites c a v d m s) (h : hostEvent j s = .next t) :
    RacingWrites c a v d m t := by
  have e := hostEvent_stores hs.cfg hs.host h
  have hreg := hs.register
  rw [StoredOrPending, ← e.busFlight] at hreg
  rcases e.effect with hbuf | ⟨k, hk, hbyte⟩
  · exact ⟨e.cfg.trans hs.cfg, e.busFlight ▸ hs.bus, e.stores, hbuf ▸ hs.outside, by rw [StoredOrPending, hbuf]; exact hreg⟩
  · exact ⟨e.cfg.trans hs.cfg, e.busFlight ▸ hs.bus, e.stores, hs.outside.trans (hbyte.sameOutside hk),
      hbyte.registerIs (.inr (.inr rfl)) hreg⟩

end Stored

/-- Settles O46: a byte that the WRITE has stored is from then on a byte of the WRITE or of the SET, and when the WRITE has
ended it has stored every byte. -/
theorem overlappingWritesLeaveNoOldByte : Obligations.OverlappingWritesLeaveNoOldByte := by
  intro c s t a v d ts _ hc hn hbus hhost hts h hbend _
  have hstart : RacingWrites c a v d s.buf s :=
    ⟨hc, hbus ▸ busStores_write (writing_stores c a v), hhost ▸ hostStores_set (writing_stores c a d), fun _ _ => rfl,
      writing_storedOrPending hn hbus _⟩
  have hfinal : RacingWrites c a v d s.buf t :=
    runTurns_events (fun _ h => ⟨h.cfg, h.bus, h.host, h.outside, h.register⟩) (fun _ => RacingWrites.busEvent)
      (fun _ => RacingWrites.hostEvent) hts hstart h
  exact ⟨hfinal.outside, hfinal.register.registerIs hbend⟩

/-! ## The flag comes after the value (R51) -/

section FlagLast

variable {s t u : State} {c : Cfg} {a b : Addr} {v d : Value} {i : Instr} {j : Nat}

/-- The HOST has no SET of register a in flight, and one of another register stores to that register only. -/
def HostSparesRegister (c : Cfg) (a : Addr) (f : Option HostFlight) : Prop :=
  ∀ x, f = some (.set x) → x.addr ≠ a ∧ ∀ j ∈ x.todo, j < c.rw.bytes

theorem hostSparesRegister_none (c : Cfg) (a : Addr) : HostSparesRegister c a none := nofun

theorem hostSparesRegister_get (x : Access) : HostSparesRegister c a (some (.get x)) := nofun

theorem hostSparesRegister_set {x : Access} (hne : x.addr ≠ a) (hx : ∀ j ∈ x.todo, j < c.rw.bytes) :
    HostSparesRegister c a (some (.set x)) := fun y hy => by
  cases hy
  exact ⟨hne, hx⟩

/-- What a HOST turn that does not store to register a keeps: the block, the BUS operation in flight, the bytes of the register
and its clear flag. -/
structure HostSpares (c : Cfg) (a : Addr) (s t : State) : Prop where
  cfg : t.cfg = s.cfg
  busFlight : t.busFlight = s.busFlight
  register : ∀ j < c.rw.bytes, t.buf.read (byteOffset c a j) = s.buf.read (byteOffset c a j)
  flag : s.cf.getLsbD a.toNat = false → t.cf.getLsbD a.toNat = false
  host : HostSparesRegister c a t.hostFlight

/-- A store to another register leaves the bytes of this one. -/
theorem SameOutside.register {m m' : Memory} (h : SameOutside c b m m') (hne : b ≠ a) :
    ∀ j < c.rw.bytes, m'.read (byteOffset c a j) = m.read (byteOffset c a j) := fun _ hj =>
  h _ fun _ hk heq => hne (byteOffset_inj hj hk heq).symm

theorem storeRegister_sameOutside (h : storeRegister c s b d = some t) : SameOutside c b s.buf t.buf := by
  by_cases hr : inRange c b = true
  · exact (storeRegister_holds h hr).2
  · obtain ⟨-, -, hbuf, -⟩ := storeRegister_some h
    rw [hbuf (by simpa using hr)]
    exact fun _ _ => rfl

/-- A HOST operation of a block performed whole that does not store to register a. -/
theorem exec_hostSpares (hc : s.cfg = some c) (hb : isBus i = false) (hi : storesTo i ≠ some a)
    (hs : HostSparesRegister c a s.hostFlight) (h : exec i s = .next t) : HostSpares c a s t := by
  cases i with
  | configure n rw aw ba =>
    obtain ⟨hnone, -⟩ := exec_configure_next h
    rw [hc] at hnone; cases hnone
  | begin =>
    obtain ⟨_, -, hk⟩ := hostOperation_next h
    cases hk
    exact ⟨rfl, rfl, fun _ _ => rfl, id, hs⟩
  | get b =>
    obtain ⟨_, -, hk⟩ := hostOperation_next h
    obtain ⟨bs, -, rfl⟩ := Option.map_eq_some_iff.1 (orOutside_next hk)
    exact ⟨rfl, rfl, fun _ _ => rfl, id, hs⟩
  | set b d =>
    have hst := exec_set_next hc h
    obtain ⟨hframe, -, -, -⟩ := storeRegister_some hst
    have hne : b ≠ a := fun e => hi (congrArg some e)
    exact ⟨storeRegister_cfg hst, by rw [hframe]; rfl, (storeRegister_sameOutside hst).register hne,
      fun hf => (storeRegister_cf hst) ▸ hf, by rw [hframe]; exact hs⟩
  | drain =>
    obtain rfl := exec_drain_next h
    exact ⟨drainFlag_cfg s, drainFlag_busFlight s, fun _ _ => by rw [drainFlag_buf],
      fun hf => Bool.eq_false_iff.2 fun ht => Bool.eq_false_iff.1 hf (drainFlag_sets_none s ht),
      (drainFlag_hostFlight s).symm ▸ hs⟩
  | _ => cases hb

/-- The same for an operation started. -/
theorem startInstr_hostSpares (hc : s.cfg = some c) (hb : isBus i = false) (hi : storesTo i ≠ some a)
    (hs : HostSparesRegister c a s.hostFlight) (h : startInstr i s = .next t) : HostSpares c a s t := by
  cases i with
  | configure n rw aw ba => exact exec_hostSpares hc hb hi hs h
  | begin => exact exec_hostSpares hc hb hi hs h
  | get b =>
    obtain ⟨_, -, hk⟩ := hostOperation_next h
    cases hk
    exact ⟨rfl, rfl, fun _ _ => rfl, id, hostSparesRegister_get _⟩
  | set b d =>
    obtain ⟨c', hr, hk⟩ := hostOperation_next h
    obtain rfl : c' = c := Option.some.inj (hr.1.symm.trans hc)
    obtain ⟨-, -, htodo⟩ := writing_stores c' b d
    cases hk
    exact ⟨rfl, rfl, fun _ _ => rfl, id, hostSparesRegister_set (fun e => hi (congrArg some e)) htodo⟩
  | drain => exact exec_hostSpares hc hb hi hs h
  | _ => cases hb

/-- The same for one event of the HOST operation in flight. -/
theorem hostEvent_hostSpares (hc : s.cfg = some c) (hs : HostSparesRegister c a s.hostFlight)
    (h : hostEvent j s = .next t) : HostSpares c a s t := by
  rcases hostEvent_next h with ⟨-, rfl⟩ | ⟨_, x, k, rest, bs, -, -, -, -, rfl⟩ | ⟨x, -, -, rfl⟩ |
    ⟨c', x, k, rest, u, hc', hf, hp, hu, rfl⟩ | ⟨x, -, -, rfl⟩
  · exact ⟨rfl, rfl, fun _ _ => rfl, id, hs⟩
  · exact ⟨rfl, rfl, fun _ _ => rfl, id, hostSparesRegister_get _⟩
  · exact ⟨rfl, rfl, fun _ _ => rfl, id, hostSparesRegister_none c a⟩
  · obtain rfl : c' = c := Option.some.inj (hc'.symm.trans hc)
    obtain ⟨hne, htodo⟩ := hs x hf
    obtain ⟨hframe, -, b, -, hread⟩ := storeByte_some hu
    refine ⟨by rw [hframe]; rfl, by rw [hframe]; rfl, fun l hl => ?_, by rw [hframe]; exact id,
      hostSparesRegister_set hne fun l hl => htodo l (pick_subset hp hl)⟩
    have hoff : byteOffset c' a l ≠ byteOffset c' x.addr k := fun e =>
      hne (byteOffset_inj hl (htodo k (pick_some hp).1) e).symm
    rw [State.setHostFlight_buf, hread, if_neg hoff]
  · exact ⟨rfl, rfl, fun _ _ => rfl, id, hostSparesRegister_none c a⟩

/-- A WRITE of v to register a goes on while the HOST spares the register: each byte is stored or pending, and the flag is clear
until the WRITE has ended. -/
structure WriteBeforeFlag (c : Cfg) (a : Addr) (v : Value) (s : State) : Prop where
  cfg : s.cfg = some c
  bus : BusStores c a v s.busFlight
  host : HostSparesRegister c a s.hostFlight
  register : StoredOrPending c a (fun j b => b = some (v.extractLsb' (8 * j) 8)) s
  flag : s.busFlight = none ∨ s.cf.getLsbD a.toNat = false

theorem WriteBeforeFlag.busEvent (hs : WriteBeforeFlag c a v s) (h : busEvent j s = .next t) :
    WriteBeforeFlag c a v t := by
  rcases hs.flag with hended | hclear
  · rw [busEvent_none hended] at h
    cases h
    exact hs
  · have e := busEvent_stores hs.cfg hs.bus h
    exact ⟨e.cfg.trans hs.cfg, e.stores, e.hostFlight ▸ hs.host, e.storedOrPending (fun _ => rfl) hs.register,
      e.effect.imp And.left fun ⟨hcf, _⟩ => hcf ▸ hclear⟩

theorem WriteBeforeFlag.hostSpares (hs : WriteBeforeFlag c a v s) (e : HostSpares c a s t) : WriteBeforeFlag c a v t := by
  refine ⟨e.cfg.trans hs.cfg, e.busFlight ▸ hs.bus, e.host, fun j hj => ?_, ?_⟩
  · rw [e.busFlight, e.register j hj]
    exact hs.register j hj
  · rw [e.busFlight]
    exact hs.flag.imp_right e.flag

/-- Each turn that FlagComesAfterTheValue admits keeps this. -/
theorem WriteBeforeFlag.takeTurn {tn : Turn} (hs : WriteBeforeFlag c a v s)
    (htn : (∃ j, tn = .busEvent j ∨ tn = .hostEvent j) ∨
      ∃ o i, (tn = .op o ∨ tn = .start o) ∧ decode (some c) o = .instr i ∧ isBus i = false ∧ storesTo i ≠ some a)
    (h : takeTurn tn s = .next t) : WriteBeforeFlag c a v t := by
  rcases htn with ⟨j, rfl | rfl⟩ | ⟨o, i, hop, hd, hb, hi⟩
  · exact hs.busEvent h
  · exact hs.hostSpares (hostEvent_hostSpares hs.cfg hs.host h)
  · rw [← hs.cfg] at hd
    rcases hop with rfl | rfl
    · exact hs.hostSpares (exec_hostSpares hs.cfg hb hi hs.host ((present_instr hd).symm.trans h))
    · exact hs.hostSpares (startInstr_hostSpares hs.cfg hb hi hs.host ((present_instr hd).symm.trans h))

end FlagLast

/-- Settles O47: while the WRITE is in flight its flag stays clear and each byte of its register is stored or pending, so once
the flag is set or the WRITE has ended no byte is pending. -/
theorem flagComesAfterTheValue : Obligations.FlagComesAfterTheValue := by
  intro c s t a v ts hinv hc hn _ hclear hbus hhost hts h hdone
  have hspares : HostSparesRegister c a s.hostFlight := fun x hx => by
    obtain ⟨-, ⟨-, htodo⟩, -⟩ := (hinv.block hc).host _ hx
    exact ⟨hhost x hx, htodo⟩
  have hstart : WriteBeforeFlag c a v s :=
    ⟨hc, hbus ▸ busStores_write (writing_stores c a v), hspares, writing_storedOrPending hn hbus _, .inr hclear⟩
  have hfinal : WriteBeforeFlag c a v t :=
    runTurns_invariant (fun _ h => ⟨h.cfg, h.bus, h.host, h.register, h.flag⟩)
      (fun tn htn _ _ hs h => hs.takeTurn (hts tn htn) h) hstart h
  have hend : t.busFlight = none := by
    rcases hdone with hset | hend
    · exact hfinal.flag.resolve_right (by simp [hset])
    · exact hend
  exact hfinal.register.registerIs hend

/-! ## Every mix of old and new bytes is reached (R48) -/

section EveryMix

variable {s : State} {c : Cfg} {a : Addr} {v : Value} {data reg : List Byte} {k : Nat} {l : List Nat}

/-- The two event turns of one byte: the WRITE stores it before the GET reads it, or after. -/
def byteTurns (storeFirst : Bool) : List Turn :=
  if storeFirst then [.busEvent 0, .hostEvent 0] else [.hostEvent 0, .busEvent 0]

/-- The event turns of a WRITE and a GET with the same bytes to do, byte by byte, and then the two last events. -/
def mixTurns (new : Nat → Bool) : List Nat → List Turn
  | [] => [.busEvent 0, .hostEvent 0]
  | k :: l => byteTurns (new k) ++ mixTurns new l

theorem byteTurns_events (b : Bool) : ∀ tn ∈ byteTurns b, ∃ j, tn = .busEvent j ∨ tn = .hostEvent j := by
  cases b <;> simp [byteTurns]

theorem mixTurns_events (new : Nat → Bool) (l : List Nat) :
    ∀ tn ∈ mixTurns new l, ∃ j, tn = .busEvent j ∨ tn = .hostEvent j := by
  induction l with
  | nil => simp [mixTurns]
  | cons k l ih =>
    intro tn htn
    rcases List.mem_append.1 htn with htn | htn
    · exact byteTurns_events (new k) tn htn
    · exact ih tn htn

/-- The byte at the head of those still to do is the one that choice 0 picks. -/
theorem pick_head (k : Nat) (l : List Nat) : pick (k :: l) 0 = some (k, l) := by simp [pick]

/-- The state with the buffer m and with a WRITE of v and a GET in flight, both of register a and with the bytes l to do. -/
def State.racing (s : State) (c : Cfg) (a : Addr) (v : Value) (m : Memory) (data : List Byte) (l : List Nat) : State :=
  ((s.setBuf m).setBusFlight (some (.write ⟨a, valueBytes c v, l⟩))).setHostFlight (some (.get ⟨a, data, l⟩))

theorem run_busEvent_store {m : Memory} (ts : List Turn) (hc : s.cfg = some c)
    (hf : s.busFlight = some (.write ⟨a, valueBytes c v, k :: l⟩)) (hk : k < c.rw.bytes)
    (hw : s.buf.write (byteOffset c a k) (v.extractLsb' (8 * k) 8) = some m) :
    runTurns (.busEvent 0 :: ts) s =
      runTurns ts ((s.setBuf m).setBusFlight (some (.write ⟨a, valueBytes c v, l⟩))) := by
  have hstore : storeByte c ⟨a, valueBytes c v, k :: l⟩ k (s.setTurns ts) = some ((s.setTurns ts).setBuf m) := by
    simp [storeByte, valueBytes_getElem? c v hk, hw]
  refine runTurns_cons_setTurns ((busEvent_write (s := s.setTurns ts) hc hf 0).trans ?_)
  rw [busWriteEvent, pick_head]
  simp only [hstore]
  rfl

theorem run_hostEvent_load {b : Byte} (ts : List Turn) (hc : s.cfg = some c)
    (hf : s.hostFlight = some (.get ⟨a, data, k :: l⟩)) (hr : s.buf.read (byteOffset c a k) = some b) :
    runTurns (.hostEvent 0 :: ts) s = runTurns ts (s.setHostFlight (some (.get ⟨a, data.set k b, l⟩))) := by
  have hload : loadByte c ⟨a, data, k :: l⟩ k (s.setTurns ts) = some (data.set k b) := by simp [loadByte, hr]
  refine runTurns_cons_setTurns ((hostEvent_get (s := s.setTurns ts) hc hf 0).trans ?_)
  rw [hostGetEvent, pick_head]
  simp only [hload]
  rfl

theorem run_busEvent_flag {x : Access} (ts : List Turn) (hc : s.cfg = some c) (hf : s.busFlight = some (.write x))
    (hx : x.todo = []) :
    runTurns (.busEvent 0 :: ts) s = runTurns ts ((notify c x.addr (s.setTurns ts)).setBusFlight none) :=
  runTurns_cons (busEvent_flag (s := s.setTurns ts) hc hf hx 0)

theorem run_hostEvent_return (ts : List Turn) (hc : s.cfg = some c) (hf : s.hostFlight = some (.get ⟨a, data, []⟩)) :
    runTurns (.hostEvent 0 :: ts) s =
      runTurns ts ((s.setResult (.value (hostValue data))).setHostFlight none) :=
  runTurns_cons_setTurns (hostEvent_get (s := s.setTurns ts) hc hf 0)

/-- The two turns of byte k: the WRITE's byte is stored, and the GET has read it or the byte that was there before. -/
theorem byteTurns_run {old : Byte} {m : Memory} (storeFirst : Bool) (ts : List Turn) (hc : s.cfg = some c)
    (hb : s.busFlight = some (.write ⟨a, valueBytes c v, k :: l⟩)) (hh : s.hostFlight = some (.get ⟨a, data, k :: l⟩))
    (hk : k < c.rw.bytes) (hold : s.buf.read (byteOffset c a k) = some old)
    (hw : s.buf.write (byteOffset c a k) (v.extractLsb' (8 * k) 8) = some m) :
    runTurns (byteTurns storeFirst ++ ts) s =
      runTurns ts (s.racing c a v m (data.set k (if storeFirst then v.extractLsb' (8 * k) 8 else old)) l) := by
  cases storeFirst with
  | true => exact (run_busEvent_store _ hc hb hk hw).trans (run_hostEvent_load ts hc hh (Memory.read_write_same hw))
  | false => exact (run_hostEvent_load _ hc hh hold).trans (run_busEvent_store ts hc hb hk hw)

/-- What the GET returns: of each byte still to do the new one or the old one as `new` says, the others as read already. -/
def IsMixFrom (new : Nat → Bool) (v : Value) (reg data : List Byte) (l : List Nat) (got : List Byte) : Prop :=
  got.length = data.length ∧
    ∀ j < data.length, got[j]? =
      if j ∈ l then (if new j then some (v.extractLsb' (8 * j) 8) else reg[j]?) else data[j]?

/-- From a WRITE and a GET with the same bytes still to do, the turns of `mixTurns` end both with the mix chosen. -/
theorem mixTurns_run (new : Nat → Bool) (hc : s.cfg = some c)
    (hb : s.busFlight = some (.write ⟨a, valueBytes c v, l⟩)) (hh : s.hostFlight = some (.get ⟨a, data, l⟩))
    (hdata : data.length = c.rw.bytes) (hnodup : l.Nodup)
    (hold : ∀ j ∈ l, j < c.rw.bytes ∧ ∃ b, reg[j]? = some b ∧ s.buf.read (byteOffset c a j) = some b) :
    ∃ t got, runTurns (mixTurns new l) s = .next t ∧ t.hostFlight = none ∧ t.busFlight = none ∧
      t.result = some (.value (hostValue got)) ∧ IsMixFrom new v reg data l got := by
  induction l generalizing s data with
  | nil =>
    have hflag := run_busEvent_flag [.hostEvent 0] hc hb rfl
    exact ⟨_, data, hflag.trans (run_hostEvent_return [] ((notify_cfg _ _ _).trans hc)
      ((notify_hostFlight _ _ _).trans hh)), rfl, rfl, rfl, rfl, fun j _ => by simp⟩
  | cons k l ih =>
    obtain ⟨hk, old, hreg, hread⟩ := hold k List.mem_cons_self
    obtain ⟨hkl, hnodup⟩ := List.nodup_cons.1 hnodup
    obtain ⟨m, hm⟩ := Option.isSome_iff_exists.1 ((Memory.write_isSome_iff s.buf (byteOffset c a k)
      (v.extractLsb' (8 * k) 8)).2 ((Memory.read_isSome_iff _ _).1 (by simp [hread])))
    have hrest : ∀ j ∈ l, j < c.rw.bytes ∧ ∃ b, reg[j]? = some b ∧ m.read (byteOffset c a j) = some b := fun j hj => by
      obtain ⟨hlt, b, hb, hr⟩ := hold j (List.mem_cons_of_mem k hj)
      have hne : j ≠ k := fun e => hkl (e ▸ hj)
      exact ⟨hlt, b, hb, (Memory.read_write_other hm (by simpa [byteOffset] using hne)).trans hr⟩
    obtain ⟨t, got, hrun, hhost, hbus, hres, hlen, hmix⟩ :=
      ih (s := s.racing c a v m (data.set k (if new k then v.extractLsb' (8 * k) 8 else old)) l) hc rfl rfl
        (by simpa using hdata) hnodup hrest
    rw [List.length_set] at hlen hmix
    refine ⟨t, got, (byteTurns_run (new k) _ hc hb hh hk hread hm).trans hrun, hhost, hbus, hres, hlen, fun j hj => ?_⟩
    rw [hmix j hj]
    by_cases hjk : j = k
    · subst hjk
      rw [if_neg hkl, if_pos List.mem_cons_self, List.getElem?_set_self hj, hreg]
      split <;> rfl
    · rw [List.getElem?_set_ne (Ne.symm hjk)]
      simp only [List.mem_cons, hjk, false_or]

end EveryMix

/-- Settles O44: byte by byte, the WRITE stores before the GET reads where the new byte is wanted, and after it elsewhere. -/
theorem everyTornGetPossible : Obligations.EveryTornGetPossible := by
  intro c s a v reg new _ hc hn hhost hbus hreg
  obtain ⟨hlen, hread⟩ := hreg
  rw [reading_inRange hn] at hhost
  rw [writing_inRange hn] at hbus
  have hold : ∀ j ∈ List.range c.rw.bytes,
      j < c.rw.bytes ∧ ∃ b, reg[j]? = some b ∧ s.buf.read (byteOffset c a j) = some b := fun j hj => by
    have hj := List.mem_range.1 hj
    have hb : reg[j]? = some reg[j] := List.getElem?_eq_getElem (hlen ▸ hj)
    exact ⟨hj, reg[j], hb, (hread j hj).symm.trans hb⟩
  obtain ⟨t, got, hrun, hhend, hbend, hres, hgot, hmix⟩ :=
    mixTurns_run new hc hbus hhost (zeros_length _) List.nodup_range hold
  rw [zeros_length] at hgot hmix
  refine ⟨_, t, got, mixTurns_events new _, hrun, hhend, hbend, hres, hgot, fun j hj => ?_⟩
  rw [hmix j hj, if_pos (List.mem_range.2 hj)]

end Sys2Proof.Machine
end

/-! # Decoding and encoding agree (spec/30_encoding.md), and the RESPONSE rows (R66)
-/

section
namespace Sys2Proof.Machine

/-! ## Byte order: decoding and encoding undo each other (R11, R43) -/

section ByteOrder

/-- The first byte of the list is the low one of the number. -/
theorem ofNat_leNat_cons (w : Nat) (b : Byte) (bs : List Byte) :
    BitVec.ofNat (w + 8) (leNat (b :: bs)) = BitVec.ofNat w (leNat bs) ++ b := by
  apply BitVec.eq_of_toNat_eq
  have hb : b.toNat < 2 ^ 8 := b.isLt
  have hlow : (b.toNat + 2 ^ 8 * leNat bs) % 2 ^ 8 = b.toNat := by omega
  have hhigh : (b.toNat + 2 ^ 8 * leNat bs) / 2 ^ 8 = leNat bs := by omega
  calc (BitVec.ofNat (w + 8) (leNat (b :: bs))).toNat
    _ = (b.toNat + 2 ^ 8 * leNat bs) % (2 ^ 8 * 2 ^ w) := by rw [BitVec.toNat_ofNat, Nat.add_comm w, Nat.pow_add]; rfl
    _ = b.toNat + 2 ^ 8 * (leNat bs % 2 ^ w) := by rw [Nat.mod_mul, hlow, hhigh]
    _ = (BitVec.ofNat w (leNat bs) ++ b).toNat := by
      rw [BitVec.toNat_append, ← Nat.shiftLeft_add_eq_or_of_lt hb, Nat.shiftLeft_eq, BitVec.toNat_ofNat, Nat.add_comm,
        Nat.mul_comm]

theorem ofNat_leNat_one (b₀ : Byte) : BitVec.ofNat 8 (leNat [b₀]) = b₀ := by
  simp [leNat]

theorem ofNat_leNat_two (b₀ b₁ : Byte) : BitVec.ofNat 16 (leNat [b₀, b₁]) = b₁ ++ b₀ := by
  rw [ofNat_leNat_cons 8, ofNat_leNat_one]

theorem ofNat_leNat_four (b₀ b₁ b₂ b₃ : Byte) :
    BitVec.ofNat 32 (leNat [b₀, b₁, b₂, b₃]) = b₃ ++ b₂ ++ b₁ ++ b₀ := by
  rw [ofNat_leNat_cons 24, ofNat_leNat_cons 16, ofNat_leNat_two]

/-- An n-byte bit vector keeps the low n bytes of a number. -/
theorem ofNat_mod_pow (n v : Nat) : BitVec.ofNat (8 * n) (v % 256 ^ n) = BitVec.ofNat (8 * n) v := by
  apply BitVec.eq_of_toNat_eq
  rw [BitVec.toNat_ofNat, BitVec.toNat_ofNat, Nat.pow_mul]
  exact Nat.mod_mod _ _

/-- The encoder reads the low n bytes only. -/
theorem leEncode_mod_pow (v n : Nat) : leEncode (v % 256 ^ n) n = leEncode v n := by
  simpa [leNat_leEncode] using leEncode_leNat (leEncode v n)

theorem leEncode_toNat_ofNat (n v : Nat) : leEncode (BitVec.ofNat (8 * n) v).toNat n = leEncode v n := by
  rw [BitVec.toNat_ofNat, Nat.pow_mul]
  exact leEncode_mod_pow v n

/-- Encoding what was decoded gives the bytes that were read. -/
theorem leEncode_leDecode {b : List Byte} {i n : Nat} (h : i + n ≤ b.length) :
    leEncode (leDecode b i n) n = (b.drop i).take n := by
  have hlen : ((b.drop i).take n).length = n := by simp; omega
  simpa [leDecode, hlen] using leEncode_leNat ((b.drop i).take n)

end ByteOrder

/-! ## A frame's bytes and its row (R62 to R65) -/

section Frames

variable {c : Cfg} {i : Instr} {a : Addr} {v : Value}

/-- A frame of AW bytes is the SELECT of their little-endian number (R63, R64). -/
theorem decode_rx_select {aw : AddrWidth} (xs : List Byte) (haw : c.aw = aw) (h : xs.length = aw.bytes) :
    decode (some c) (.rx xs) = .instr (selectInstr aw (leNat xs)) := by
  subst haw
  rw [decode, decodeFrame_of_select h, leDecode, List.drop_zero, ← h, List.take_length]

/-- A frame of AW bytes and RW bytes is the WRITE of their little-endian numbers (R63, R64, R65). -/
theorem decode_rx_write {aw : AddrWidth} {rw : RegWidth} (xs ys : List Byte) (haw : c.aw = aw) (hrw : c.rw = rw)
    (hx : xs.length = aw.bytes) (hy : ys.length = rw.bytes) :
    decode (some c) (.rx (xs ++ ys)) = .instr (writeInstr aw rw (leNat xs) (leNat ys)) := by
  subst haw hrw
  have ha : leDecode (xs ++ ys) 0 c.aw.bytes = leNat xs := by simp [leDecode, ← hx]
  have hv : leDecode (xs ++ ys) c.aw.bytes c.rw.bytes = leNat ys := by simp [leDecode, ← hx, ← hy]
  rw [decode, decodeFrame_of_write (by rw [List.length_append, hx, hy]), ha, hv]

/-- A SELECT row reads the low AW bytes of the address only. -/
theorem selectInstr_mod (aw : AddrWidth) (a : Nat) : selectInstr aw (a % 256 ^ aw.bytes) = selectInstr aw a := by
  cases aw with
  | a1 => exact congrArg Instr.selectA1 (ofNat_mod_pow 1 a)
  | a2 => exact congrArg Instr.selectA2 (ofNat_mod_pow 2 a)

/-- A WRITE row reads the low AW bytes of the address and the low RW bytes of the value only. -/
theorem writeInstr_mod (aw : AddrWidth) (rw : RegWidth) (a v : Nat) :
    writeInstr aw rw (a % 256 ^ aw.bytes) (v % 256 ^ rw.bytes) = writeInstr aw rw a v := by
  cases aw with
  | a1 =>
    cases rw with
    | w1 => exact congrArg₂ Instr.writeA1R1 (ofNat_mod_pow 1 a) (ofNat_mod_pow 1 v)
    | w2 => exact congrArg₂ Instr.writeA1R2 (ofNat_mod_pow 1 a) (ofNat_mod_pow 2 v)
    | w4 => exact congrArg₂ Instr.writeA1R4 (ofNat_mod_pow 1 a) (ofNat_mod_pow 4 v)
  | a2 =>
    cases rw with
    | w1 => exact congrArg₂ Instr.writeA2R1 (ofNat_mod_pow 2 a) (ofNat_mod_pow 1 v)
    | w2 => exact congrArg₂ Instr.writeA2R2 (ofNat_mod_pow 2 a) (ofNat_mod_pow 2 v)
    | w4 => exact congrArg₂ Instr.writeA2R4 (ofNat_mod_pow 2 a) (ofNat_mod_pow 4 v)

/-- Every SELECT row is encoded as AW address bytes (R62). -/
theorem encode_selectInstr (aw : AddrWidth) (a : Nat) : encode (selectInstr aw a) = .rx (leEncode a aw.bytes) := by
  cases aw with
  | a1 => exact congrArg Operation.rx (leEncode_toNat_ofNat 1 a)
  | a2 => exact congrArg Operation.rx (leEncode_toNat_ofNat 2 a)

/-- Every WRITE row is encoded as AW address bytes, then RW value bytes (R62). -/
theorem encode_writeInstr (aw : AddrWidth) (rw : RegWidth) (a v : Nat) :
    encode (writeInstr aw rw a v) = .rx (leEncode a aw.bytes ++ leEncode v rw.bytes) := by
  rw [← leEncode_toNat_ofNat aw.bytes a, ← leEncode_toNat_ofNat rw.bytes v]
  cases aw <;> cases rw <;> rfl

theorem encode_respInstr (rw : RegWidth) : encode (respInstr rw) = .tx := by
  cases rw <;> rfl

/-- A SELECT row of the configuration is the one its decoder builds from the address (R62, R72). -/
theorem eq_selectInstr (hi : i.inConfig c = true) (hs : selectOperand i = some a) : i = selectInstr c.aw a.toNat := by
  cases i with
  | selectA1 x => cases hs; rw [of_decide_eq_true hi]; simp [selectInstr, -BitVec.toNat_setWidth]
  | selectA2 x => cases hs; rw [of_decide_eq_true hi]; simp [selectInstr]
  | _ => cases hs

/-- A WRITE row of the configuration is the one its decoder builds from the address and the value (R62, R72). -/
theorem eq_writeInstr (hi : i.inConfig c = true) (hw : writeOperands i = some (a, v)) :
    i = writeInstr c.aw c.rw a.toNat v.toNat := by
  have widths : ∀ {aw rw}, decide (c.aw = aw ∧ c.rw = rw) = true → writeInstr c.aw c.rw = writeInstr aw rw := fun h => by
    obtain ⟨rfl, rfl⟩ := of_decide_eq_true h
    rfl
  -- Without `toNat_setWidth` the zero-extension of `writeOperands` and the cut of `writeInstr` cancel as bit vectors.
  cases i with
  | writeA1R1 x y => cases hw; rw [widths hi]; simp [writeInstr, -BitVec.toNat_setWidth]
  | writeA1R2 x y => cases hw; rw [widths hi]; simp [writeInstr, -BitVec.toNat_setWidth]
  | writeA1R4 x y => cases hw; rw [widths hi]; simp [writeInstr, -BitVec.toNat_setWidth]
  | writeA2R1 x y => cases hw; rw [widths hi]; simp [writeInstr, -BitVec.toNat_setWidth]
  | writeA2R2 x y => cases hw; rw [widths hi]; simp [writeInstr, -BitVec.toNat_setWidth]
  | writeA2R4 x y => cases hw; rw [widths hi]; simp [writeInstr]
  | _ => cases hw

/-- A RESPONSE row of the configuration is the one for its RW (R62, R72). -/
theorem eq_respInstr (hi : i.inConfig c = true) (hr : i = .respR1 ∨ i = .respR2 ∨ i = .respR4) : i = respInstr c.rw := by
  rcases hr with rfl | rfl | rfl <;> rw [of_decide_eq_true hi] <;> rfl

/-- Decoding an encoded SELECT row gives it back. -/
theorem decode_encode_selectInstr (c : Cfg) (a : Nat) :
    decode (some c) (encode (selectInstr c.aw a)) = .instr (selectInstr c.aw a) := by
  rw [encode_selectInstr, decode_rx_select _ rfl (leEncode_length _ _), leNat_leEncode, selectInstr_mod]

/-- Decoding an encoded WRITE row gives it back. -/
theorem decode_encode_writeInstr (c : Cfg) (a v : Nat) :
    decode (some c) (encode (writeInstr c.aw c.rw a v)) = .instr (writeInstr c.aw c.rw a v) := by
  rw [encode_writeInstr, decode_rx_write _ _ rfl rfl (leEncode_length _ _) (leEncode_length _ _), leNat_leEncode,
    leNat_leEncode, writeInstr_mod]

/-- Decoding an encoded IGNORE gives it back, as its length is neither AW nor AW + RW (R63, R85). -/
theorem decode_encode_ignore {b : List Byte} (h : c.unrecognized b.length = true) :
    decode (some c) (encode (.ignore b)) = .instr (.ignore b) := by
  obtain ⟨hs, hw⟩ := of_decide_eq_true h
  rw [encode, decode, decodeFrame_of_ignore hs hw]

/-- Decoding an encoded RESPONSE row gives it back: CFG names the row, as the request has no bytes (R69, R86). -/
theorem decode_encode_respInstr (c : Cfg) : decode (some c) (encode (respInstr c.rw)) = .instr (respInstr c.rw) := by
  rw [encode_respInstr, decode]

/-- Decoding an encoded legal CONFIGURE gives it back, block or none, as no default is filled in (R21, R22). -/
theorem decode_encode_configure (o : Option Cfg) {n rw aw ba : Nat} (h : (cfgOf n rw aw ba).isSome = true) :
    decode o (encode (.configure n rw aw ba)) = .instr (.configure n rw aw ba) := by
  obtain ⟨c, hc⟩ := Option.isSome_iff_exists.1 h
  simp [encode, decode, decodeConfigure, hc]

/-- On a block, decoding an encoded row of its configuration gives the row back. -/
theorem decode_encode_of_inConfig (hi : i.inConfig c = true) : decode (some c) (encode i) = .instr i := by
  rcases instr_kinds i with ⟨a, ha⟩ | ⟨a, v, hw⟩ | ⟨b, rfl⟩ | hresp | ⟨n, rw, aw, ba, rfl⟩ | rfl | ⟨a, rfl⟩ | ⟨a, d, rfl⟩ | rfl
  · rw [eq_selectInstr hi ha]; exact decode_encode_selectInstr c _
  · rw [eq_writeInstr hi hw]; exact decode_encode_writeInstr c _ _
  · exact decode_encode_ignore hi
  · rw [eq_respInstr hi hresp]; exact decode_encode_respInstr c
  · exact decode_encode_configure _ hi
  · rfl
  · rfl
  · rfl
  · rfl

/-- Encoding what a frame decodes to gives the frame: its bytes are cut into the fields of R62, and no byte is left over. -/
theorem encode_decodeFrame (c : Cfg) (b : List Byte) : encode (decodeFrame c b) = .rx b := by
  by_cases hs : b.length = c.aw.bytes
  · have hb : leEncode (leDecode b 0 c.aw.bytes) c.aw.bytes = b := by
      rw [leEncode_leDecode (by omega), List.drop_zero, ← hs, List.take_length]
    rw [decodeFrame_of_select hs, encode_selectInstr, hb]
  · by_cases hw : b.length = c.aw.bytes + c.rw.bytes
    · have ha : leEncode (leDecode b 0 c.aw.bytes) c.aw.bytes = b.take c.aw.bytes := by
        rw [leEncode_leDecode (by omega), List.drop_zero]
      have hv : leEncode (leDecode b c.aw.bytes c.rw.bytes) c.rw.bytes = b.drop c.aw.bytes := by
        rw [leEncode_leDecode (by omega), List.take_of_length_le (by rw [List.length_drop]; omega)]
      rw [decodeFrame_of_write hw, encode_writeInstr, ha, hv, List.take_append_drop]
    · rw [decodeFrame_of_ignore hs hw, encode]

end Frames

/-! ## The RESPONSE rows (R66, R86) -/

section Responses

variable {c : Cfg} {s : State} {i : Instr}

/-- A RESPONSE row of the configuration completes on a ready block, with the effect of R86. -/
theorem exec_resp_effect (hs : BlockInv c s) (hr : BusReady c s) (hi : i.inConfig c = true)
    (hresp : i = .respR1 ∨ i = .respR2 ∨ i = .respR4) : ∃ t, exec i s = .next t ∧ RespondEffect c s t := by
  rw [exec_of_resp hresp, onRow_ready hr hi]
  exact respond_effect hs

end Responses

/-! ## The obligations -/

/-- Settles O1: the operation is the row its configuration's decoder builds from its operands, and each encoded field
decodes to itself; with no block the operation is a CONFIGURE. -/
theorem decodeOfEncode : Obligations.DecodeOfEncode := by
  intro o i h
  cases o with
  | some c => exact decode_encode_of_inConfig h
  | none =>
    cases i with
    | configure n rw aw ba => exact decode_encode_configure none h
    | _ => cases h

/-- Settles O2: the decoded row belongs to the configuration, and its encoded fields are the frame's. -/
theorem encodeOfDecodedFrame : Obligations.EncodeOfDecodedFrame := fun c b =>
  ⟨decodeFrame c b, rfl, inConfig_decodeFrame c b, encode_decodeFrame c b⟩

/-- Settles O4: each frame is AW bytes and RW bytes, whose numbers are the concatenations. -/
theorem frameOperandsLittleEndian : Obligations.FrameOperandsLittleEndian := by
  intro c a0 a1 v0 v1 v2 v3
  refine ⟨fun ha => ?_, fun ha => ?_, fun ha hr => ?_, fun ha hr => ?_, fun ha hr => ?_, fun ha hr => ?_,
    fun ha hr => ?_, fun ha hr => ?_⟩
  · simpa [selectInstr, ofNat_leNat_one] using decode_rx_select [a0] ha rfl
  · simpa [selectInstr, ofNat_leNat_two] using decode_rx_select [a0, a1] ha rfl
  · simpa [writeInstr, ofNat_leNat_one] using decode_rx_write [a0] [v0] ha hr rfl rfl
  · simpa [writeInstr, ofNat_leNat_one, ofNat_leNat_two] using decode_rx_write [a0] [v0, v1] ha hr rfl rfl
  · simpa [writeInstr, ofNat_leNat_one, ofNat_leNat_four] using decode_rx_write [a0] [v0, v1, v2, v3] ha hr rfl rfl
  · simpa [writeInstr, ofNat_leNat_one, ofNat_leNat_two] using decode_rx_write [a0, a1] [v0] ha hr rfl rfl
  · simpa [writeInstr, ofNat_leNat_two] using decode_rx_write [a0, a1] [v0, v1] ha hr rfl rfl
  · simpa [writeInstr, ofNat_leNat_two, ofNat_leNat_four] using decode_rx_write [a0, a1] [v0, v1, v2, v3] ha hr rfl rfl

/-- Settles O14: the row of each RW is in the configuration, so it completes with the effect of R86. -/
theorem responseRowsComplete : Obligations.ResponseRowsComplete := by
  intro c s hs hr
  have hb : BlockInv c s := hs.block hr.1
  exact ⟨fun hw => exec_resp_effect hb hr (decide_eq_true hw) (.inl rfl),
    fun hw => exec_resp_effect hb hr (decide_eq_true hw) (.inr (.inl rfl)),
    fun hw => exec_resp_effect hb hr (decide_eq_true hw) (.inr (.inr rfl))⟩

/-- Settles O3: the three classes of `frameClass`, each with the row it decodes to. -/
theorem frameClassByLength : Obligations.FrameClassByLength := fun c b =>
  ⟨fun hs => ⟨leDecode b 0 c.aw.bytes, congrArg Decoded.instr (decodeFrame_of_select hs)⟩,
    fun hw => ⟨leDecode b 0 c.aw.bytes, leDecode b c.aw.bytes c.rw.bytes, congrArg Decoded.instr (decodeFrame_of_write hw)⟩,
    fun hs hw => congrArg Decoded.instr (decodeFrame_of_ignore hs hw)⟩

/-- Settles O5: the decoder evaluates each word to its operation. -/
theorem specWordsDecode : Obligations.SpecWordsDecode := ⟨rfl, rfl, rfl, rfl, rfl⟩

end Sys2Proof.Machine
end

/-! # The BUS operations (spec/40_bus_operations.md): each row on a ready block, and the step that a frame makes
-/

section
namespace Sys2Proof.Machine

/-! ## A row of the configuration runs its meaning on a ready block (R80, R82, R83, R85) -/

section Rows

variable {s : State} {c : Cfg} {i : Instr} {a : Addr} {v : Value}

theorem BusReady.setTurns (hr : BusReady c s) (ts : List Turn) : BusReady c (s.setTurns ts) := hr

theorem exec_select_ready (hr : BusReady c s) (hi : i.inConfig c = true) (ha : selectOperand i = some a) :
    exec i s = .next (s.setPra a) := by
  rw [exec_of_selectOperand ha, onRow_ready hr hi]
  rfl

theorem exec_write_ready (hr : BusReady c s) (hi : i.inConfig c = true) (hw : writeOperands i = some (a, v)) :
    exec i s = writeRegister c a v s := by
  rw [exec_of_writeOperands hw, onRow_ready hr hi]

theorem exec_ignore_ready {b : List Byte} (hr : BusReady c s) (hs : b.length ≠ c.aw.bytes)
    (hw : b.length ≠ c.aw.bytes + c.rw.bytes) : exec (.ignore b) s = .next s := by
  have hi : (Instr.ignore b).inConfig c = true := decide_eq_true ⟨hs, hw⟩
  rw [exec_ignore, onRow_ready hr hi]

/-- A WRITE row of the configuration completes on a ready block, with the effect of R83 and R84. -/
theorem exec_write_effect (hs : BlockInv c s) (hr : BusReady c s) (hi : i.inConfig c = true)
    (hw : writeOperands i = some (a, v)) : ∃ t, exec i s = .next t ∧ WriteEffect c a v s t := by
  rw [exec_write_ready hr hi hw]
  exact writeRegister_effect hs a v

/-- The step that is presented a frame takes it off the list and performs the row it decodes to (R68, R81). -/
theorem step_frame {b : List Byte} {ts : List Turn} (hc : s.cfg = some c) (hts : s.turns = .op (.rx b) :: ts) :
    step s = exec (decodeFrame c b) (s.setTurns ts) := by
  rw [step_cons hts]
  exact present_instr (congrArg (decode · (.rx b)) hc)

end Rows

/-! ## Every operation completes (R80, R120) -/

section Completion

variable {s : State} {c : Cfg} {i : Instr}

theorem exec_bus_completes (hs : BlockInv c s) (hr : BusReady c s) (hi : i.inConfig c = true) (hb : isBus i = true) :
    ∃ t, exec i s = .next t := by
  rcases instr_kinds i with ⟨a, ha⟩ | ⟨a, v, hw⟩ | ⟨b, rfl⟩ | hresp | ⟨n, rw, aw, ba, rfl⟩ | rfl | ⟨a, rfl⟩ | ⟨a, d, rfl⟩ | rfl
  · exact ⟨_, exec_select_ready hr hi ha⟩
  · exact (exec_write_effect hs hr hi hw).imp fun _ => And.left
  · exact ⟨s, by rw [exec_ignore, onRow_ready hr hi]⟩
  · exact (exec_resp_effect hs hr hi hresp).imp fun _ => And.left
  all_goals cases hb

theorem exec_host_completes (hs : BlockInv c s) (hr : HostReady c s) (hb : isBus i = false)
    (hn : ∀ n rw aw ba, i ≠ .configure n rw aw ba) : ∃ t, exec i s = .next t := by
  cases i with
  | configure n rw aw ba => exact absurd rfl (hn n rw aw ba)
  | begin => exact ⟨_, (exec_begin s).trans (hostOperation_ready hr)⟩
  | get a =>
    obtain ⟨bs, hbs, -⟩ := loadRegister_exists hs a
    exact ⟨s.setResult (.value (hostValue bs)), by rw [exec_get, hostOperation_ready hr, hbs]; rfl⟩
  | set a d =>
    obtain ⟨t, ht⟩ := storeRegister_exists hs a d
    exact ⟨t, by rw [exec_set, hostOperation_ready hr, ht, orOutside_some]⟩
  | drain => exact ⟨_, (exec_drain s).trans (hostOperation_ready hr)⟩
  | _ => cases hb

end Completion

/-! ## The state a WRITE leaves, in range and out of range (R83, R84) -/

section Writes

variable {s : State} {c : Cfg} {a : Addr}

theorem notify_inRange (ha : a.toNat < c.n) (s : State) : notify c a s = s.setCf (notifyFlag s.cf a.toNat) := by
  simp [notify, inRange, ha]

/-- Under the invariant an in-range WRITE stores its value's bytes, then raises its flag, and writes no other field. -/
theorem writeRegister_inRange (hs : BlockInv c s) (ha : a.toNat < c.n) (v : Value) :
    ∃ m, writeRegister c a v s = .next ((s.setBuf m).setCf (notifyFlag s.cf a.toNat)) ∧
      HoldsValue c a v m ∧ SameOutside c a s.buf m := by
  obtain ⟨u, hu⟩ := storeRegister_exists hs a v
  obtain ⟨heq, -⟩ := storeRegister_some hu
  refine ⟨u.buf, ?_, storeRegister_holds hu (decide_eq_true ha)⟩
  calc writeRegister c a v s
    _ = .next (notify c a u) := by rw [writeRegister, hu]; rfl
    _ = .next (u.setCf (notifyFlag u.cf a.toNat)) := by rw [notify_inRange ha]
    _ = .next ((s.setBuf u.buf).setCf (notifyFlag s.cf a.toNat)) := by rw [storeRegister_cf hu, ← heq]

theorem writeRegister_outOfRange (ha : c.n ≤ a.toNat) (v : Value) : writeRegister c a v s = .next s := by
  have hr : inRange c a = false := decide_eq_false (Nat.not_lt.2 ha)
  simp [writeRegister, storeRegister, notify, hr]

end Writes

/-! ## The operands of a WRITE frame, as the row performs them (R64, R65) -/

section Operands

/-- An address of AW bytes fits PRA (R28). -/
theorem toNat_ofNat_address {aw : AddrWidth} {n : Nat} (h : n < 256 ^ aw.bytes) : (BitVec.ofNat 16 n).toNat = n := by
  have hlt : n < 2 ^ 16 := h.trans_le (Nat.pow_le_pow_right (by decide) aw.bytes_le)
  rw [BitVec.toNat_ofNat, Nat.mod_eq_of_lt hlt]

/-- A WRITE row built from operands that fit AW and RW writes that value to that address. -/
theorem writeOperands_writeInstr {aw : AddrWidth} {rw : RegWidth} {a v : Nat} (ha : a < 256 ^ aw.bytes)
    (hv : v < 256 ^ rw.bytes) :
    writeOperands (writeInstr aw rw a v) = some (BitVec.ofNat 16 a, BitVec.ofNat 32 v) := by
  have operands {x : Addr} {y : Value} (hx : x = BitVec.ofNat 16 a) (hy : y = BitVec.ofNat 32 v) :
      some (x, y) = some (BitVec.ofNat 16 a, BitVec.ofNat 32 v) := by rw [hx, hy]
  cases aw with
  | a1 =>
    have hx : (BitVec.ofNat 8 a).zeroExtend 16 = BitVec.ofNat 16 a := BitVec.setWidth_ofNat_of_le_of_lt (by decide) ha
    cases rw with
    | w1 => exact operands hx (BitVec.setWidth_ofNat_of_le_of_lt (by decide) hv)
    | w2 => exact operands hx (BitVec.setWidth_ofNat_of_le_of_lt (by decide) hv)
    | w4 => exact operands hx rfl
  | a2 =>
    cases rw with
    | w1 => exact operands rfl (BitVec.setWidth_ofNat_of_le_of_lt (by decide) hv)
    | w2 => exact operands rfl (BitVec.setWidth_ofNat_of_le_of_lt (by decide) hv)
    | w4 => rfl

/-- The bytes that a value of RW bytes is stored as are its encoding: the mask takes nothing off (R26). -/
theorem valueBytes_ofNat {c : Cfg} {v : Nat} (hv : v < 256 ^ c.rw.bytes) :
    valueBytes c (BitVec.ofNat 32 v) = leEncode v c.rw.bytes := by
  rw [valueBytes, and_mask, leEncode_mod_pow, BitVec.toNat_ofNat, Nat.mod_eq_of_lt (hv.trans_le c.rw.pow_le)]

/-- A register that holds a frame's decoded value holds the frame's value bytes, in wire order (R26, R65). -/
theorem HoldsValue.frameBytes {c : Cfg} {a : Addr} {b : List Byte} {m : Memory}
    (h : HoldsValue c a (BitVec.ofNat 32 (leDecode b c.aw.bytes c.rw.bytes)) m)
    (hlen : b.length = c.aw.bytes + c.rw.bytes) {j : Nat} (hj : j < c.rw.bytes) :
    m.read (byteOffset c a j) = b[c.aw.bytes + j]? := by
  have hbytes : valueBytes c (BitVec.ofNat 32 (leDecode b c.aw.bytes c.rw.bytes)) =
      (b.drop c.aw.bytes).take c.rw.bytes := by
    rw [valueBytes_ofNat (leDecode_lt ..), leEncode_leDecode hlen.ge]
  rw [h j hj, ← valueBytes_getElem? c _ hj, hbytes, List.getElem?_take_of_lt hj, List.getElem?_drop]

end Operands

/-! ## The step that a frame makes (R63, R81) -/

section FrameSteps

variable {s : State} {c : Cfg} {b : List Byte} {ts : List Turn}

/-- A frame of AW + RW bytes writes its little-endian value to its little-endian address. -/
theorem step_writeFrame (hr : BusReady c s) (hlen : b.length = c.aw.bytes + c.rw.bytes)
    (hts : s.turns = .op (.rx b) :: ts) :
    step s = writeRegister c (BitVec.ofNat 16 (leDecode b 0 c.aw.bytes))
      (BitVec.ofNat 32 (leDecode b c.aw.bytes c.rw.bytes)) (s.setTurns ts) := by
  rw [step_frame hr.1 hts, decodeFrame_of_write hlen]
  exact exec_write_ready (hr.setTurns ts) (inConfig_writeInstr c _ _)
    (writeOperands_writeInstr (leDecode_lt ..) (leDecode_lt ..))

end FrameSteps

/-! ## The obligations -/

/-- Settles O11: the step writes the frame's value to its address; the value's bytes are the frame's, and the address fits
PRA, so it is the buffer's index as it stands. -/
theorem writeFrameStoresAndFlags : Obligations.WriteFrameStoresAndFlags := by
  intro c s b ts hs hr hlen hn hts
  have haddr : (BitVec.ofNat 16 (leDecode b 0 c.aw.bytes)).toNat = leDecode b 0 c.aw.bytes :=
    toNat_ofNat_address (leDecode_lt ..)
  obtain ⟨m, hstep, hholds, hsame⟩ := writeRegister_inRange ((hs.setTurns ts).block hr.1) (haddr.symm ▸ hn)
    (BitVec.ofNat 32 (leDecode b c.aw.bytes c.rw.bytes))
  have hbytes := fun j hj => hholds.frameBytes hlen (j := j) hj
  simp only [SameOutside, byteOffset, haddr] at hstep hbytes hsame
  exact ⟨m, (step_writeFrame hr hlen hts).trans hstep, hbytes, hsame⟩

/-- Settles O9: the frame decodes to the SELECT row of its address, whose only effect is on PRA. -/
theorem selectFrameSetsPra : Obligations.SelectFrameSetsPra := by
  intro c s b ts hr hlen hts
  rw [step_frame hr.1 hts, decodeFrame_of_select hlen]
  exact exec_select_ready (hr.setTurns ts) (inConfig_selectInstr c _) (selectOperand_selectInstr (leDecode_lt ..))

/-- Settles O10: each of the six rows is in the configuration, so it completes with the effect of R83 and R84. -/
theorem writeRowsComplete : Obligations.WriteRowsComplete := by
  intro c s hs hr
  have effect {i a v} (hi : i.inConfig c = true) (hw : writeOperands i = some (a, v)) :=
    exec_write_effect (hs.block hr.1) hr hi hw
  exact ⟨fun _ _ haw hrw => effect (decide_eq_true ⟨haw, hrw⟩) rfl,
    fun _ _ haw hrw => effect (decide_eq_true ⟨haw, hrw⟩) rfl,
    fun _ _ haw hrw => effect (decide_eq_true ⟨haw, hrw⟩) rfl,
    fun _ _ haw hrw => effect (decide_eq_true ⟨haw, hrw⟩) rfl,
    fun _ _ haw hrw => effect (decide_eq_true ⟨haw, hrw⟩) rfl,
    fun _ _ haw hrw => effect (decide_eq_true ⟨haw, hrw⟩) rfl⟩

/-- Settles O12: the step is a write to an out-of-range address, which neither stores nor flags. -/
theorem outOfRangeWriteChangesNothing : Obligations.OutOfRangeWriteChangesNothing := by
  intro c s b ts hr hlen hn hts
  rw [step_writeFrame hr hlen hts]
  exact writeRegister_outOfRange (by rwa [toNat_ofNat_address (leDecode_lt ..)]) _

/-- Settles O25: the rows of the BUS by kind, those of the HOST one by one; a register access finds its bytes by the
invariant. -/
theorem everyOperationCompletes : Obligations.EveryOperationCompletes := fun _ _ _ hs hi =>
  ⟨fun hb hr => exec_bus_completes (hs.block hr.1) hr hi hb,
    fun hb hr hn => exec_host_completes (hs.block hr.1) hr hb hn⟩

/-- Settles O8: the row of each AW is in the configuration, so it selects its address. -/
theorem selectRowsComplete : Obligations.SelectRowsComplete := fun _ _ hr =>
  ⟨fun _ haw => exec_select_ready hr (decide_eq_true haw) rfl, fun _ haw => exec_select_ready hr (decide_eq_true haw) rfl⟩

/-- Settles O13: the frame decodes to IGNORE, which writes no state. -/
theorem ignoredFrameChangesNothing : Obligations.IgnoredFrameChangesNothing := by
  intro c s b hr hs hw
  refine ⟨exec_ignore_ready hr hs hw, fun ts hts => ?_⟩
  rw [step_frame hr.1 hts, decodeFrame_of_ignore hs hw]
  exact exec_ignore_ready (hr.setTurns ts) hs hw

end Sys2Proof.Machine
end

/-! # The HOST operations (spec/41_host_operations.md): BEGIN, GET, SET and DRAIN on a ready block
-/

section
namespace Sys2Proof.Machine

/-! ## What each HOST operation runs when no other is in flight (R33, R101 to R104) -/

section HostRows

variable {s t : State} {c : Cfg} {a : Addr} {d : Value} {bs : List Byte}

theorem exec_begin_ready (hr : HostReady c s) : exec .begin s = .next (s.setActive true) := by
  rw [exec_begin, hostOperation_ready hr]

theorem exec_drain_ready (hr : HostReady c s) : exec .drain s = .next (drainFlag s) := by
  rw [exec_drain, hostOperation_ready hr]

theorem exec_get_ready (hr : HostReady c s) (hbs : loadRegister c s a = some bs) :
    exec (.get a) s = .next (s.setResult (.value (hostValue bs))) := by
  rw [exec_get, hostOperation_ready hr, hbs, Option.map_some, orOutside_some]

theorem exec_set_ready (hr : HostReady c s) (ht : storeRegister c s a d = some t) : exec (.set a d) s = .next t := by
  rw [exec_set, hostOperation_ready hr, ht, orOutside_some]

end HostRows

/-! ## The register a GET reads, in range and out of range (R27, R102) -/

section Loads

variable {s : State} {c : Cfg} {a : Addr}

/-- Under the invariant an in-range read gives the register's bytes. -/
theorem loadRegister_inRange (hs : BlockInv c s) (ha : a.toNat < c.n) :
    ∃ reg, loadRegister c s a = some reg ∧ IsRegister c a s.buf reg := by
  obtain ⟨reg, hload, hlen, hbytes, -⟩ := loadRegister_exists hs a
  exact ⟨reg, hload, hlen, hbytes (decide_eq_true ha)⟩

theorem loadRegister_outOfRange (ha : c.n ≤ a.toNat) : loadRegister c s a = some (zeros c.rw.bytes) := by
  have hr : inRange c a = false := decide_eq_false (Nat.not_lt.2 ha)
  simp [loadRegister, hr]

/-- A register's number fits its RW bytes (R8, R26). -/
theorem IsRegister.leNat_lt {m : Memory} {reg : List Byte} (h : IsRegister c a m reg) : leNat reg < 256 ^ c.rw.bytes :=
  h.1 ▸ Sys2Proof.leNat_lt reg

@[simp] theorem hostValue_zeros (n : Nat) : hostValue (zeros n) = 0 := by
  rw [hostValue, leNat_zeros]
  rfl

end Loads

/-! ## The states that a BEGIN and a DRAIN leave unchanged (R101, R104) -/

section Unchanged

variable {s : State}

theorem State.setActive_of_active (h : s.active = true) : s.setActive true = s := by
  rw [← h]
  rfl

/-- The DRAIN of a word with no flag set answers VALID = 0 and a drawn IDX (R104, log 4). -/
theorem drainFlag_of_zero (h0 : s.cf = 0) :
    drainFlag s = (s.setResult (.drained false (Config.freeIdx s.draws))).nextDraw := by
  rcases drainFlag_cases s with ⟨i, -, hi, -⟩ | ⟨-, h⟩
  · simp [h0] at hi
  · exact h

end Unchanged

/-! ## The obligations -/

/-- Settles O22: in range the read finds the register's bytes by the invariant, out of range it gives zeros, whose number
is 0; the only field written is the result. -/
theorem getReturnsRegister : Obligations.GetReturnsRegister := by
  intro c s a hs hr
  refine ⟨fun ha => ?_, fun ha => ?_⟩
  · obtain ⟨reg, hload, hreg⟩ := loadRegister_inRange (hs.block hr.1) ha
    exact ⟨reg, hreg, hreg.leNat_lt, exec_get_ready hr hload⟩
  · rw [exec_get_ready hr (loadRegister_outOfRange ha), hostValue_zeros]
    rfl

/-- Settles O23: SET is the register store alone, which the invariant lets succeed. -/
theorem setStoresRegister : Obligations.SetStoresRegister := by
  intro c s a d hs hr
  obtain ⟨t, hstore, heffect⟩ := storeRegister_effect (hs.block hr.1) a d
  exact ⟨t, exec_set_ready hr hstore, heffect⟩

/-- Settles O24: the two cases of the drain, by whether a flag is set; the invariant bounds every set flag, so also the
lowest, by N. -/
theorem drainTakesLowestFlag : Obligations.DrainTakesLowestFlag := by
  intro c s hr
  rw [exec_drain_ready hr]
  refine ⟨fun hne => ?_, fun h0 => ?_⟩
  · rcases drainFlag_cases s with ⟨i, hi, hset, hlow, hdrain⟩ | ⟨h0, -⟩
    · exact ⟨i, hi, hset, hlow, fun hs => (hs.block hr.1).flags i hset, congrArg Host.Outcome.next hdrain⟩
    · exact absurd h0 hne
  · exact ⟨_, _, congrArg Host.Outcome.next (drainFlag_of_zero h0)⟩

/-- Settles O20: BEGIN writes ACTIVE only, so it leaves an active state as it is. -/
theorem beginActivates : Obligations.BeginActivates := by
  intro c s hr
  exact ⟨exec_begin_ready hr, fun ha => by rw [exec_begin_ready hr, State.setActive_of_active ha]⟩

end Sys2Proof.Machine
end

/-! # The access classes of R128 (spec/60_exceptions.md): what each agent's operations leave, and what they never read
-/

section
namespace Sys2Proof.Machine

/-! ## What the operations of each agent can do (R128) -/

section Agents

variable {s t : State} {i : Instr}

theorem isBus_of_selectOperand {a : Addr} (h : selectOperand i = some a) : isBus i = true := by
  cases i with
  | selectA1 a => rfl
  | selectA2 a => rfl
  | _ => cases h

theorem isBus_of_writeOperands {a : Addr} {v : Value} (h : writeOperands i = some (a, v)) : isBus i = true := by
  cases i with
  | writeA1R1 a v => rfl
  | writeA1R2 a v => rfl
  | writeA1R4 a v => rfl
  | writeA2R1 a v => rfl
  | writeA2R2 a v => rfl
  | writeA2R4 a v => rfl
  | _ => cases h

theorem isBus_of_resp (h : i = .respR1 ∨ i = .respR2 ∨ i = .respR4) : isBus i = true := by
  rcases h with rfl | rfl | rfl <;> rfl

/-- A BUS operation that completes ran on a ready block and selected, wrote, did nothing or responded (R82 to R86). -/
theorem exec_bus_next (hb : isBus i = true) (h : exec i s = .next t) :
    ∃ c, BusReady c s ∧ i.inConfig c = true ∧
      ((∃ a, selectOperand i = some a ∧ t = s.setPra a) ∨
        (∃ a v u, writeOperands i = some (a, v) ∧ storeRegister c s a v = some u ∧ t = notify c a u) ∨
        (∃ b, i = .ignore b ∧ t = s) ∨
        ∃ bs, (i = .respR1 ∨ i = .respR2 ∨ i = .respR4) ∧ loadRegister c s s.pra = some bs ∧ t = s.setResponse bs) := by
  rcases exec_next h with ⟨c, a, hr, hi, hsel⟩ | ⟨c, a, v, u, hr, hi, hwrite⟩ | ⟨c, b, hr, hi, hignore⟩ |
    ⟨c, bs, hr, hi, hresp⟩ | ⟨_, n, rw, aw, ba, -, -, rfl, -⟩ | ⟨_, -, rfl, -⟩ | ⟨_, a, bs, -, rfl, -⟩ |
    ⟨_, a, d, -, rfl, -⟩ | ⟨_, -, rfl, -⟩
  · exact ⟨c, hr, hi, .inl ⟨a, hsel⟩⟩
  · exact ⟨c, hr, hi, .inr (.inl ⟨a, v, u, hwrite⟩)⟩
  · exact ⟨c, hr, hi, .inr (.inr (.inl ⟨b, hignore⟩))⟩
  · exact ⟨c, hr, hi, .inr (.inr (.inr ⟨bs, hresp⟩))⟩
  all_goals cases hb

/-- A HOST operation that completes created the block, or ran on a ready one and was a BEGIN, GET, SET or DRAIN (R100 to
R104). -/
theorem exec_host_next (hb : isBus i = false) (h : exec i s = .next t) :
    (∃ c n rw aw ba, s.cfg = none ∧ cfgOf n rw aw ba = some c ∧ i = .configure n rw aw ba ∧ t = s.configured c) ∨
    ∃ c, HostReady c s ∧
      ((i = .begin ∧ t = s.setActive true) ∨
        (∃ a bs, i = .get a ∧ loadRegister c s a = some bs ∧ t = s.setResult (.value (hostValue bs))) ∨
        (∃ a d, i = .set a d ∧ storeRegister c s a d = some t) ∨
        (i = .drain ∧ t = drainFlag s)) := by
  rcases exec_next h with ⟨_, a, -, -, hsel, -⟩ | ⟨_, a, v, u, -, -, hw, -⟩ | ⟨_, b, -, -, rfl, -⟩ |
    ⟨_, bs, -, -, hresp, -⟩ | hconf | ⟨c, hr, hbegin⟩ | ⟨c, a, bs, hr, hget⟩ | ⟨c, a, d, hr, hset⟩ | ⟨c, hr, hdrain⟩
  · rw [isBus_of_selectOperand hsel] at hb; cases hb
  · rw [isBus_of_writeOperands hw] at hb; cases hb
  · cases hb
  · rw [isBus_of_resp hresp] at hb; cases hb
  · exact .inl hconf
  · exact .inr ⟨c, hr, .inl hbegin⟩
  · exact .inr ⟨c, hr, .inr (.inl ⟨a, bs, hget⟩)⟩
  · exact .inr ⟨c, hr, .inr (.inr (.inl ⟨a, d, hset⟩))⟩
  · exact .inr ⟨c, hr, .inr (.inr (.inr hdrain))⟩

end Agents

/-! ## What each agent's operations leave (R128) -/

section Classes

variable {s t : State} {c : Cfg} {i : Instr} {a : Addr} {v : Value}

@[simp] theorem notify_active (c : Cfg) (a : Addr) (s : State) : (notify c a s).active = s.active := by
  rw [notify_eq]; rfl

theorem storeRegister_active (h : storeRegister c s a v = some t) : t.active = s.active := by
  rw [(storeRegister_some h).1, State.setBuf_active]

/-- A flag event clears no flag (R83). -/
theorem notify_clears_none (c : Cfg) (a : Addr) {k : Nat} (hk : s.cf.getLsbD k = true) :
    (notify c a s).cf.getLsbD k = true := by
  rw [notify_cf, hk, Bool.true_or]

theorem exec_bus_clears_none_keeps_cfg_active (hb : isBus i = true) (h : exec i s = .next t) :
    (∀ k, s.cf.getLsbD k = true → t.cf.getLsbD k = true) ∧ t.cfg = s.cfg ∧ t.active = s.active := by
  obtain ⟨c, -, -, ⟨a, -, rfl⟩ | ⟨a, v, u, -, hu, rfl⟩ | ⟨b, -, rfl⟩ | ⟨bs, -, -, rfl⟩⟩ := exec_bus_next hb h
  · exact ⟨fun _ hk => hk, rfl, rfl⟩
  · rw [notify_cfg, notify_active, ← storeRegister_cf hu]
    exact ⟨fun _ => notify_clears_none c a, storeRegister_cfg hu, storeRegister_active hu⟩
  · exact ⟨fun _ hk => hk, rfl, rfl⟩
  · exact ⟨fun _ hk => hk, rfl, rfl⟩

theorem exec_host_sets_none_keeps_cfg_pra (hc : s.cfg = some c) (hb : isBus i = false) (h : exec i s = .next t) :
    (∀ k, t.cf.getLsbD k = true → s.cf.getLsbD k = true) ∧ t.cfg = s.cfg ∧ t.pra = s.pra := by
  rcases exec_host_next hb h with ⟨_, n, rw, aw, ba, hnone, -⟩ |
    ⟨_, -, ⟨-, rfl⟩ | ⟨a, bs, -, -, rfl⟩ | ⟨a, d, -, hst⟩ | ⟨-, rfl⟩⟩
  · rw [hc] at hnone; cases hnone
  · exact ⟨fun _ hk => hk, rfl, rfl⟩
  · exact ⟨fun _ hk => hk, rfl, rfl⟩
  · rw [storeRegister_cf hst]
    exact ⟨fun _ hk => hk, storeRegister_cfg hst, storeRegister_pra hst⟩
  · exact ⟨fun _ => drainFlag_sets_none s, drainFlag_cfg s, drainFlag_pra s⟩

end Classes

/-! ## Another PRA under a HOST operation, another CF under a BUS operation (R28, R128) -/

section NeverRead

variable {s t : State} {c : Cfg} {i : Instr}

theorem BusReady.setCf (hr : BusReady c s) (x : BitVec 32) : BusReady c (s.setCf x) := hr

theorem HostReady.setPra (hr : HostReady c s) (p : Addr) : HostReady c (s.setPra p) := hr

/-- A register write commutes with an update of the state that neither reads nor writes the buffer. -/
theorem storeRegister_update {f : State → State} (hbuf : (f s).buf = s.buf)
    (hset : ∀ m, (f s).setBuf m = f (s.setBuf m)) (c : Cfg) (a : Addr) (v : Value) :
    storeRegister c (f s) a v = (storeRegister c s a v).map f := by
  rw [storeRegister_eq_map, storeRegister_eq_map, hbuf, Option.map_map]
  exact congrArg (Option.map · _) (funext hset)

theorem storeRegister_setCf (c : Cfg) (s : State) (a : Addr) (v : Value) (x : BitVec 32) :
    storeRegister c (s.setCf x) a v = (storeRegister c s a v).map (State.setCf · x) :=
  storeRegister_update (f := (State.setCf · x)) rfl (fun _ => rfl) c a v

theorem storeRegister_setPra (c : Cfg) (s : State) (a : Addr) (v : Value) (p : Addr) :
    storeRegister c (s.setPra p) a v = (storeRegister c s a v).map (State.setPra · p) :=
  storeRegister_update (f := (State.setPra · p)) rfl (fun _ => rfl) c a v

/-- The flag event from another CF leaves the same state but for CF. -/
theorem notify_setCf (c : Cfg) (a : Addr) (s : State) (x : BitVec 32) :
    notify c a (s.setCf x) = (notify c a s).setCf (notify c a (s.setCf x)).cf := by
  rw [notify_eq c a s]
  exact notify_eq c a (s.setCf x)

theorem drainFlag_setPra (p : Addr) (s : State) : drainFlag (s.setPra p) = (drainFlag s).setPra p := by
  simp only [drainFlag, State.setPra_cf]
  cases lowestSet s.cf <;> rfl

/-- A legal CONFIGURE creates the block where there is none (R100). -/
theorem exec_configure_of_none {n rw aw ba : Nat} (hs : s.cfg = none) (hc : cfgOf n rw aw ba = some c) :
    exec (.configure n rw aw ba) s = .next (s.configured c) := by
  simp [exec, execConfigure, hc, hs]

/-- A BUS operation does the same with another CF, but for the CF it leaves. -/
theorem exec_bus_setCf (hb : isBus i = true) (h : exec i s = .next t) (x : BitVec 32) :
    ∃ y, exec i (s.setCf x) = .next (t.setCf y) := by
  obtain ⟨c, hr, hi, ⟨a, ha, rfl⟩ | ⟨a, v, u, hw, hu, rfl⟩ | ⟨b, rfl, rfl⟩ | ⟨bs, hresp, hbs, rfl⟩⟩ := exec_bus_next hb h
  · exact ⟨x, exec_select_ready (hr.setCf x) hi ha⟩
  · exact ⟨(notify c a (u.setCf x)).cf, by
      rw [exec_write_ready (hr.setCf x) hi hw, writeRegister, storeRegister_setCf, hu, Option.map_some, Option.map_some,
        orOutside_some, ← notify_setCf]⟩
  · exact ⟨x, by rw [exec_ignore, onRow_ready (hr.setCf x) hi]⟩
  · have hbs' : loadRegister c (s.setCf x) (s.setCf x).pra = some bs := hbs
    exact ⟨x, by rw [exec_of_resp hresp, onRow_ready (hr.setCf x) hi, respond, hbs']; rfl⟩

/-- A HOST operation does the same with another PRA, but for the PRA it leaves: that of before, or CONFIGURE's 0. -/
theorem exec_host_setPra (hb : isBus i = false) (h : exec i s = .next t) (p : Addr) :
    ∃ q, exec i (s.setPra p) = .next (t.setPra q) := by
  rcases exec_host_next hb h with ⟨c, n, rw, aw, ba, hnone, hcfg, rfl, rfl⟩ |
    ⟨c, hr, ⟨rfl, rfl⟩ | ⟨a, bs, rfl, hbs, rfl⟩ | ⟨a, d, rfl, hst⟩ | ⟨rfl, rfl⟩⟩
  · exact ⟨0, exec_configure_of_none (s := s.setPra p) hnone hcfg⟩
  · exact ⟨p, exec_begin_ready (hr.setPra p)⟩
  · exact ⟨p, exec_get_ready (hr.setPra p) hbs⟩
  · exact ⟨p, exec_set_ready (hr.setPra p) (by rw [storeRegister_setPra, hst, Option.map_some])⟩
  · exact ⟨p, by rw [exec_drain_ready (hr.setPra p), drainFlag_setPra]⟩

end NeverRead

/-! ## The obligations -/

/-- Settles O37: of the BUS operations only WRITE touches CF, by its flag event, which clears nothing; of the HOST operations
on a block only DRAIN touches CF, and it sets nothing. -/
theorem accessClasses : Obligations.AccessClasses := fun _ _ _ _ hc h =>
  ⟨fun hb => exec_bus_clears_none_keeps_cfg_active hb h, fun hb => exec_host_sets_none_keeps_cfg_pra hc hb h⟩

/-- Settles O38: the state left with another PRA differs from the one left without in PRA only. -/
theorem hostNeverReadsPra : Obligations.HostNeverReadsPra := fun _ _ _ p hb h =>
  let ⟨_, h'⟩ := exec_host_setPra hb h p
  ⟨_, h', rfl⟩

/-- Settles O39: the state left with another CF differs from the one left without in CF only. -/
theorem busNeverReadsFlags : Obligations.BusNeverReadsFlags := fun _ _ _ x hb h =>
  let ⟨_, h'⟩ := exec_bus_setCf hb h x
  ⟨_, h', rfl⟩

end Sys2Proof.Machine
end

/-! # A block's life (spec/70_reset_and_hazards.md section 1): nothing reconfigures or resizes a block
-/

section
namespace Sys2Proof.Machine

/-! ## Two states of one block: the same configuration, a buffer of the same bytes (R20, R25, R142) -/

section Life

variable {s t u : State} {c : Cfg} {i : Instr} {a : Addr} {v : Value}

/-- State t has the configuration of state s and a buffer of the same offsets; the bytes at them may differ. -/
structure SameBlock (s t : State) : Prop where
  cfg : t.cfg = s.cfg
  offsets : t.buf.map Prod.fst = s.buf.map Prod.fst

theorem SameBlock.trans (h₁ : SameBlock s t) (h₂ : SameBlock t u) : SameBlock s u :=
  ⟨h₂.cfg.trans h₁.cfg, h₂.offsets.trans h₁.offsets⟩

/-- What writes neither CFG nor the buffer keeps the block. -/
theorem SameBlock.of_eq (hcfg : t.cfg = s.cfg) (hbuf : t.buf = s.buf) : SameBlock s t :=
  ⟨hcfg, congrArg (List.map Prod.fst) hbuf⟩

theorem notify_sameBlock (c : Cfg) (a : Addr) (s : State) : SameBlock s (notify c a s) :=
  .of_eq (notify_cfg c a s) (notify_buf c a s)

theorem drainFlag_sameBlock (s : State) : SameBlock s (drainFlag s) := .of_eq (drainFlag_cfg s) (drainFlag_buf s)

theorem storeRegister_sameBlock (h : storeRegister c s a v = some t) : SameBlock s t := by
  obtain ⟨-, hoffsets, -⟩ := storeRegister_some h
  exact ⟨storeRegister_cfg h, hoffsets⟩

theorem storeByte_sameBlock {x : Access} {k : Nat} (h : storeByte c x k s = some t) : SameBlock s t := by
  obtain ⟨heq, hoffsets, -⟩ := storeByte_some h
  exact ⟨by rw [heq, State.setBuf_cfg], hoffsets⟩

/-! ## What each turn keeps -/

/-- An operation performed whole keeps the block it runs on: WRITE and SET store at offsets that exist, and CONFIGURE, which
alone writes CFG, completes only where there is no block. -/
theorem exec_sameBlock (hc : s.cfg = some c) (h : exec i s = .next t) : SameBlock s t := by
  rcases exec_next h with ⟨_, a, -, -, -, rfl⟩ | ⟨c', a, v, u, -, -, -, hu, rfl⟩ | ⟨_, b, -, -, -, rfl⟩ |
    ⟨_, bs, -, -, -, -, rfl⟩ | ⟨_, n, rw, aw, ba, hnone, -, -, -⟩ | ⟨_, -, -, rfl⟩ | ⟨_, a, bs, -, -, -, rfl⟩ |
    ⟨_, a, d, -, -, hu⟩ | ⟨_, -, -, rfl⟩
  · exact .of_eq rfl rfl
  · exact (storeRegister_sameBlock hu).trans (notify_sameBlock c' a u)
  · exact .of_eq rfl rfl
  · exact .of_eq rfl rfl
  · rw [hc] at hnone; cases hnone
  · exact .of_eq rfl rfl
  · exact .of_eq rfl rfl
  · exact storeRegister_sameBlock hu
  · exact drainFlag_sameBlock s

/-- An operation left in flight has so far written its flight only. -/
theorem startInstr_sameBlock (hc : s.cfg = some c) (h : startInstr i s = .next t) : SameBlock s t := by
  rcases startInstr_next h with ⟨_, a, v, -, -, -, rfl⟩ | ⟨_, -, -, -, rfl⟩ | ⟨_, a, -, -, rfl⟩ | ⟨_, a, d, -, -, rfl⟩ | h
  · exact .of_eq rfl rfl
  · exact .of_eq rfl rfl
  · exact .of_eq rfl rfl
  · exact .of_eq rfl rfl
  · exact exec_sameBlock hc h

theorem busEvent_sameBlock {j : Nat} (h : busEvent j s = .next t) : SameBlock s t := by
  rcases busEvent_next h with ⟨-, rfl⟩ | ⟨_, x, k, rest, u, -, -, -, hu, rfl⟩ | ⟨c, x, -, -, -, rfl⟩ |
    ⟨_, x, k, rest, bs, -, -, -, -, rfl⟩ | ⟨x, -, -, rfl⟩
  · exact .of_eq rfl rfl
  · exact (storeByte_sameBlock hu).trans (.of_eq rfl rfl)
  · exact (notify_sameBlock c x.addr s).trans (.of_eq rfl rfl)
  · exact .of_eq rfl rfl
  · exact .of_eq rfl rfl

theorem hostEvent_sameBlock {j : Nat} (h : hostEvent j s = .next t) : SameBlock s t := by
  rcases hostEvent_next h with ⟨-, rfl⟩ | ⟨_, x, k, rest, bs, -, -, -, -, rfl⟩ | ⟨x, -, -, rfl⟩ |
    ⟨_, x, k, rest, u, -, -, -, hu, rfl⟩ | ⟨x, -, -, rfl⟩
  · exact .of_eq rfl rfl
  · exact .of_eq rfl rfl
  · exact .of_eq rfl rfl
  · exact (storeByte_sameBlock hu).trans (.of_eq rfl rfl)
  · exact .of_eq rfl rfl

theorem takeTurn_sameBlock {tn : Turn} (hc : s.cfg = some c) (h : takeTurn tn s = .next t) : SameBlock s t := by
  cases tn with
  | op o => obtain ⟨i, -, hi⟩ := present_next h; exact exec_sameBlock hc hi
  | start o => obtain ⟨i, -, hi⟩ := present_next h; exact startInstr_sameBlock hc hi
  | busEvent j => exact busEvent_sameBlock h
  | hostEvent j => exact hostEvent_sameBlock h

/-- A step of a block passes, or takes its next turn, which keeps the block. -/
theorem step_sameBlock (hc : s.cfg = some c) (h : step s = .next t) : SameBlock s t := by
  cases hts : s.turns with
  | nil =>
    rw [step_nil hts] at h
    cases h
    exact .of_eq rfl rfl
  | cons tn ts =>
    rw [step_cons hts] at h
    have hturns : SameBlock s (s.setTurns ts) := .of_eq rfl rfl
    exact hturns.trans (takeTurn_sameBlock (s := s.setTurns ts) hc h)

end Life

/-! ## The obligation -/

/-- Settles O18: every turn keeps the block it is taken on, since stores go to offsets that exist and CONFIGURE is refused
where there is a block. -/
theorem configurationFixedForLife : Obligations.ConfigurationFixedForLife := fun _ _ _ hc h =>
  have hsame := step_sameBlock hc h
  ⟨hsame.cfg.trans hc, hsame.offsets⟩

end Sys2Proof.Machine
end

/-! # What every step keeps (spec/10_state.md): the flags, ACTIVE, PRA's bound, and the invariant of the machine's states
-/

section
namespace Sys2Proof.Machine

/-! ## Which operation an instruction was presented as (R62, R69) -/

section Presented

variable {c : Cfg} {i : Instr} {o : Operation} {a : Addr} {v : Value}

/-- On a block an operation other than CONFIGURE, which may leave its widths out, is the encoding of what it decodes to. -/
theorem eq_encode_of_decode (hd : decode (some c) o = .instr i) (hn : ∀ n rw aw ba, i ≠ .configure n rw aw ba) :
    o = encode i := by
  cases o with
  | rx b => cases hd; exact (encode_decodeFrame c b).symm
  | tx => cases hd; exact (encode_respInstr c.rw).symm
  | configure n rw aw ba =>
    simp only [decode, decodeConfigure] at hd
    split at hd <;> cases hd
    exact absurd rfl (hn _ _ _ _)
  | begin => cases hd; rfl
  | get a => cases hd; rfl
  | set a d => cases hd; rfl
  | drain => cases hd; rfl

/-- Only a frame decodes to a WRITE row. -/
theorem decode_writes (hd : decode (some c) o = .instr i) (hw : writeOperands i = some (a, v)) : ∃ b, o = .rx b := by
  have hi : i = writeInstr c.aw c.rw a.toNat v.toNat := eq_writeInstr (decode_inConfig hd) hw
  have ho : o = encode i := eq_encode_of_decode hd fun _ _ _ _ e => by rw [e] at hw; cases hw
  exact ⟨_, by rw [ho, hi, encode_writeInstr]⟩

/-- Only DRAIN decodes to DRAIN. -/
theorem decode_drains (hd : decode (some c) o = .instr .drain) : o = .drain := eq_encode_of_decode hd nofun

end Presented

/-! ## Where an operation stops, performed whole or started (R33, R47, R80) -/

section Stops

variable {s : State} {i : Instr} {r : Result}

/-- A BUS operation stops where the checks of `onRow` stop. -/
theorem bus_stops (hb : isBus i = true) (h : ∀ k, onRow i s k = r) : exec i s = r ∧ startInstr i s = r := by
  obtain ⟨⟨k, hk⟩, k', hk'⟩ := bus_onRow hb s
  exact ⟨hk.trans (h k), hk'.trans (h k')⟩

/-- A HOST operation but CONFIGURE stops where the checks of `hostOperation` stop. -/
theorem host_stops (hb : isBus i = false) (hn : ∀ n rw aw ba, i ≠ .configure n rw aw ba)
    (h : ∀ k, hostOperation s k = r) : exec i s = r ∧ startInstr i s = r := by
  obtain ⟨⟨k, hk⟩, k', hk'⟩ := host_hostOperation hb hn s
  exact ⟨hk.trans (h k), hk'.trans (h k')⟩

end Stops

/-! ## A turn where there is no block (R100) -/

section NoBlockTurns

variable {s t : State} {i : Instr} {tn : Turn} {j : Nat}

theorem cfg_unique {c c' : Cfg} (hc' : s.cfg = some c') (hc : s.cfg = some c) : c' = c :=
  Option.some.inj (hc'.symm.trans hc)

theorem busEvent_noBlock (hc : s.cfg = none) (h : busEvent j s = .next t) : t = s := by
  simp only [busEvent] at h
  split at h
  · cases h; rfl
  all_goals
    obtain ⟨c, hc', -⟩ := withBlock_next h
    rw [hc] at hc'; cases hc'

theorem hostEvent_noBlock (hc : s.cfg = none) (h : hostEvent j s = .next t) : t = s := by
  simp only [hostEvent] at h
  split at h
  · cases h; rfl
  all_goals
    obtain ⟨c, hc', -⟩ := withBlock_next h
    rw [hc] at hc'; cases hc'

/-- Every operation but CONFIGURE stops, performed whole or started. -/
theorem exec_startInstr_noBlock (hc : s.cfg = none) (hn : ∀ n rw aw ba, i ≠ .configure n rw aw ba) :
    exec i s = .fault .noBlock ∧ startInstr i s = .fault .noBlock := by
  cases hb : isBus i with
  | true => exact bus_stops hb fun _ => onRow_noBlock hc
  | false => exact host_stops hb hn fun _ => hostOperation_noBlock hc

/-- An operation that completes, performed whole or started, is a CONFIGURE, which creates a legal block. -/
theorem run_noBlock {run : Instr → State → Result} (hrun : run = exec ∨ run = startInstr) (hc : s.cfg = none)
    (h : run i s = .next t) : ∃ c, c.legal = true ∧ t = s.configured c := by
  by_cases hn : ∀ n rw aw ba, i ≠ .configure n rw aw ba
  · obtain ⟨hexec, hstart⟩ := exec_startInstr_noBlock hc hn
    rcases hrun with rfl | rfl
    · rw [hexec] at h; cases h
    · rw [hstart] at h; cases h
  · simp only [ne_eq, not_forall, not_not] at hn
    obtain ⟨n, rw, aw, ba, rfl⟩ := hn
    have hexec : exec (.configure n rw aw ba) s = .next t := by rcases hrun with rfl | rfl <;> exact h
    simp only [exec, execConfigure] at hexec
    split at hexec
    · cases hexec
    · rename_i c hcfg
      rw [hc] at hexec
      cases hexec
      exact ⟨c, cfgOf_legal hcfg, rfl⟩

theorem takeTurn_noBlock (hc : s.cfg = none) (h : takeTurn tn s = .next t) :
    t = s ∨ ∃ c, c.legal = true ∧ t = s.configured c := by
  cases tn with
  | op o => obtain ⟨i, -, hi⟩ := present_next h; exact .inr (run_noBlock (.inl rfl) hc hi)
  | start o => obtain ⟨i, -, hi⟩ := present_next h; exact .inr (run_noBlock (.inr rfl) hc hi)
  | busEvent j => exact .inl (busEvent_noBlock hc h)
  | hostEvent j => exact .inl (hostEvent_noBlock hc h)

/-- A step passes, or takes the next turn off the list and does it. -/
theorem step_next (h : step s = .next t) :
    t = s ∨ ∃ tn ts, s.turns = tn :: ts ∧ takeTurn tn (s.setTurns ts) = .next t := by
  cases hts : s.turns with
  | nil => rw [step_nil hts] at h; cases h; exact .inl rfl
  | cons tn ts => rw [step_cons hts] at h; exact .inr ⟨tn, ts, rfl, h⟩

/-- A step where there is no block changes the list of turns only, or creates a legal block. -/
theorem step_noBlock (hc : s.cfg = none) (h : step s = .next t) :
    ∃ ts, t = s.setTurns ts ∨ ∃ c, c.legal = true ∧ t = (s.setTurns ts).configured c := by
  rcases step_next h with rfl | ⟨tn, ts, -, hturn⟩
  · exact ⟨t.turns, .inl rfl⟩
  · exact ⟨ts, takeTurn_noBlock (s := s.setTurns ts) hc hturn⟩

end NoBlockTurns

/-! ## Who writes CF (R31, R49, R83, R104) -/

section FlagChanges

variable {s t : State} {c : Cfg} {i : Instr} {a : Addr} {v : Value} {tn : Turn} {ts : List Turn} {j : Nat}

/-- The word y is x without its lowest set bit. -/
def ClearsLowest (x y : BitVec 32) : Prop :=
  ∀ k, y.getLsbD k = (x.getLsbD k && decide (∃ j < k, x.getLsbD j = true))

theorem drainFlag_clearsLowest (s : State) : ClearsLowest s.cf (drainFlag s).cf := by
  intro k
  rcases drainFlag_cases s with ⟨i, -, hset, hlow, h⟩ | ⟨h0, h⟩
  · rw [h, State.setResult_cf, State.setCf_cf, clearFlag_getLsbD]
    cases hk : s.cf.getLsbD k with
    | false => rfl
    | true =>
      have hik : ¬ k < i := fun hlt => by simp [hlow k hlt] at hk
      have hlower : (∃ j < k, s.cf.getLsbD j = true) ↔ k ≠ i :=
        ⟨fun ⟨j, hjk, hj⟩ e => by simp [hlow j (e ▸ hjk)] at hj, fun hne => ⟨i, by omega, hset⟩⟩
      simp [hlower]
  · rw [h]; simp [h0]

/-- The flag event sets the bit of an in-range register below 32, and else changes nothing (R31, R83). -/
theorem notify_cf_eq (c : Cfg) (a : Addr) (s : State) :
    (notify c a s).cf = if a.toNat < c.n ∧ a.toNat < 32 then s.cf ||| (1#32 <<< a.toNat) else s.cf := by
  by_cases hn : a.toNat < c.n
  · rw [notify_inRange hn]
    by_cases h32 : a.toNat < 32 <;> simp [notifyFlag, flagSlots, setFlag, hn, h32]
  · simp [notify, inRange, hn]

/-- A flag event that changes CF is of an in-range register below 32, and sets its bit. -/
theorem notify_cf_ne (h : (notify c a s).cf ≠ s.cf) :
    a.toNat < c.n ∧ a.toNat < 32 ∧ (notify c a s).cf = s.cf ||| (1#32 <<< a.toNat) := by
  rw [notify_cf_eq] at h ⊢
  split at h
  · rename_i ha
    exact ⟨ha.1, ha.2, if_pos ha⟩
  · exact absurd rfl h

theorem exec_write_cf_eq (hc : s.cfg = some c) (hw : writeOperands i = some (a, v)) (h : exec i s = .next t) :
    t.cf = if a.toNat < c.n ∧ a.toNat < 32 then s.cf ||| (1#32 <<< a.toNat) else s.cf := by
  obtain ⟨u, hu, rfl⟩ := exec_write_next hc hw h
  rw [notify_cf_eq, storeRegister_cf hu]

theorem exec_drain_cf (h : exec .drain s = .next t) : ClearsLowest s.cf t.cf := by
  rw [exec_drain_next h]
  exact drainFlag_clearsLowest s

/-- On a block an operation performed whole that is neither a WRITE nor a DRAIN leaves CF. -/
theorem exec_cf_of_other (hc : s.cfg = some c) (hw : writeOperands i = none) (hd : i ≠ .drain)
    (h : exec i s = .next t) : t.cf = s.cf := by
  rcases exec_next h with ⟨_, a, -, -, -, rfl⟩ | ⟨_, a, v, u, -, -, hw', -, -⟩ | ⟨_, b, -, -, -, rfl⟩ |
    ⟨_, bs, -, -, -, -, rfl⟩ | ⟨_, n, rw, aw, ba, hnone, -, -, -⟩ | ⟨_, -, -, rfl⟩ | ⟨_, a, bs, -, -, -, rfl⟩ |
    ⟨_, a, d, -, -, hu⟩ | ⟨_, -, hdrain, -⟩
  · rfl
  · rw [hw] at hw'; cases hw'
  · rfl
  · rfl
  · rw [hc] at hnone; cases hnone
  · rfl
  · rfl
  · exact storeRegister_cf hu
  · exact absurd hdrain hd

/-- An operation started leaves CF, unless it is a DRAIN, which is one event. -/
theorem startInstr_cf_of_ne_drain (hc : s.cfg = some c) (hd : i ≠ .drain) (h : startInstr i s = .next t) :
    t.cf = s.cf := by
  cases hw : writeOperands i with
  | some av =>
    obtain ⟨_, -, -, hk⟩ := onRow_next (startInstr_of_writeOperands hw s ▸ h)
    cases hk; rfl
  | none =>
    rcases startInstr_next h with ⟨_, a, v, -, -, -, rfl⟩ | ⟨_, -, -, -, rfl⟩ | ⟨_, a, -, -, rfl⟩ |
      ⟨_, a, d, -, -, rfl⟩ | h
    · rfl
    · rfl
    · rfl
    · rfl
    · exact exec_cf_of_other hc hw hd h

theorem storeByte_cf {x : Access} {k : Nat} (h : storeByte c x k s = some t) : t.cf = s.cf := by
  rw [(storeByte_some h).1, State.setBuf_cf]

/-- A BUS event changes CF only as the flag event of a WRITE with no byte left to store. -/
theorem busEvent_cf (hc : s.cfg = some c) (h : busEvent j s = .next t) :
    t.cf = s.cf ∨ ∃ x, s.busFlight = some (.write x) ∧ x.todo = [] ∧ t.cf = (notify c x.addr s).cf := by
  rcases busEvent_next h with ⟨-, rfl⟩ | ⟨_, x, k, rest, u, -, -, -, hu, rfl⟩ | ⟨c', x, hc', hf, htodo, rfl⟩ |
    ⟨_, x, k, rest, bs, -, -, -, -, rfl⟩ | ⟨x, -, -, rfl⟩
  · exact .inl rfl
  · exact .inl ((State.setBusFlight_cf u _).trans (storeByte_cf hu))
  · obtain rfl := cfg_unique hc' hc
    exact .inr ⟨x, hf, htodo, rfl⟩
  · exact .inl rfl
  · exact .inl rfl

theorem hostEvent_cf (h : hostEvent j s = .next t) : t.cf = s.cf := by
  rcases hostEvent_next h with ⟨-, rfl⟩ | ⟨_, x, k, rest, bs, -, -, -, -, rfl⟩ | ⟨x, -, -, rfl⟩ |
    ⟨_, x, k, rest, u, -, -, -, hu, rfl⟩ | ⟨x, -, -, rfl⟩
  · rfl
  · rfl
  · rfl
  · exact (State.setHostFlight_cf u _).trans (storeByte_cf hu)
  · rfl

/-- The turns that change CF, each with its change: a WRITE frame performed whole, the flag event of a WRITE in flight, a
DRAIN. -/
inductive ChangesFlags (c : Cfg) (s t : State) : Turn → Prop where
  | write (b : List Byte) (i : Instr) (a : Addr) (v : Value) (hd : decode (some c) (.rx b) = .instr i)
      (hw : writeOperands i = some (a, v)) (hn : a.toNat < c.n) (h32 : a.toNat < 32)
      (hcf : t.cf = s.cf ||| (1#32 <<< a.toNat)) : ChangesFlags c s t (.op (.rx b))
  | flag (j : Nat) (x : Access) (hf : s.busFlight = some (.write x)) (htodo : x.todo = []) (hn : x.addr.toNat < c.n)
      (h32 : x.addr.toNat < 32) (hcf : t.cf = s.cf ||| (1#32 <<< x.addr.toNat)) : ChangesFlags c s t (.busEvent j)
  | drain (hcf : ClearsLowest s.cf t.cf) : ChangesFlags c s t (.op .drain)
  | startDrain (hcf : ClearsLowest s.cf t.cf) : ChangesFlags c s t (.start .drain)

theorem op_changesFlags {o : Operation} (hc : s.cfg = some c) (h : takeTurn (.op o) s = .next t) (hne : t.cf ≠ s.cf) :
    ChangesFlags c s t (.op o) := by
  obtain ⟨i, hd, hi⟩ := present_next h
  rw [hc] at hd
  cases hw : writeOperands i with
  | some av =>
    obtain ⟨a, v⟩ := av
    obtain ⟨b, rfl⟩ := decode_writes hd hw
    obtain ⟨u, hu, rfl⟩ := exec_write_next hc hw hi
    rw [← storeRegister_cf hu] at hne
    obtain ⟨hn, h32, hcf⟩ := notify_cf_ne hne
    exact .write b i a v hd hw hn h32 (storeRegister_cf hu ▸ hcf)
  | none =>
    by_cases hdrain : i = .drain
    · subst hdrain
      obtain rfl := decode_drains hd
      exact .drain (exec_drain_cf hi)
    · exact absurd (exec_cf_of_other hc hw hdrain hi) hne

theorem start_changesFlags {o : Operation} (hc : s.cfg = some c) (h : takeTurn (.start o) s = .next t)
    (hne : t.cf ≠ s.cf) : ChangesFlags c s t (.start o) := by
  obtain ⟨i, hd, hi⟩ := present_next h
  rw [hc] at hd
  by_cases hdrain : i = .drain
  · subst hdrain
    obtain rfl := decode_drains hd
    exact .startDrain (exec_drain_cf hi)
  · exact absurd (startInstr_cf_of_ne_drain hc hdrain hi) hne

theorem takeTurn_changesFlags (hc : s.cfg = some c) (h : takeTurn tn s = .next t) (hne : t.cf ≠ s.cf) :
    ChangesFlags c s t tn := by
  cases tn with
  | op o => exact op_changesFlags hc h hne
  | start o => exact start_changesFlags hc h hne
  | busEvent j =>
    obtain ⟨x, hf, htodo, hcf⟩ := (busEvent_cf hc h).resolve_left hne
    rw [hcf] at hne
    obtain ⟨hn, h32, hset⟩ := notify_cf_ne hne
    exact .flag j x hf htodo hn h32 (hcf.trans hset)
  | hostEvent j => exact absurd (hostEvent_cf h) hne

theorem HostReady.setCf (hr : HostReady c s) (x : BitVec 32) : HostReady c (s.setCf x) := hr

/-- A HOST operation of a block other than DRAIN does the same with another CF, which it leaves. -/
theorem exec_host_setCf (hc : s.cfg = some c) (hb : isBus i = false) (hd : i ≠ .drain) (h : exec i s = .next t)
    (x : BitVec 32) : exec i (s.setCf x) = .next (t.setCf x) := by
  rcases exec_host_next hb h with ⟨_, n, rw, aw, ba, hnone, -⟩ |
    ⟨_, hr, ⟨rfl, rfl⟩ | ⟨a, bs, rfl, hbs, rfl⟩ | ⟨a, d, rfl, hst⟩ | ⟨hdrain, -⟩⟩
  · rw [hc] at hnone; cases hnone
  · exact exec_begin_ready (hr.setCf x)
  · exact exec_get_ready (hr.setCf x) hbs
  · exact exec_set_ready (hr.setCf x) (by rw [storeRegister_setCf, hst, Option.map_some])
  · exact absurd hdrain hd

/-- An operation of a block that is neither a WRITE nor a DRAIN does the same with another CF, which it leaves. -/
theorem exec_setCf_of_other (hc : s.cfg = some c) (hw : writeOperands i = none) (hd : i ≠ .drain)
    (h : exec i s = .next t) (x : BitVec 32) : exec i (s.setCf x) = .next (t.setCf x) := by
  cases hb : isBus i with
  | true =>
    obtain ⟨y, hy⟩ := exec_bus_setCf hb h x
    obtain rfl : y = x := exec_cf_of_other (s := s.setCf x) hc hw hd hy
    exact hy
  | false => exact exec_host_setCf hc hb hd h x

/-- A flag set by a step of a block is of a register (R31). -/
theorem step_sets_register_flags (hc : s.cfg = some c) (h : step s = .next t) {k : Nat} (hk : t.cf.getLsbD k = true) :
    s.cf.getLsbD k = true ∨ (k < c.n ∧ k < 32) := by
  have set_bit : ∀ {a : Addr}, a.toNat < c.n → a.toNat < 32 → t.cf = s.cf ||| (1#32 <<< a.toNat) →
      s.cf.getLsbD k = true ∨ (k < c.n ∧ k < 32) := fun {a} hn h32 hcf => by
    have hbit := setFlag_getLsbD s.cf a.toNat k h32
    rw [setFlag, ← hcf, hk] at hbit
    rcases Bool.or_eq_true_iff.1 hbit.symm with hold | hnew
    · exact .inl hold
    · obtain rfl := of_decide_eq_true hnew
      exact .inr ⟨hn, h32⟩
  have cleared : ClearsLowest s.cf t.cf → s.cf.getLsbD k = true := fun hcf => by
    rw [hcf k, Bool.and_eq_true] at hk
    exact hk.1
  by_cases hne : t.cf = s.cf
  · exact .inl (hne ▸ hk)
  · rcases step_next h with rfl | ⟨tn, ts, -, hturn⟩
    · exact .inl hk
    · cases takeTurn_changesFlags (s := s.setTurns ts) hc hturn hne with
      | write b i a v _ _ hn h32 hcf => exact set_bit hn h32 hcf
      | flag j x _ _ hn h32 hcf => exact set_bit hn h32 hcf
      | drain hcf => exact .inl (cleared hcf)
      | startDrain hcf => exact .inl (cleared hcf)

end FlagChanges

/-! ## Who writes ACTIVE (R33, R101) -/

section Active

variable {s t : State} {c : Cfg} {i : Instr} {tn : Turn} {j : Nat}

@[simp] theorem drainFlag_active (s : State) : (drainFlag s).active = s.active := by
  rcases drainFlag_cases s with ⟨i, -, -, -, h⟩ | ⟨-, h⟩ <;> rw [h] <;> rfl

theorem storeByte_active {x : Access} {k : Nat} (h : storeByte c x k s = some t) : t.active = s.active := by
  rw [(storeByte_some h).1, State.setBuf_active]

/-- On a block an operation performed whole leaves ACTIVE or sets it. -/
theorem exec_active (hc : s.cfg = some c) (h : exec i s = .next t) : t.active = s.active ∨ t.active = true := by
  cases hb : isBus i with
  | true =>
    obtain ⟨-, -, hactive⟩ := exec_bus_clears_none_keeps_cfg_active hb h
    exact .inl hactive
  | false =>
    rcases exec_host_next hb h with ⟨_, n, rw, aw, ba, hnone, -⟩ |
      ⟨_, -, ⟨-, rfl⟩ | ⟨a, bs, -, -, rfl⟩ | ⟨a, d, -, hst⟩ | ⟨-, rfl⟩⟩
    · rw [hc] at hnone; cases hnone
    · exact .inr rfl
    · exact .inl rfl
    · exact .inl (storeRegister_active hst)
    · exact .inl (drainFlag_active s)

theorem startInstr_active (hc : s.cfg = some c) (h : startInstr i s = .next t) :
    t.active = s.active ∨ t.active = true := by
  rcases startInstr_next h with ⟨_, a, v, -, -, -, rfl⟩ | ⟨_, -, -, -, rfl⟩ | ⟨_, a, -, -, rfl⟩ | ⟨_, a, d, -, -, rfl⟩ | h
  · exact .inl rfl
  · exact .inl rfl
  · exact .inl rfl
  · exact .inl rfl
  · exact exec_active hc h

theorem busEvent_active (h : busEvent j s = .next t) : t.active = s.active := by
  rcases busEvent_next h with ⟨-, rfl⟩ | ⟨_, x, k, rest, u, -, -, -, hu, rfl⟩ | ⟨c, x, -, -, -, rfl⟩ |
    ⟨_, x, k, rest, bs, -, -, -, -, rfl⟩ | ⟨x, -, -, rfl⟩
  · rfl
  · exact (State.setBusFlight_active u _).trans (storeByte_active hu)
  · exact notify_active c x.addr s
  · rfl
  · rfl

theorem hostEvent_active (h : hostEvent j s = .next t) : t.active = s.active := by
  rcases hostEvent_next h with ⟨-, rfl⟩ | ⟨_, x, k, rest, bs, -, -, -, -, rfl⟩ | ⟨x, -, -, rfl⟩ |
    ⟨_, x, k, rest, u, -, -, -, hu, rfl⟩ | ⟨x, -, -, rfl⟩
  · rfl
  · rfl
  · rfl
  · exact (State.setHostFlight_active u _).trans (storeByte_active hu)
  · rfl

theorem takeTurn_active (hc : s.cfg = some c) (h : takeTurn tn s = .next t) :
    t.active = s.active ∨ t.active = true := by
  cases tn with
  | op o => obtain ⟨i, -, hi⟩ := present_next h; exact exec_active hc hi
  | start o => obtain ⟨i, -, hi⟩ := present_next h; exact startInstr_active hc hi
  | busEvent j => exact .inl (busEvent_active h)
  | hostEvent j => exact .inl (hostEvent_active h)

/-- No step of a block clears ACTIVE. -/
theorem step_keeps_active (hc : s.cfg = some c) (ha : s.active = true) (h : step s = .next t) : t.active = true := by
  rcases step_next h with rfl | ⟨tn, ts, -, hturn⟩
  · exact ha
  · rcases takeTurn_active (s := s.setTurns ts) hc hturn with heq | hset
    · exact heq.trans ha
    · exact hset

end Active

/-! ## The bound of PRA (R28, R29) -/

section PraBound

variable {s t : State} {c : Cfg}

/-- A step of a block leaves PRA, or writes an address of AW bytes. -/
theorem step_pra (hc : s.cfg = some c) (h : step s = .next t) :
    t.pra = s.pra ∨ t.pra.toNat < 256 ^ c.aw.bytes := by
  by_cases hne : t.pra = s.pra
  · exact .inl hne
  · rcases step_next h with rfl | ⟨tn, ts, -, hturn⟩
    · exact absurd rfl hne
    · obtain ⟨b, -, -, hpra⟩ := takeTurn_pra (s := s.setTurns ts) hc hturn hne
      rw [hpra, toNat_ofNat_address (leDecode_lt ..)]
      exact .inr (leDecode_lt ..)

/-- PRA[15:8] = 0 says that PRA is one byte (R29). -/
theorem extractLsb'_high_eq_zero_iff (p : Addr) : p.extractLsb' 8 8 = 0#8 ↔ p.toNat < 256 := by
  have hp : p.toNat < 65536 := p.isLt
  rw [← BitVec.toNat_inj, BitVec.extractLsb'_toNat, Nat.shiftRight_eq_div_pow]
  simp only [BitVec.toNat_ofNat]
  omega

end PraBound

/-! ## The operations in flight stay well formed (R33, R48) -/

section Flights

variable {s t : State} {c : Cfg} {i : Instr} {tn : Turn} {x : Access} {bs : List Byte} {j k : Nat} {rest : List Nat}

/-- An access that starts with RW bytes, all of them to do, or none out of range, is well formed. -/
theorem ok_of_start {a : Addr} (h : bs.length = c.rw.bytes) :
    (⟨a, bs, if inRange c a then List.range c.rw.bytes else []⟩ : Access).ok c := by
  by_cases hr : inRange c a = true
  · rw [if_pos hr]
    exact ⟨h, ⟨List.nodup_range, fun _ => List.mem_range.1⟩, fun h' => absurd hr (by simp [h'])⟩
  · rw [if_neg hr]
    exact ⟨h, ⟨List.nodup_nil, nofun⟩, fun _ => rfl⟩

theorem reading_ok (c : Cfg) (a : Addr) : (Access.reading c a).ok c := ok_of_start (zeros_length _)

theorem writing_ok (c : Cfg) (a : Addr) (v : Value) : (Access.writing c a v).ok c := ok_of_start (valueBytes_length c v)

/-- A well-formed access with one byte done is well formed. -/
theorem ok_of_pick (hx : x.ok c) (hp : pick x.todo j = some (k, rest)) (hbs : bs.length = c.rw.bytes) :
    (⟨x.addr, bs, rest⟩ : Access).ok c := by
  obtain ⟨-, ⟨hnodup, hlt⟩, hout⟩ := hx
  obtain ⟨hmem, i, -, -, rfl⟩ := pick_some hp
  refine ⟨hbs, ⟨hnodup.eraseIdx i, fun l hl => hlt l (pick_subset hp hl)⟩, fun hr => ?_⟩
  rw [hout hr] at hmem
  cases hmem

theorem loadByte_length (h : loadByte c x k s = some bs) : bs.length = x.data.length := by
  obtain ⟨b, -, rfl⟩ := loadByte_some h
  exact List.length_set ..

/-- What the invariant says of the operations in flight. -/
structure FlightsOk (c : Cfg) (s : State) : Prop where
  active : s.busFlight ≠ none → s.active = true
  bus : ∀ f, s.busFlight = some f → f.access.ok c
  host : ∀ f, s.hostFlight = some f → f.access.ok c

theorem BlockInv.flightsOk (hs : BlockInv c s) : FlightsOk c s := ⟨hs.active, hs.bus, hs.host⟩

/-- It speaks of the operations in flight and of ACTIVE only. -/
theorem FlightsOk.of_eq (hs : FlightsOk c s) (hbus : t.busFlight = s.busFlight) (hhost : t.hostFlight = s.hostFlight)
    (hactive : s.active = true → t.active = true) : FlightsOk c t := by
  refine ⟨fun hf => hactive (hs.active (hbus ▸ hf)), ?_, ?_⟩
  · rw [hbus]; exact hs.bus
  · rw [hhost]; exact hs.host

theorem FlightsOk.setBusFlight (hs : FlightsOk c s) (ha : s.active = true) {f : BusFlight} (hf : f.access.ok c) :
    FlightsOk c (s.setBusFlight (some f)) := ⟨fun _ => ha, fun _ h => Option.some.inj h ▸ hf, hs.host⟩

theorem FlightsOk.setHostFlight (hs : FlightsOk c s) {f : HostFlight} (hf : f.access.ok c) :
    FlightsOk c (s.setHostFlight (some f)) := ⟨hs.active, hs.bus, fun _ h => Option.some.inj h ▸ hf⟩

theorem FlightsOk.endBus (hs : FlightsOk c s) : FlightsOk c (s.setBusFlight none) :=
  ⟨fun h => absurd rfl h, nofun, hs.host⟩

theorem FlightsOk.endHost (hs : FlightsOk c s) : FlightsOk c (s.setHostFlight none) := ⟨hs.active, hs.bus, nofun⟩

theorem FlightsOk.setBuf (hs : FlightsOk c s) (m : Memory) : FlightsOk c (s.setBuf m) := ⟨hs.active, hs.bus, hs.host⟩

theorem FlightsOk.setCf (hs : FlightsOk c s) (y : BitVec 32) : FlightsOk c (s.setCf y) := ⟨hs.active, hs.bus, hs.host⟩

theorem FlightsOk.notify (hs : FlightsOk c s) (a : Addr) : FlightsOk c (notify c a s) := notify_eq c a s ▸ hs.setCf _

theorem FlightsOk.storeRegister {a : Addr} {v : Value} (hs : FlightsOk c s) (h : storeRegister c s a v = some t) :
    FlightsOk c t := (storeRegister_some h).1 ▸ hs.setBuf _

theorem FlightsOk.storeByte (hs : FlightsOk c s) (h : storeByte c x k s = some t) : FlightsOk c t :=
  (storeByte_some h).1 ▸ hs.setBuf _

/-- An operation performed whole leaves nothing in flight that was not. -/
theorem FlightsOk.exec (hs : FlightsOk c s) (hc : s.cfg = some c) (h : exec i s = .next t) : FlightsOk c t := by
  rcases exec_next h with ⟨_, a, -, -, -, rfl⟩ | ⟨_, a, v, u, hr, -, -, hu, rfl⟩ | ⟨_, b, -, -, -, rfl⟩ |
    ⟨_, bs, -, -, -, -, rfl⟩ | ⟨_, n, rw, aw, ba, hnone, -, -, -⟩ | ⟨_, -, -, rfl⟩ | ⟨_, a, bs, -, -, -, rfl⟩ |
    ⟨_, a, d, hr, -, hu⟩ | ⟨_, -, -, rfl⟩
  · exact ⟨hs.active, hs.bus, hs.host⟩
  · obtain rfl := cfg_unique hr.1 hc
    exact (hs.storeRegister hu).notify a
  · exact hs
  · exact ⟨hs.active, hs.bus, hs.host⟩
  · rw [hc] at hnone; cases hnone
  · exact ⟨fun _ => rfl, hs.bus, hs.host⟩
  · exact ⟨hs.active, hs.bus, hs.host⟩
  · obtain rfl := cfg_unique hr.1 hc
    exact hs.storeRegister hu
  · exact hs.of_eq (drainFlag_busFlight s) (drainFlag_hostFlight s) fun ha => (drainFlag_active s).trans ha

/-- A BUS operation is started only while ACTIVE = 1, with a well-formed access; so is a HOST operation. -/
theorem FlightsOk.startInstr (hs : FlightsOk c s) (hc : s.cfg = some c) (h : startInstr i s = .next t) :
    FlightsOk c t := by
  rcases startInstr_next h with ⟨_, a, v, ⟨hc', ha, -⟩, -, -, rfl⟩ | ⟨_, ⟨hc', ha, -⟩, -, -, rfl⟩ |
    ⟨_, a, hr, -, rfl⟩ | ⟨_, a, d, hr, -, rfl⟩ | h
  · obtain rfl := cfg_unique hc' hc
    exact hs.setBusFlight ha (writing_ok _ a v)
  · obtain rfl := cfg_unique hc' hc
    exact hs.setBusFlight ha (reading_ok _ s.pra)
  · obtain rfl := cfg_unique hr.1 hc
    exact hs.setHostFlight (reading_ok _ a)
  · obtain rfl := cfg_unique hr.1 hc
    exact hs.setHostFlight (writing_ok _ a d)
  · exact hs.exec hc h

theorem FlightsOk.busEvent (hs : FlightsOk c s) (hc : s.cfg = some c) (h : busEvent j s = .next t) : FlightsOk c t := by
  rcases busEvent_next h with ⟨-, rfl⟩ | ⟨_, x, k, rest, u, hc', hf, hp, hu, rfl⟩ | ⟨_, x, hc', -, -, rfl⟩ |
    ⟨_, x, k, rest, bs, hc', hf, hp, hbs, rfl⟩ | ⟨x, -, -, rfl⟩
  · exact hs
  · obtain rfl := cfg_unique hc' hc
    have hx : x.ok _ := hs.bus _ hf
    have ha : u.active = true := (storeByte_active hu).trans (hs.active (by simp [hf]))
    exact (hs.storeByte hu).setBusFlight ha (ok_of_pick hx hp hx.1)
  · obtain rfl := cfg_unique hc' hc
    exact (hs.notify x.addr).endBus
  · obtain rfl := cfg_unique hc' hc
    have hx : x.ok _ := hs.bus _ hf
    exact hs.setBusFlight (hs.active (by simp [hf])) (ok_of_pick hx hp ((loadByte_length hbs).trans hx.1))
  · exact FlightsOk.endBus (s := s.setResponse x.data) ⟨hs.active, hs.bus, hs.host⟩

theorem FlightsOk.hostEvent (hs : FlightsOk c s) (hc : s.cfg = some c) (h : hostEvent j s = .next t) :
    FlightsOk c t := by
  rcases hostEvent_next h with ⟨-, rfl⟩ | ⟨_, x, k, rest, bs, hc', hf, hp, hbs, rfl⟩ | ⟨x, -, -, rfl⟩ |
    ⟨_, x, k, rest, u, hc', hf, hp, hu, rfl⟩ | ⟨x, -, -, rfl⟩
  · exact hs
  · obtain rfl := cfg_unique hc' hc
    have hx : x.ok _ := hs.host _ hf
    exact hs.setHostFlight (ok_of_pick hx hp ((loadByte_length hbs).trans hx.1))
  · exact FlightsOk.endHost (s := s.setResult _) ⟨hs.active, hs.bus, hs.host⟩
  · obtain rfl := cfg_unique hc' hc
    have hx : x.ok _ := hs.host _ hf
    exact (hs.storeByte hu).setHostFlight (ok_of_pick hx hp hx.1)
  · exact hs.endHost

theorem FlightsOk.takeTurn (hs : FlightsOk c s) (hc : s.cfg = some c) (h : takeTurn tn s = .next t) :
    FlightsOk c t := by
  cases tn with
  | op o => obtain ⟨i, -, hi⟩ := present_next h; exact hs.exec hc hi
  | start o => obtain ⟨i, -, hi⟩ := present_next h; exact hs.startInstr hc hi
  | busEvent j => exact hs.busEvent hc h
  | hostEvent j => exact hs.hostEvent hc h

theorem FlightsOk.step (hs : FlightsOk c s) (hc : s.cfg = some c) (h : step s = .next t) : FlightsOk c t := by
  rcases step_next h with rfl | ⟨tn, ts, -, hturn⟩
  · exact hs
  · exact FlightsOk.takeTurn (s := s.setTurns ts) ⟨hs.active, hs.bus, hs.host⟩ hc hturn

end Flights

/-! ## The invariant -/

section Invariant

variable {s t : State} {c : Cfg}

/-- The invariant of a state whose configuration is known. -/
theorem BlockInv.stateInv (hs : BlockInv c s) (hc : s.cfg = some c) : StateInv s := by simpa [StateInv, hc] using hs

/-- What CONFIGURE leaves meets the invariant (R100, R140). -/
theorem configured_blockInv (h : c.legal = true) (s : State) : BlockInv c (s.configured c) where
  legal := h
  buffer := initBuf_keys ..
  pra := Nat.pow_pos (by decide)
  flags := fun i hi => by simp at hi
  active := fun hf => absurd rfl hf
  bus := nofun
  host := nofun

/-- A step of a block keeps the block's invariant, clause by clause. -/
theorem BlockInv.step (hs : BlockInv c s) (hc : s.cfg = some c) (h : step s = .next t) : BlockInv c t where
  legal := hs.legal
  buffer := (step_sameBlock hc h).offsets.trans hs.buffer
  pra := by
    rcases step_pra hc h with heq | hlt
    · rw [heq]; exact hs.pra
    · exact hlt
  flags := fun i hi => (step_sets_register_flags hc h hi).elim (hs.flags i) And.left
  active := (hs.flightsOk.step hc h).active
  bus := (hs.flightsOk.step hc h).bus
  host := (hs.flightsOk.step hc h).host

end Invariant

/-! ## The obligations -/

/-- Settles O32: where there is no block a step creates one as CONFIGURE leaves it, or changes the turns only; a step of a
block keeps each clause of its invariant. -/
theorem stepKeepsInvariant : Obligations.StepKeepsInvariant := by
  intro s t hs h
  cases hc : s.cfg with
  | none =>
    obtain ⟨ts, rfl | ⟨c, hlegal, rfl⟩⟩ := step_noBlock hc h
    · exact hs.setTurns ts
    · exact (configured_blockInv hlegal _).stateInv rfl
  | some c => exact ((hs.block hc).step hc h).stateInv ((step_sameBlock hc h).cfg.trans hc)

/-- Settles O31: reset has no block, and every clause is a reset value of R140. -/
theorem resetMeetsInvariant : Obligations.ResetMeetsInvariant :=
  show NoBlock State.reset from ⟨rfl, rfl, rfl, rfl, rfl, rfl⟩

/-- Settles O51: the turns of `ChangesFlags` are the ones listed. -/
theorem stepsThatChangeFlags : Obligations.StepsThatChangeFlags := by
  intro s t c hc h hne
  rcases step_next h with rfl | ⟨tn, ts, hts, hturn⟩
  · exact absurd rfl hne
  · cases takeTurn_changesFlags (s := s.setTurns ts) hc hturn hne with
    | write b i a v hd hw hn h32 hcf => exact .inl ⟨b, ts, i, a, v, hts, hd, hw, hn, h32, hcf⟩
    | flag j x hf htodo hn h32 hcf => exact .inr (.inl ⟨j, ts, x, hts, hf, htodo, hn, h32, hcf⟩)
    | drain hcf => exact .inr (.inr ⟨ts, .inl hts, hcf⟩)
    | startDrain hcf => exact .inr (.inr ⟨ts, .inr hts, hcf⟩)

/-- Settles O35: on a block, of the operations performed whole only a WRITE and a DRAIN touch CF; a step sets flags of
registers below 32 only, and CONFIGURE leaves CF = 0. -/
theorem operationsThatTouchFlags : Obligations.OperationsThatTouchFlags := by
  refine ⟨fun s t c i hc h => ⟨fun a v hw => exec_write_cf_eq hc hw h, ?_, fun hw hd =>
    ⟨exec_cf_of_other hc hw hd h, exec_setCf_of_other hc hw hd h⟩⟩, fun s t hs h c hct k hk => ?_⟩
  · rintro rfl
    exact exec_drain_cf h
  · cases hc : s.cfg with
    | none =>
      obtain ⟨ts, rfl | ⟨c', -, rfl⟩⟩ := step_noBlock hc h
      · rw [State.setTurns_cfg, hc] at hct; cases hct
      · simp at hk
    | some c' =>
      obtain rfl := cfg_unique ((step_sameBlock hc h).cfg.trans hc) hct
      rcases step_sets_register_flags hc h hk with hold | ⟨hn, h32⟩
      · exact hs c' hc k hold
      · exact Nat.lt_min.2 ⟨hn, h32⟩

/-- Settles O34: CONFIGURE leaves PRA = 0, and a step of a block with AW = 1 leaves PRA or writes one byte to it. -/
theorem praHighByteZero : Obligations.PraHighByteZero := by
  refine ⟨nofun, fun s t hs h c hct haw => ?_⟩
  cases hc : s.cfg with
  | none =>
    obtain ⟨ts, rfl | ⟨c', -, rfl⟩⟩ := step_noBlock hc h
    · rw [State.setTurns_cfg, hc] at hct; cases hct
    · exact (extractLsb'_high_eq_zero_iff 0).2 (by decide)
  | some c' =>
    obtain rfl := cfg_unique ((step_sameBlock hc h).cfg.trans hc) hct
    rcases step_pra hc h with heq | hlt
    · rw [heq]; exact hs c' hc haw
    · rw [haw] at hlt
      exact (extractLsb'_high_eq_zero_iff t.pra).2 hlt

end Sys2Proof.Machine
end

/-! # Presenting an operation: where it is stopped, what CONFIGURE creates, what ACTIVE enables (spec/10_state.md sections 1
and 5, spec/41_host_operations.md section 1)
-/

section
namespace Sys2Proof.Machine

/-! ## The legal configurations (R21) -/

section Configurations

variable {s : State} {c : Cfg} {n rw aw ba : Nat}

@[simp] theorem regWidthOf_bytes (w : RegWidth) : regWidthOf w.bytes = some w := by cases w <;> rfl

@[simp] theorem addrWidthOf_bytes (w : AddrWidth) : addrWidthOf w.bytes = some w := by cases w <;> rfl

theorem regWidthOf_eq_some_iff {w : RegWidth} : regWidthOf n = some w ↔ n = w.bytes := by
  refine ⟨fun h => ?_, fun h => h ▸ regWidthOf_bytes w⟩
  unfold regWidthOf at h
  split at h <;> cases h <;> rfl

theorem addrWidthOf_eq_some_iff {w : AddrWidth} : addrWidthOf n = some w ↔ n = w.bytes := by
  refine ⟨fun h => ?_, fun h => h ▸ addrWidthOf_bytes w⟩
  unfold addrWidthOf at h
  split at h <;> cases h <;> rfl

theorem exists_regWidth_iff : (∃ w : RegWidth, n = w.bytes) ↔ n = 1 ∨ n = 2 ∨ n = 4 := by
  constructor
  · rintro ⟨w, rfl⟩
    cases w <;> decide
  · rintro (rfl | rfl | rfl)
    · exact ⟨.w1, rfl⟩
    · exact ⟨.w2, rfl⟩
    · exact ⟨.w4, rfl⟩

theorem exists_addrWidth_iff : (∃ w : AddrWidth, n = w.bytes) ↔ n = 1 ∨ n = 2 := by
  constructor
  · rintro ⟨w, rfl⟩
    cases w <;> decide
  · rintro (rfl | rfl)
    · exact ⟨.a1, rfl⟩
    · exact ⟨.a2, rfl⟩

/-- The configuration that operands describe has them as its widths, and they are in the bounds of R21. -/
theorem cfgOf_eq_some_iff : cfgOf n rw aw ba = some c ↔
    rw = c.rw.bytes ∧ aw = c.aw.bytes ∧ (n ≤ 256 ^ aw ∧ ba < 128) ∧ n = c.n ∧ BitVec.ofNat 7 ba = c.busAddr := by
  constructor
  · intro h
    unfold cfgOf at h
    split at h
    · rename_i r a hr ha
      split at h
      · rename_i hbounds
        cases h
        obtain rfl := addrWidthOf_eq_some_iff.1 ha
        exact ⟨regWidthOf_eq_some_iff.1 hr, rfl, hbounds, rfl, rfl⟩
      · cases h
    · cases h
  · rintro ⟨rfl, rfl, hbounds, rfl, hba⟩
    simp [cfgOf, hbounds, hba]

/-- Operands describe a configuration exactly if they are legal (R21). -/
theorem exists_cfgOf_iff : (∃ c, cfgOf n rw aw ba = some c) ↔
    (rw = 1 ∨ rw = 2 ∨ rw = 4) ∧ (aw = 1 ∨ aw = 2) ∧ n ≤ 256 ^ aw ∧ ba < 128 := by
  rw [← exists_regWidth_iff, ← exists_addrWidth_iff]
  constructor
  · rintro ⟨c, h⟩
    obtain ⟨hrw, haw, hbounds, -⟩ := cfgOf_eq_some_iff.1 h
    exact ⟨⟨c.rw, hrw⟩, ⟨c.aw, haw⟩, hbounds⟩
  · rintro ⟨⟨r, hr⟩, ⟨a, ha⟩, hbounds⟩
    exact ⟨⟨n, r, a, BitVec.ofNat 7 ba⟩, cfgOf_eq_some_iff.2 ⟨hr, ha, hbounds, rfl, rfl⟩⟩

/-- A legal configuration is described by its own operands. -/
theorem cfgOf_self (h : c.legal = true) : cfgOf c.n c.rw.bytes c.aw.bytes c.busAddr.toNat = some c :=
  cfgOf_eq_some_iff.2 ⟨rfl, rfl, ⟨of_decide_eq_true h, c.busAddr.isLt⟩, rfl, by simp⟩

theorem exec_configure_illegal (h : cfgOf n rw aw ba = none) (s : State) :
    exec (.configure n rw aw ba) s = .refused .illegalConfiguration := by
  simp [exec, execConfigure, h]

theorem exec_configure_second {c' : Cfg} (hc : s.cfg = some c') (h : cfgOf n rw aw ba = some c) :
    exec (.configure n rw aw ba) s = .refused .secondInstance := by
  simp [exec, execConfigure, h, hc]

/-- A buffer that lists each offset of l with its byte reads as that byte there. -/
theorem Memory.read_map {f : Nat → Byte} {l : List Nat} {k : Nat} (hk : k ∈ l) :
    Memory.read (l.map fun k => (k, f k)) k = some (f k) := by
  induction l with
  | nil => cases hk
  | cons off l ih =>
    simp only [List.map_cons, Memory.read]
    split
    · subst off; rfl
    · rename_i hne
      exact ih ((List.mem_cons.1 hk).resolve_left (Ne.symm hne))

/-- Each byte of a drawn buffer is the free value of its number (R100, D4). -/
theorem initBuf_read {draw size k : Nat} (hk : k < size) : (initBuf draw size).read k = some (Config.initByte draw k) :=
  Memory.read_map (List.mem_range.2 hk)

end Configurations

/-! ## Presented before there is a block (R21, R100) -/

section BeforeBlock

variable {s : State}

/-- With no block the decoder rejects every operation but CONFIGURE (R21, R100). -/
theorem decode_noBlock {o : Operation} (hn : ∀ n rw aw ba, o ≠ .configure n rw aw ba) :
    decode none o = .reject .noBlock := by
  cases o with
  | configure n rw aw ba => exact absurd rfl (hn n rw aw ba)
  | _ => rfl

theorem present_noBlock {o : Operation} (hc : s.cfg = none) (hn : ∀ n rw aw ba, o ≠ .configure n rw aw ba)
    (run : Instr → State → Result) : present run o s = .fault .noBlock := by
  simp [present, hc, decode_noBlock hn]

end BeforeBlock

/-! ## HOST operations whatever ACTIVE is (R33) -/

section WhateverActive

variable {s : State} {c : Cfg} {i : Instr}

theorem HostReady.setActive (hr : HostReady c s) (b : Bool) : HostReady c (s.setActive b) := hr

/-- With no BUS operation in flight the invariant holds whatever ACTIVE is. -/
theorem BlockInv.setActive (hs : BlockInv c s) (hf : s.busFlight = none) (b : Bool) : BlockInv c (s.setActive b) :=
  ⟨hs.legal, hs.buffer, hs.pra, hs.flags, fun h => absurd hf h, hs.bus, hs.host⟩

/-- A HOST operation but CONFIGURE can be started on a ready block. -/
theorem startInstr_host_completes (hs : BlockInv c s) (hr : HostReady c s) (hb : isBus i = false)
    (hn : ∀ n rw aw ba, i ≠ .configure n rw aw ba) : ∃ t, startInstr i s = .next t := by
  cases i with
  | configure n rw aw ba => exact absurd rfl (hn n rw aw ba)
  | get a => exact ⟨_, (startInstr_get a s).trans (hostOperation_ready hr)⟩
  | set a d => exact ⟨_, (startInstr_set a d s).trans (hostOperation_ready hr)⟩
  | begin => exact exec_host_completes hs hr hb hn
  | drain => exact exec_host_completes hs hr hb hn
  | _ => cases hb

end WhateverActive

/-! ## The host's table word (log 2) -/

section TableWord

variable {s : State} {nbits w : Nat} {i : Instr}

@[simp] theorem ready_cfg (c : Cfg) (s : State) : (ready c s).cfg = some c := by
  by_cases hc : s.cfg = some c <;> simp [ready, hc]

theorem decode_of_tableWord (h : decodeTableWord nbits w = some i) :
    decode (some (tableCfg (tableFrame nbits w).length)) (.rx (tableFrame nbits w)) = .instr i := by
  unfold decodeTableWord at h
  split at h
  · rename_i i' hi
    cases h; exact hi
  · cases h

end TableWord

/-! ## The obligations -/

/-- Settles O15: CONFIGURE is refused where `cfgOf` describes no configuration, and creates the one described elsewhere. -/
theorem legalConfigurations : Obligations.LegalConfigurations := by
  refine fun n rw aw ba s => ⟨fun hlegal hc => ?_, fun hillegal => ?_⟩
  · obtain ⟨c, hcfg⟩ := exists_cfgOf_iff.2 hlegal
    exact ⟨_, exec_configure_of_none hc hcfg⟩
  · have hnone : cfgOf n rw aw ba = none := by
      by_contra hsome
      exact hillegal (exists_cfgOf_iff.1 (Option.ne_none_iff_exists'.1 hsome))
    exact exec_configure_illegal hnone s

/-- Settles O16: a legal configuration's own operands describe it, and CONFIGURE leaves `State.configured` of it. -/
theorem configureCreatesBlock : Obligations.ConfigureCreatesBlock := fun c _ hlegal hc =>
  ⟨_, exec_configure_of_none hc (cfgOf_self hlegal), rfl, initBuf_keys _ c.bufSize, fun _ hk => initBuf_read hk⟩

/-- Settles O19: a legal configuration passes the first check of CONFIGURE, and the block stops it at the second. -/
theorem secondConfigureRefused : Obligations.SecondConfigureRefused := by
  intro s c n rw aw ba hc hlegal
  obtain ⟨c', hcfg⟩ := Option.isSome_iff_exists.1 hlegal
  exact exec_configure_second hc hcfg

/-- Settles O21: a BUS operation stops at the check of ACTIVE, a HOST operation has none, and of the turns only BEGIN writes
ACTIVE on a block. -/
theorem activeGatesTheBus : Obligations.ActiveGatesTheBus := by
  refine ⟨rfl, fun s t c hc ha h => step_keeps_active hc ha h,
    fun s c i hc ha hb => bus_stops hb fun _ => onRow_inactive hc ha, fun s c b hs hr hf => ?_⟩
  have hinv : BlockInv c (s.setActive b) := (hs.block hr.1).setActive hf b
  have whole {i} (hb : isBus i = false) (hn) := exec_host_completes (i := i) hinv (hr.setActive b) hb hn
  have started {i} (hb : isBus i = false) (hn) := startInstr_host_completes (i := i) hinv (hr.setActive b) hb hn
  exact ⟨exec_begin_ready (hr.setActive b), whole rfl nofun, fun _ => whole rfl nofun, fun _ _ => whole rfl nofun,
    exec_begin_ready (hr.setActive b), started rfl nofun, fun _ => started rfl nofun, fun _ _ => started rfl nofun⟩

/-- Settles O26: each agent's checks refuse a second operation. -/
theorem overlapRefused : Obligations.OverlapRefused := fun _ _ _ hc =>
  ⟨fun hb ha hf => bus_stops hb fun _ => onRow_overlap hc ha hf,
    fun hb hf hn => host_stops hb hn fun _ => hostOperation_overlap hc hf⟩

/-- Settles O50: the checks of each agent, and the decoder before them, stop where there is no block. -/
theorem noOperationBeforeConfigure : Obligations.NoOperationBeforeConfigure := by
  refine fun s hc => ⟨fun i hn => exec_startInstr_noBlock hc hn, fun o ts hn hts => ?_⟩
  rcases hts with hts | hts
  · rw [step_cons hts]
    exact present_noBlock (s := s.setTurns ts) hc hn exec
  · rw [step_cons hts]
    exact present_noBlock (s := s.setTurns ts) hc hn startInstr

/-- Settles O6: the step takes the turn off the list, and presenting the operation runs what it decodes to. -/
theorem stepRunsDecodedInstruction : Obligations.StepRunsDecodedInstruction := by
  intro s o i ts hd
  refine ⟨fun hts => ?_, fun hts => ?_⟩
  · rw [step_cons hts]
    exact present_instr hd
  · rw [step_cons hts]
    exact present_instr hd

/-- Settles O7: the word's frame is the only turn, on a block of the configuration under which the word is read. -/
theorem tableWordRunsNext : Obligations.TableWordRunsNext := by
  intro s nbits w i hword
  have hd : decode (s.withFetchWord nbits w).cfg (.rx (tableFrame nbits w)) = .instr i := by
    rw [State.withFetchWord, placeTableWord, State.setTurns_cfg, ready_cfg]
    exact decode_of_tableWord hword
  exact (stepRunsDecodedInstruction _ _ i [] hd).1 rfl

end Sys2Proof.Machine
end

/-! # Operations one after another (R32, R89, R105, R106): a register keeps its bytes until it is stored to, and the HOST's
loop of DRAINs
-/

section
namespace Sys2Proof.Machine

/-! ## The bytes a register access reads (R25, R27) -/

section Reads

variable {s t : State} {c : Cfg} {a b : Addr} {d v : Value} {i : Instr} {bs : List Byte}

/-- A run of reads gives the bytes that stand at its offsets. -/
theorem Memory.readBytes_of_read {m : Memory} {off : Nat} {bs : List Byte}
    (h : ∀ j < bs.length, m.read (off + j) = bs[j]?) : m.readBytes off bs.length = some bs := by
  induction bs generalizing off with
  | nil => rfl
  | cons b bs ih =>
    have hb : m.read off = some b := by simpa using h 0 (by simp)
    have hbs : m.readBytes (off + 1) bs.length = some bs := ih fun j hj => by
      rw [show off + 1 + j = off + (j + 1) by omega, h (j + 1) (by simpa using hj), List.getElem?_cons_succ]
    simp [Memory.readBytes, hb, hbs]

/-- A run of reads depends on the bytes at its offsets only. -/
theorem Memory.readBytes_congr {m m' : Memory} {off n : Nat} (h : ∀ j < n, m'.read (off + j) = m.read (off + j)) :
    m'.readBytes off n = m.readBytes off n := by
  induction n generalizing off with
  | zero => rfl
  | succ n ih =>
    have htail : m'.readBytes (off + 1) n = m.readBytes (off + 1) n := ih fun j hj => by
      rw [show off + 1 + j = off + (j + 1) by omega]
      exact h (j + 1) (by omega)
    have hhead : m'.read off = m.read off := h 0 (by omega)
    simp only [Memory.readBytes, hhead, htail]

/-- A register that holds a value reads as the value's bytes. -/
theorem loadRegister_of_holdsValue (hn : a.toNat < c.n) (h : HoldsValue c a v s.buf) :
    loadRegister c s a = some (valueBytes c v) := by
  have hr : inRange c a = true := decide_eq_true hn
  have hread := Memory.readBytes_of_read (m := s.buf) (off := byteOffset c a 0) (bs := valueBytes c v) fun j hj => by
    rw [valueBytes_length] at hj
    rw [valueBytes_getElem? c v hj]
    exact h j hj
  rw [valueBytes_length] at hread
  simp [loadRegister, hr, hread]

/-- A read of a register depends on the register's bytes only. -/
theorem loadRegister_congr (h : ∀ j < c.rw.bytes, t.buf.read (byteOffset c a j) = s.buf.read (byteOffset c a j)) :
    loadRegister c t a = loadRegister c s a := by
  have hbytes : t.buf.readBytes (byteOffset c a 0) c.rw.bytes = s.buf.readBytes (byteOffset c a 0) c.rw.bytes :=
    Memory.readBytes_congr h
  simp only [loadRegister, hbytes]

theorem loadRegister_length (h : loadRegister c s a = some bs) : bs.length = c.rw.bytes := by
  by_cases hr : inRange c a = true
  · rw [loadRegister, if_pos hr] at h
    exact (Memory.readBytes_spec h).1
  · rw [loadRegister, if_neg hr] at h
    cases h
    exact zeros_length _

/-- A store to another register does not change what a read of this one gives. -/
theorem loadRegister_storeRegister_other (h : storeRegister c s b d = some t) (hne : b ≠ a) :
    loadRegister c t a = loadRegister c s a :=
  loadRegister_congr ((storeRegister_sameOutside h).register hne)

theorem storesTo_of_writeOperands (h : writeOperands i = some (a, v)) : storesTo i = some a := by
  cases i <;> cases h <;> rfl

/-- On a block an operation that does not store to register a does not change what a read of it gives. -/
theorem exec_loadRegister (hc : s.cfg = some c) (hi : storesTo i ≠ some a) (h : exec i s = .next t) :
    loadRegister c t a = loadRegister c s a := by
  have of_buf : t.buf = s.buf → loadRegister c t a = loadRegister c s a := fun hbuf =>
    loadRegister_congr fun _ _ => by rw [hbuf]
  rcases exec_next h with ⟨_, a', -, -, -, rfl⟩ | ⟨_, a', v, u, hr, -, hw, hu, rfl⟩ | ⟨_, b, -, -, -, rfl⟩ |
    ⟨_, bs, -, -, -, -, rfl⟩ | ⟨_, n, rw, aw, ba, hnone, -, -, -⟩ | ⟨_, -, -, rfl⟩ | ⟨_, a', bs, -, -, -, rfl⟩ |
    ⟨_, a', d, hr, rfl, hu⟩ | ⟨_, -, -, rfl⟩
  · exact of_buf rfl
  · obtain rfl := cfg_unique hr.1 hc
    have hne : a' ≠ a := fun e => hi (e ▸ storesTo_of_writeOperands hw)
    exact (loadRegister_congr fun _ _ => by rw [notify_buf]).trans (loadRegister_storeRegister_other hu hne)
  · exact of_buf rfl
  · exact of_buf rfl
  · rw [hc] at hnone; cases hnone
  · exact of_buf rfl
  · exact of_buf rfl
  · obtain rfl := cfg_unique hr.1 hc
    exact loadRegister_storeRegister_other hu fun e => hi (congrArg some e)
  · exact of_buf (drainFlag_buf s)

/-- A GET that completes returns the bytes it read (R102). -/
theorem exec_get_next (hc : s.cfg = some c) (h : exec (.get a) s = .next t) :
    ∃ bs, loadRegister c s a = some bs ∧ t = s.setResult (.value (hostValue bs)) := by
  obtain ⟨_, hr, hk⟩ := hostOperation_next h
  obtain rfl := cfg_unique hr.1 hc
  obtain ⟨bs, hbs, rfl⟩ := Option.map_eq_some_iff.1 (orOutside_next hk)
  exact ⟨bs, hbs, rfl⟩

/-- A TX_REQUEST that completes emits the bytes of the register at PRA (R86). -/
theorem exec_resp_next (hc : s.cfg = some c) (hi : i = .respR1 ∨ i = .respR2 ∨ i = .respR4) (h : exec i s = .next t) :
    ∃ bs, loadRegister c s s.pra = some bs ∧ t = s.setResponse bs := by
  rw [exec_of_resp hi] at h
  obtain ⟨_, hr, -, hk⟩ := onRow_next h
  obtain rfl := cfg_unique hr.1 hc
  obtain ⟨bs, hbs, rfl⟩ := Option.map_eq_some_iff.1 (orOutside_next hk)
  exact ⟨bs, hbs, rfl⟩

theorem exec_select_next (ha : selectOperand i = some a) (h : exec i s = .next t) : t = s.setPra a := by
  rw [exec_of_selectOperand ha] at h
  obtain ⟨_, -, -, hk⟩ := onRow_next h
  cases hk; rfl

/-- The HOST port's view of RW bytes encodes to these bytes (R44). -/
theorem leEncode_hostValue (h : bs.length = c.rw.bytes) : leEncode (hostValue bs).toNat c.rw.bytes = bs := by
  have hlt : leNat bs < 2 ^ 32 := (leNat_lt bs).trans_le (h ▸ c.rw.pow_le)
  rw [hostValue, BitVec.toNat_ofNat, Nat.mod_eq_of_lt hlt, ← h, leEncode_leNat]

end Reads

/-! ## Sequences of operations -/

section Sequences

variable {s t : State} {c : Cfg} {a : Addr} {is js : List Instr}

theorem performAll_append_next (h : performAll (is ++ js) s = .next t) :
    ∃ u, performAll is s = .next u ∧ performAll js u = .next t := by
  induction is generalizing s with
  | nil => exact ⟨s, rfl, h⟩
  | cons i is ih =>
    obtain ⟨s₁, h₁, h⟩ := performAll_cons_next h
    obtain ⟨u, hu, ht⟩ := ih h
    exact ⟨u, by rw [performAll, h₁]; exact hu, ht⟩

/-- What each of the operations keeps, all of them one after another keep. -/
theorem performAll_invariant {P : State → Prop} (hstep : ∀ i ∈ is, ∀ {s t}, P s → exec i s = .next t → P t) (hs : P s)
    (h : performAll is s = .next t) : P t := by
  induction is generalizing s with
  | nil => cases h; exact hs
  | cons i is ih =>
    obtain ⟨u, hu, h⟩ := performAll_cons_next h
    exact ih (fun i' hi' => hstep i' (List.mem_cons_of_mem _ hi')) (hstep i List.mem_cons_self hs hu) h

/-- Operations of a block that do not store to register a keep the block and what a read of the register gives. -/
theorem performAll_loadRegister (hc : s.cfg = some c) (his : ∀ i ∈ is, storesTo i ≠ some a)
    (h : performAll is s = .next t) : t.cfg = some c ∧ loadRegister c t a = loadRegister c s a :=
  performAll_invariant (P := fun u => u.cfg = some c ∧ loadRegister c u a = loadRegister c s a)
    (fun i hi _ _ hu h =>
      ⟨(exec_sameBlock hu.1 h).cfg.trans hu.1, (exec_loadRegister hu.1 (his i hi) h).trans hu.2⟩)
    ⟨hc, rfl⟩ h

/-- Operations of a block that do not select keep PRA. -/
theorem performAll_pra (hc : s.cfg = some c) (his : ∀ i ∈ is, selectOperand i = none) (h : performAll is s = .next t) :
    t.pra = s.pra := by
  have hkept : t.cfg = some c ∧ t.pra = s.pra :=
    performAll_invariant (P := fun u => u.cfg = some c ∧ u.pra = s.pra)
      (fun i hi _ _ hu h => ⟨(exec_sameBlock hu.1 h).cfg.trans hu.1,
        ((exec_pra hu.1 h).resolve_right (by simp [his i hi])).trans hu.2⟩) ⟨hc, rfl⟩ h
  exact hkept.2

end Sequences

/-! ## The loop of DRAINs (R105) -/

section DrainLoop

variable {s : State} {c : Cfg} {fuel k : Nat}

theorem HostReady.drainFlag (hr : HostReady c s) : HostReady c (drainFlag s) :=
  ⟨(drainFlag_cfg s).trans hr.1, (drainFlag_hostFlight s).trans hr.2⟩

/-- The loop returns the lowest set flag, then goes on. -/
theorem drainLoop_of_lowest (hr : HostReady c s) (hk : s.cf.getLsbD k = true) (hlow : ∀ j < k, s.cf.getLsbD j = false) :
    drainLoop (fuel + 1) s =
      (BitVec.ofNat 5 k :: (drainLoop fuel (drainFlag s)).1, (drainLoop fuel (drainFlag s)).2) := by
  have hres : (drainFlag s).result = some (.drained true (BitVec.ofNat 5 k)) := by rw [drainFlag_of_lowest hk hlow]; rfl
  simp only [drainLoop, exec_drain_ready hr, hres]

/-- With no flag set the loop ends. -/
theorem drainLoop_of_zero (hr : HostReady c s) (h0 : s.cf = 0) : drainLoop (fuel + 1) s = ([], drainFlag s) := by
  have hres : (drainFlag s).result = some (.drained false (Config.freeIdx s.draws)) := by rw [drainFlag_of_zero h0]; rfl
  simp only [drainLoop, exec_drain_ready hr, hres]

/-- What the loop returns and leaves: the set flags in ascending order, CF = 0, VALID = 0. -/
structure DrainsAll (s : State) (r : List (BitVec 5) × State) : Prop where
  ascending : (r.1.map BitVec.toNat).Pairwise (· < ·)
  exact : ∀ k : BitVec 5, k ∈ r.1 ↔ s.cf.getLsbD k.toNat = true
  cleared : r.2.cf = 0
  ended : ∃ idx, r.2.result = some (.drained false idx)

theorem drainsAll_of_zero (h0 : s.cf = 0) : DrainsAll s ([], drainFlag s) where
  ascending := .nil
  exact := fun k => by simp [h0]
  cleared := by rw [drainFlag_of_zero h0]; exact h0
  ended := ⟨_, by rw [drainFlag_of_zero h0]; rfl⟩

/-- One DRAIN of the lowest flag, and then all the others. -/
theorem DrainsAll.cons {r : List (BitVec 5) × State} (h : DrainsAll (drainFlag s) r) (h32 : k < 32)
    (hk : s.cf.getLsbD k = true) (hlow : ∀ j < k, s.cf.getLsbD j = false) :
    DrainsAll s (BitVec.ofNat 5 k :: r.1, r.2) := by
  have hidx : (BitVec.ofNat 5 k).toNat = k := by rw [BitVec.toNat_ofNat, Nat.mod_eq_of_lt h32]
  have hcf : ∀ j, (drainFlag s).cf.getLsbD j = (s.cf.getLsbD j && !decide (j = k)) := fun j => by
    rw [drainFlag_of_lowest hk hlow]; exact clearFlag_getLsbD s.cf k j
  have habove : ∀ x ∈ r.1, k < x.toNat := fun x hx => by
    obtain ⟨hset, hne⟩ : s.cf.getLsbD x.toNat = true ∧ x.toNat ≠ k := by simpa [hcf] using (h.exact x).1 hx
    have hnot : ¬ x.toNat < k := fun hlt => by simp [hlow _ hlt] at hset
    omega
  refine ⟨?_, fun x => ?_, h.cleared, h.ended⟩
  · rw [List.map_cons, List.pairwise_cons, hidx]
    exact ⟨by simpa using habove, h.ascending⟩
  · rw [List.mem_cons, h.exact, hcf]
    by_cases hx : x.toNat = k
    · have hxk : x = BitVec.ofNat 5 k := BitVec.eq_of_toNat_eq (hx.trans hidx.symm)
      simp [hxk, hidx, hk]
    · have hxk : x ≠ BitVec.ofNat 5 k := fun e => hx (e ▸ hidx)
      simp [hxk, hx]

/-- With fuel for one more DRAIN than there are bits at or above the lowest set one, the loop takes every flag. -/
theorem drainLoop_drainsAll (hr : HostReady c s) (hlow : ∀ k, k + fuel < 32 → s.cf.getLsbD k = false) :
    DrainsAll s (drainLoop (fuel + 1) s) := by
  induction fuel generalizing s with
  | zero =>
    have h0 : s.cf = 0 := BitVec.eq_of_getLsbD_eq fun k hk => by simpa using hlow k hk
    exact drainLoop_of_zero hr h0 ▸ drainsAll_of_zero h0
  | succ fuel ih =>
    rcases drainFlag_cases s with ⟨i, h32, hset, hbelow, -⟩ | ⟨h0, -⟩
    · rw [drainLoop_of_lowest hr hset hbelow]
      refine DrainsAll.cons (ih hr.drainFlag fun k hk => ?_) h32 hset hbelow
      have hi : ¬ i + (fuel + 1) < 32 := fun hlt => by simp [hlow i hlt] at hset
      rw [drainFlag_of_lowest hset hbelow, State.setResult_cf, State.setCf_cf, clearFlag_getLsbD]
      rcases Nat.lt_or_eq_of_le (show k ≤ i by omega) with hlt | rfl
      · simp [hbelow k hlt]
      · simp
    · exact drainLoop_of_zero hr h0 ▸ drainsAll_of_zero h0

end DrainLoop

/-! ## The obligations -/

/-- Settles O27: after the SET a read of the register gives the value's bytes, the operations in between keep that, and the
GET returns their number. -/
theorem setThenGet : Obligations.SetThenGet := by
  intro c s t a d mids hc hn hmids h
  obtain ⟨s₁, hset, h⟩ := performAll_cons_next h
  obtain ⟨s₂, hmid, h⟩ := performAll_append_next h
  have hstore := exec_set_next hc hset
  have hholds : HoldsValue c a d s₁.buf := (storeRegister_holds hstore (decide_eq_true hn)).1
  obtain ⟨hc₂, hload⟩ := performAll_loadRegister ((storeRegister_cfg hstore).trans hc) hmids hmid
  obtain ⟨bs, hbs, rfl⟩ := exec_get_next hc₂ (performAll_singleton_next h)
  rw [hload, loadRegister_of_holdsValue hn hholds] at hbs
  cases hbs
  exact congrArg (fun x => some (HostResult.value x)) (hostValue_valueBytes c d)

/-- Settles O28: the request reads register a, as PRA is a; no operation of the sequence changes what that read gives, so a
GET before or after reads the same bytes. -/
theorem selectThenTxEqualsGet : Obligations.SelectThenTxEqualsGet := by
  intro c s t a sel resp mids hc hsel hresp hmids h
  obtain ⟨s₁, h₁, hrest⟩ := performAll_cons_next h
  obtain ⟨s₂, h₂, hlast⟩ := performAll_append_next hrest
  obtain rfl := exec_select_next hsel h₁
  obtain ⟨hc₂, hload⟩ := performAll_loadRegister (s := s.setPra a) hc (fun i hi => (hmids i hi).1) h₂
  have hpra : s₂.pra = a := performAll_pra (s := s.setPra a) hc (fun i hi => (hmids i hi).2) h₂
  obtain ⟨bs, hbs, rfl⟩ := exec_resp_next hc₂ hresp (performAll_singleton_next hlast)
  rw [hpra] at hbs
  have hbefore : loadRegister c s a = some bs := hload.symm.trans hbs
  have hget : ∀ {v u}, v.cfg = some c → loadRegister c v a = some bs → exec (.get a) v = .next u →
      ∃ d, u.result = some (.value d) ∧ some bs = some (leEncode d.toNat c.rw.bytes) := fun hv hload hu => by
    obtain ⟨bs', hbs', rfl⟩ := exec_get_next hv hu
    obtain rfl : bs' = bs := Option.some.inj (hbs'.symm.trans hload)
    exact ⟨_, rfl, congrArg some (leEncode_hostValue (loadRegister_length hbs)).symm⟩
  exact ⟨fun _ hu => hget hc hbefore hu, fun _ hu => hget (v := s₂.setResponse bs) hc₂ hbs hu,
    fun hn => hbefore.symm.trans (loadRegister_outOfRange hn)⟩

/-- Settles O29: 33 DRAINs are enough for 32 flags; after the WRITE its flag is the lowest one set, so the next DRAIN returns
it. -/
theorem drainLoopAscending : Obligations.DrainLoopAscending := by
  intro c s hr
  have hall : DrainsAll s (drainLoop 33 s) := drainLoop_drainsAll hr fun k hk => absurd hk (by omega)
  refine ⟨⟨hall.ascending, hall.exact, hall.cleared, hall.ended⟩, fun i a v t hw hn h32 hlow h => ?_⟩
  obtain ⟨u, hu, h⟩ := performAll_cons_next h
  obtain rfl := exec_drain_next (performAll_singleton_next h)
  have hset : u.cf.getLsbD a.toNat = true := by simp [exec_write_cf hr.1 hw hu, hn, h32]
  have hbelow : ∀ k < a.toNat, u.cf.getLsbD k = false := fun k hk => by
    have hold : s.cf.getLsbD k = false := Bool.eq_false_iff.2 fun hset => absurd (hlow k hset) (by omega)
    simp [exec_write_cf hr.1 hw hu, hold, Nat.ne_of_lt hk]
  rw [drainFlag_of_lowest hset hbelow]
  rfl

end Sys2Proof.Machine
end

/-! # An operation's events (R47, R48, R80): each does one byte, and uninterrupted they end as the operation performed whole
-/

section
namespace Sys2Proof.Machine

/-! ## The events of an operation in flight under the invariant (R80) -/

section EventsComplete

variable {s : State} {c : Cfg} {x : Access}

/-- While bytes are still to do, the environment's choice picks one. -/
theorem pick_of_ne_nil {todo : List Nat} (h : todo ≠ []) (j : Nat) : ∃ k rest, pick todo j = some (k, rest) := by
  obtain ⟨⟨k, rest⟩, hp⟩ := Option.ne_none_iff_exists'.1 fun hnone => h (pick_none.1 hnone)
  exact ⟨k, rest, hp⟩

theorem busEvent_emit (hc : s.cfg = some c) (hf : s.busFlight = some (.respond x)) (hx : x.todo = []) (j : Nat) :
    busEvent j s = .next ((s.setResponse x.data).setBusFlight none) := by
  rw [busEvent_respond hc hf, busRespondEvent, hx]
  rfl

theorem hostEvent_return (hc : s.cfg = some c) (hf : s.hostFlight = some (.get x)) (hx : x.todo = []) (j : Nat) :
    hostEvent j s = .next ((s.setResult (.value (hostValue x.data))).setHostFlight none) := by
  rw [hostEvent_get hc hf, hostGetEvent, hx]
  rfl

theorem hostEvent_stored (hc : s.cfg = some c) (hf : s.hostFlight = some (.set x)) (hx : x.todo = []) (j : Nat) :
    hostEvent j s = .next (s.setHostFlight none) := by
  rw [hostEvent_set hc hf, hostSetEvent, hx]
  rfl

variable {t : State} {bs : List Byte} {j k : Nat} {rest : List Nat}

theorem busEvent_storeByte (hc : s.cfg = some c) (hf : s.busFlight = some (.write x))
    (hp : pick x.todo j = some (k, rest)) (ht : storeByte c x k s = some t) :
    busEvent j s = .next (t.setBusFlight (some (.write (x.advance rest)))) := by
  rw [busEvent_write hc hf, busWriteEvent, hp]
  simp only [ht, Option.map_some, orOutside_some]

theorem busEvent_loadByte (hc : s.cfg = some c) (hf : s.busFlight = some (.respond x))
    (hp : pick x.todo j = some (k, rest)) (hbs : loadByte c x k s = some bs) :
    busEvent j s = .next (s.setBusFlight (some (.respond ⟨x.addr, bs, rest⟩))) := by
  rw [busEvent_respond hc hf, busRespondEvent, hp]
  simp only [hbs, Option.map_some, orOutside_some]

theorem hostEvent_loadByte (hc : s.cfg = some c) (hf : s.hostFlight = some (.get x))
    (hp : pick x.todo j = some (k, rest)) (hbs : loadByte c x k s = some bs) :
    hostEvent j s = .next (s.setHostFlight (some (.get ⟨x.addr, bs, rest⟩))) := by
  rw [hostEvent_get hc hf, hostGetEvent, hp]
  simp only [hbs, Option.map_some, orOutside_some]

theorem hostEvent_storeByte (hc : s.cfg = some c) (hf : s.hostFlight = some (.set x))
    (hp : pick x.todo j = some (k, rest)) (ht : storeByte c x k s = some t) :
    hostEvent j s = .next (t.setHostFlight (some (.set (x.advance rest)))) := by
  rw [hostEvent_set hc hf, hostSetEvent, hp]
  simp only [ht, Option.map_some, orOutside_some]

/-- A BUS event does one byte, or ends the operation when none is left. -/
theorem busEvent_finishes (hs : BlockInv c s) (hc : s.cfg = some c) {f : BusFlight} (hf : s.busFlight = some f) (j : Nat) :
    ∃ t, busEvent j s = .next t ∧ (f.access.todo = [] → t.busFlight = none) ∧
      (f.access.todo ≠ [] → ∃ f', t.busFlight = some f' ∧ f'.access.todo.length + 1 = f.access.todo.length) := by
  have hok : f.access.ok c := hs.bus f hf
  by_cases htodo : f.access.todo = []
  · cases f with
    | write x => exact ⟨_, busEvent_flag hc hf htodo j, fun _ => rfl, fun h => absurd htodo h⟩
    | respond x => exact ⟨_, busEvent_emit hc hf htodo j, fun _ => rfl, fun h => absurd htodo h⟩
  · obtain ⟨k, rest, hp⟩ := pick_of_ne_nil htodo j
    cases f with
    | write x =>
      obtain ⟨t, ht⟩ := storeByte_exists hs hok (pick_some hp).1
      exact ⟨_, busEvent_storeByte hc hf hp ht, fun h => absurd h htodo, fun _ => ⟨_, rfl, pick_length hp⟩⟩
    | respond x =>
      obtain ⟨bs, hbs⟩ := loadByte_exists hs hok (pick_some hp).1
      exact ⟨_, busEvent_loadByte hc hf hp hbs, fun h => absurd h htodo, fun _ => ⟨_, rfl, pick_length hp⟩⟩

/-- A HOST event does one byte, or ends the operation when none is left. -/
theorem hostEvent_finishes (hs : BlockInv c s) (hc : s.cfg = some c) {f : HostFlight} (hf : s.hostFlight = some f)
    (j : Nat) :
    ∃ t, hostEvent j s = .next t ∧ (f.access.todo = [] → t.hostFlight = none) ∧
      (f.access.todo ≠ [] → ∃ f', t.hostFlight = some f' ∧ f'.access.todo.length + 1 = f.access.todo.length) := by
  have hok : f.access.ok c := hs.host f hf
  by_cases htodo : f.access.todo = []
  · cases f with
    | get x => exact ⟨_, hostEvent_return hc hf htodo j, fun _ => rfl, fun h => absurd htodo h⟩
    | set x => exact ⟨_, hostEvent_stored hc hf htodo j, fun _ => rfl, fun h => absurd htodo h⟩
  · obtain ⟨k, rest, hp⟩ := pick_of_ne_nil htodo j
    cases f with
    | get x =>
      obtain ⟨bs, hbs⟩ := loadByte_exists hs hok (pick_some hp).1
      exact ⟨_, hostEvent_loadByte hc hf hp hbs, fun h => absurd h htodo, fun _ => ⟨_, rfl, pick_length hp⟩⟩
    | set x =>
      obtain ⟨t, ht⟩ := storeByte_exists hs hok (pick_some hp).1
      exact ⟨_, hostEvent_storeByte hc hf hp ht, fun h => absurd h htodo, fun _ => ⟨_, rfl, pick_length hp⟩⟩

end EventsComplete

/-! ## Byte events in any order end at one buffer, or at one value read (R48) -/

section Progress

variable {s t : State} {c : Cfg} {a : Addr} {v : Value} {m M : Memory} {x : Access} {reg bs : List Byte} {j k : Nat}
  {rest : List Nat}

/-- A buffer is its offsets, each listed once, and the byte at each. -/
theorem Memory.ext_of_read {m m' : Memory} (hkeys : m.map Prod.fst = m'.map Prod.fst) (hnodup : (m.map Prod.fst).Nodup)
    (hread : ∀ i, m.read i = m'.read i) : m = m' := by
  induction m generalizing m' with
  | nil => exact (List.map_eq_nil_iff.1 hkeys.symm).symm
  | cons p m ih =>
    obtain ⟨off, b⟩ := p
    cases m' with
    | nil => cases hkeys
    | cons p' m' =>
      obtain ⟨off', b'⟩ := p'
      obtain ⟨rfl, htails⟩ : off = off' ∧ m.map Prod.fst = m'.map Prod.fst := by simpa using hkeys
      obtain ⟨hnew, hnodup⟩ := List.nodup_cons.1 hnodup
      obtain rfl : b = b' := by simpa [Memory.read] using hread off
      have hnone : ∀ m'' : Memory, off ∉ m''.map Prod.fst → m''.read off = none := fun m'' h =>
        Option.not_isSome_iff_eq_none.1 fun hsome => h ((Memory.read_isSome_iff m'' off).1 hsome)
      have htail : m = m' := ih htails hnodup fun i => by
        by_cases hi : off = i
        · subst hi
          rw [hnone m hnew, hnone m' (htails ▸ hnew)]
        · simpa [Memory.read, hi] using hread i
      rw [htail]

/-- The access stores v to register a, and the buffer m differs from M, where all is stored, by bytes still to do only. -/
structure StoresTowards (c : Cfg) (a : Addr) (v : Value) (M m : Memory) (x : Access) : Prop where
  addr : x.addr = a
  data : x.data = valueBytes c v
  ok : x.ok c
  keys : m.map Prod.fst = M.map Prod.fst
  done : ∀ i, (∀ k ∈ x.todo, i ≠ byteOffset c a k) → m.read i = M.read i

/-- A write starts that far from what it stores. -/
theorem storesTowards_writing (h : storeRegister c s a v = some t) :
    StoresTowards c a v t.buf s.buf (Access.writing c a v) := by
  obtain ⟨-, hkeys, hout, -⟩ := storeRegister_some h
  refine ⟨rfl, rfl, writing_ok c a v, hkeys.symm, fun i hi => ?_⟩
  by_cases hr : inRange c a = true
  · obtain ⟨-, hsame⟩ := storeRegister_holds h hr
    refine (hsame i fun k hk => hi k ?_).symm
    simpa [Access.writing, hr] using hk
  · rw [hout (by simpa using hr)]

/-- An access with a byte still to do is in range (R27). -/
theorem Access.ok.inRange (hx : x.ok c) (hk : k ∈ x.todo) : inRange c x.addr = true := by
  obtain ⟨-, -, hout⟩ := hx
  by_contra hr
  simp [hout (by simpa using hr)] at hk

theorem Access.ok.lt (hx : x.ok c) (hk : k ∈ x.todo) : k < c.rw.bytes := by
  obtain ⟨-, ⟨-, hlt⟩, -⟩ := hx
  exact hlt k hk

/-- Each byte event brings the buffer nearer. -/
theorem StoresTowards.storeByte (hx : StoresTowards c a v M s.buf x) (hM : Machine.inRange c a = true → HoldsValue c a v M)
    (hp : pick x.todo j = some (k, rest)) (ht : storeByte c x k s = some t) :
    StoresTowards c a v M t.buf (x.advance rest) := by
  obtain ⟨rfl, hdata, hok, hkeys, hdone⟩ := hx
  obtain ⟨-, hkeys', b, hb, hread⟩ := storeByte_some ht
  have hk : k ∈ x.todo := (pick_some hp).1
  have hlt : k < c.rw.bytes := hok.lt hk
  refine ⟨rfl, hdata, ok_of_pick hok hp hok.1, hkeys'.trans hkeys, fun i hi => ?_⟩
  rw [hread]
  split
  · subst i
    rw [hM (hok.inRange hk) k hlt, ← valueBytes_getElem? c v hlt, ← hdata, hb]
  · rename_i hik
    refine hdone i fun l hl => ?_
    rcases pick_mem_or hp hl with rfl | hl
    · exact hik
    · exact hi l hl

/-- With no byte left to do all is stored. -/
theorem StoresTowards.eq (hx : StoresTowards c a v M m x) (htodo : x.todo = []) (hnodup : (m.map Prod.fst).Nodup) :
    m = M :=
  Memory.ext_of_read hx.keys hnodup fun i => hx.done i (by simp [htodo])

/-- The access reads register a, and what it has read so far are bytes of reg. -/
def ReadsTowards (c : Cfg) (a : Addr) (reg : List Byte) (x : Access) : Prop :=
  x.ok c ∧ x.Reads c a fun j b => b = reg[j]?

/-- A read starts with every byte to do; out of range it starts with the zeros that it gives (R27). -/
theorem readsTowards_reading (h : loadRegister c s a = some reg) : ReadsTowards c a reg (Access.reading c a) := by
  refine ⟨reading_ok c a, ?_⟩
  by_cases hn : a.toNat < c.n
  · exact reading_reads hn _
  · rw [loadRegister_outOfRange (Nat.le_of_not_lt hn)] at h
    cases h
    exact ⟨rfl, zeros_length _, fun _ _ => .inr rfl⟩

theorem ReadsTowards.loadByte (hx : ReadsTowards c a reg x) (hreg : loadRegister c s a = some reg)
    (hp : pick x.todo j = some (k, rest)) (hbs : loadByte c x k s = some bs) :
    ReadsTowards c a reg ⟨x.addr, bs, rest⟩ := by
  obtain ⟨hok, hreads⟩ := hx
  have hr : inRange c a = true := hreads.1 ▸ hok.inRange (pick_some hp).1
  rw [loadRegister, if_pos hr] at hreg
  have hregister : RegisterIs c a (fun j b => b = reg[j]?) s.buf := fun l hl =>
    ((Memory.readBytes_spec hreg).2 l hl).symm
  exact ⟨ok_of_pick hok hp ((loadByte_length hbs).trans hok.1), hreads.loadByte hregister hp hbs⟩

theorem ReadsTowards.eq (hx : ReadsTowards c a reg x) (htodo : x.todo = []) (hlen : reg.length = c.rw.bytes) :
    x.data = reg := by
  obtain ⟨hdata, hbytes⟩ := hx.2.bytesAre htodo
  refine List.ext_getElem? fun l => ?_
  by_cases hl : l < c.rw.bytes
  · exact hbytes l hl
  · rw [List.getElem?_eq_none (by omega), List.getElem?_eq_none (by omega)]

end Progress

/-! ## A run of one agent's event turns -/

section EventRuns

variable {s t : State} {c : Cfg} {a : Addr} {v : Value} {reg : List Byte} {event : Nat → Turn} {js : List Nat}

/-- Event turns of an agent with nothing in flight pass (log 13). -/
theorem runTurns_idle (hidle : ∀ ts j, takeTurn (event j) (t.setTurns ts) = .next (t.setTurns ts)) (js : List Nat) :
    runTurns (js.map event) t = .next (t.setTurns []) := by
  induction js with
  | nil => rfl
  | cons j js ih => exact (runTurns_cons_setTurns (hidle (js.map event) j)).trans ih

/-- If each turn takes a state with n + 1 bytes to do to one with n, and one with none to t, then more turns than bytes end in
t. -/
theorem runTurns_finishes {P : Nat → State → Prop} (hturns : ∀ {n u} ts, P n u → P n (u.setTurns ts))
    (hbyte : ∀ {n u} j, P (n + 1) u → ∃ w, takeTurn (event j) u = .next w ∧ P n w)
    (hlast : ∀ {u} j, P 0 u → takeTurn (event j) u = .next (t.setTurns u.turns))
    (hidle : ∀ ts j, takeTurn (event j) (t.setTurns ts) = .next (t.setTurns ts)) {n : Nat} (hs : P n s)
    (hlen : n < js.length) : runTurns (js.map event) s = .next (t.setTurns []) := by
  induction js generalizing n s with
  | nil => cases hlen
  | cons j js ih =>
    have hs' : P n (s.setTurns (js.map event)) := hturns _ hs
    cases n with
    | zero => exact (runTurns_cons (hlast j hs')).trans (runTurns_idle hidle js)
    | succ n =>
      obtain ⟨w, hw, hP⟩ := hbyte j hs'
      exact (runTurns_cons hw).trans (ih hP (by simpa using hlen))

/-- An agent's event turns carry out a store: `put x` leaves the access x in flight, and `last` ends the operation. -/
structure StoresByTurns (c : Cfg) (event : Nat → Turn) (put : Access → State → State) (last : Addr → State → State) :
    Prop where
  put_turns : ∀ x u ts, (put x u).setTurns ts = put x (u.setTurns ts)
  last_turns : ∀ b u ts, (last b u).setTurns ts = last b (u.setTurns ts)
  turns_put : ∀ x u, (put x u).turns = u.turns
  byte : ∀ {x u w j k rest}, u.cfg = some c → pick x.todo j = some (k, rest) → storeByte c x k u = some w →
    takeTurn (event j) (put x u) = .next (put (x.advance rest) w)
  ended : ∀ {x u} j, u.cfg = some c → x.todo = [] → takeTurn (event j) (put x u) = .next (last x.addr u)
  idle : ∀ b u j, takeTurn (event j) (last b u) = .next (last b u)

/-- An agent's event turns carry out a read: `put x` leaves the access x in flight, and `last` ends the operation. -/
structure ReadsByTurns (c : Cfg) (event : Nat → Turn) (put : Access → State → State) (last : List Byte → State → State) :
    Prop where
  put_turns : ∀ x u ts, (put x u).setTurns ts = put x (u.setTurns ts)
  last_turns : ∀ bs u ts, (last bs u).setTurns ts = last bs (u.setTurns ts)
  turns_put : ∀ x u, (put x u).turns = u.turns
  byte : ∀ {x u bs j k rest}, u.cfg = some c → pick x.todo j = some (k, rest) → loadByte c x k u = some bs →
    takeTurn (event j) (put x u) = .next (put ⟨x.addr, bs, rest⟩ u)
  ended : ∀ {x u} j, u.cfg = some c → x.todo = [] → takeTurn (event j) (put x u) = .next (last x.data u)
  idle : ∀ bs u j, takeTurn (event j) (last bs u) = .next (last bs u)

/-- A store of one byte does not read the turns or the operations in flight. -/
theorem storeByte_update {f : State → State} (hbuf : ∀ u, (f u).buf = u.buf)
    (hset : ∀ u m, (f u).setBuf m = f (u.setBuf m)) {x : Access} {k : Nat} (h : storeByte c x k s = some t) :
    storeByte c x k (f s) = some (f t) := by
  unfold storeByte at h ⊢
  rw [hbuf]
  split at h
  · split at h
    · cases h
      simp [hset]
    · cases h
  · cases h

/-- The state with a WRITE in flight. -/
def leaveWrite (x : Access) (u : State) : State := u.setBusFlight (some (.write x))

/-- The state with a TX_REQUEST in flight. -/
def leaveRespond (x : Access) (u : State) : State := u.setBusFlight (some (.respond x))

/-- The state with a GET in flight. -/
def leaveGet (x : Access) (u : State) : State := u.setHostFlight (some (.get x))

/-- The state with a SET in flight. -/
def leaveSet (x : Access) (u : State) : State := u.setHostFlight (some (.set x))

theorem busWrite_storesByTurns (c : Cfg) :
    StoresByTurns c .busEvent leaveWrite fun b u => (notify c b u).setBusFlight none where
  put_turns := fun _ _ _ => rfl
  last_turns := fun b u ts => by simp only [notify]; split <;> rfl
  turns_put := fun _ _ => rfl
  byte := fun {x u w _ _ _} hc hp hw =>
    busEvent_storeByte (s := leaveWrite x u) (t := leaveWrite x w) hc rfl hp
      (storeByte_update (f := leaveWrite x) (fun _ => rfl) (fun _ _ => rfl) hw)
  ended := fun {x u} j hc hx =>
    (busEvent_flag (s := leaveWrite x u) hc rfl hx j).trans (by simp only [notify]; split <;> rfl)
  idle := fun b u j => busEvent_none (s := (notify c b u).setBusFlight none) rfl j

theorem hostSet_storesByTurns (c : Cfg) :
    StoresByTurns c .hostEvent leaveSet fun _ u => u.setHostFlight none where
  put_turns := fun _ _ _ => rfl
  last_turns := fun _ _ _ => rfl
  turns_put := fun _ _ => rfl
  byte := fun {x u w _ _ _} hc hp hw =>
    hostEvent_storeByte (s := leaveSet x u) (t := leaveSet x w) hc rfl hp
      (storeByte_update (f := leaveSet x) (fun _ => rfl) (fun _ _ => rfl) hw)
  ended := fun {x u} j hc hx => hostEvent_stored (s := leaveSet x u) hc rfl hx j
  idle := fun _ u j => hostEvent_none (s := u.setHostFlight none) rfl j

theorem busRespond_readsByTurns (c : Cfg) :
    ReadsByTurns c .busEvent leaveRespond fun bs u => (u.setResponse bs).setBusFlight none where
  put_turns := fun _ _ _ => rfl
  last_turns := fun _ _ _ => rfl
  turns_put := fun _ _ => rfl
  byte := fun {x u _ _ _ _} hc hp hbs => busEvent_loadByte (s := leaveRespond x u) hc rfl hp hbs
  ended := fun {x u} j hc hx => busEvent_emit (s := leaveRespond x u) hc rfl hx j
  idle := fun bs u j => busEvent_none (s := (u.setResponse bs).setBusFlight none) rfl j

theorem hostGet_readsByTurns (c : Cfg) :
    ReadsByTurns c .hostEvent leaveGet fun bs u => (u.setResult (.value (hostValue bs))).setHostFlight none where
  put_turns := fun _ _ _ => rfl
  last_turns := fun _ _ _ => rfl
  turns_put := fun _ _ => rfl
  byte := fun {x u _ _ _ _} hc hp hbs => hostEvent_loadByte (s := leaveGet x u) hc rfl hp hbs
  ended := fun {x u} j hc hx => hostEvent_return (s := leaveGet x u) hc rfl hx j
  idle := fun bs u j => hostEvent_none (s := (u.setResult (.value (hostValue bs))).setHostFlight none) rfl j

theorem writing_todo_length_le (c : Cfg) (a : Addr) (v : Value) : (Access.writing c a v).todo.length ≤ c.rw.bytes := by
  by_cases hr : inRange c a = true <;> simp [Access.writing, hr]

theorem reading_todo_length_le (c : Cfg) (a : Addr) : (Access.reading c a).todo.length ≤ c.rw.bytes := by
  by_cases hr : inRange c a = true <;> simp [Access.reading, hr]

/-- The invariant speaks of the buffer's offsets only. -/
theorem BlockInv.setBuf {m : Memory} (hs : BlockInv c s) (hkeys : m.map Prod.fst = s.buf.map Prod.fst) :
    BlockInv c (s.setBuf m) :=
  ⟨hs.legal, hkeys.trans hs.buffer, hs.pra, hs.flags, hs.active, hs.bus, hs.host⟩

theorem BlockInv.setTurns (hs : BlockInv c s) (ts : List Turn) : BlockInv c (s.setTurns ts) :=
  ⟨hs.legal, hs.buffer, hs.pra, hs.flags, hs.active, hs.bus, hs.host⟩

/-- A store of v to register a that started in s is under way in w, towards the buffer M, with n bytes still to do. -/
def StoreUnderWay (c : Cfg) (a : Addr) (v : Value) (put : Access → State → State) (s : State) (M : Memory) (n : Nat)
    (w : State) : Prop :=
  ∃ m x ts, w = put x ((s.setBuf m).setTurns ts) ∧ x.todo.length = n ∧ StoresTowards c a v M m x

/-- A read of register a that started in s is under way in w, towards the bytes reg, with n bytes still to do. -/
def ReadUnderWay (c : Cfg) (a : Addr) (reg : List Byte) (put : Access → State → State) (s : State) (n : Nat) (w : State) :
    Prop :=
  ∃ x ts, w = put x (s.setTurns ts) ∧ x.todo.length = n ∧ ReadsTowards c a reg x

/-- A store carried out by event turns, its bytes in any order, leaves what the store at once leaves. -/
theorem StoresByTurns.run {put : Access → State → State} {last : Addr → State → State}
    (h : StoresByTurns c event put last) (hs : BlockInv c s) (hc : s.cfg = some c) (ht : storeRegister c s a v = some t)
    (hlen : c.rw.bytes + 1 ≤ js.length) :
    runTurns (js.map event) (put (Access.writing c a v) s) = .next ((last a t).setTurns []) := by
  obtain ⟨hframe, hkeys, -, -⟩ := storeRegister_some ht
  have hstart : StoreUnderWay c a v put s t.buf (Access.writing c a v).todo.length (put (Access.writing c a v) s) :=
    ⟨s.buf, _, s.turns, rfl, rfl, storesTowards_writing ht⟩
  refine runTurns_finishes (P := StoreUnderWay c a v put s t.buf) ?_ ?_ ?_ ?_ hstart
    (by have := writing_todo_length_le c a v; omega)
  · rintro n _ ts ⟨m, x, _, rfl, hn, hx⟩
    exact ⟨m, x, ts, h.put_turns .., hn, hx⟩
  · rintro n _ j ⟨m, x, ts, rfl, hn, hx⟩
    have hinv : BlockInv c ((s.setBuf m).setTurns ts) := (hs.setBuf (hx.keys.trans hkeys)).setTurns ts
    obtain ⟨k, rest, hp⟩ := pick_of_ne_nil (List.ne_nil_of_length_eq_add_one hn) j
    obtain ⟨w, hw⟩ := storeByte_exists hinv hx.ok (pick_some hp).1
    have hx' := StoresTowards.storeByte (s := (s.setBuf m).setTurns ts) hx (fun hr => (storeRegister_holds ht hr).1) hp hw
    have hrest : (x.advance rest).todo.length = n := by have := pick_length hp; simp only [Access.advance]; omega
    exact ⟨_, h.byte hc hp hw, w.buf, x.advance rest, ts, by rw [(storeByte_some hw).1]; rfl, hrest, hx'⟩
  · rintro _ j ⟨m, x, ts, rfl, hn, hx⟩
    have htodo : x.todo = [] := List.length_eq_zero_iff.1 hn
    have hnodup : (m.map Prod.fst).Nodup := by rw [hx.keys, hkeys, hs.buffer]; exact List.nodup_range
    obtain rfl := hx.eq htodo hnodup
    rw [← hframe, h.ended (u := t.setTurns ts) j ((storeRegister_cfg ht).trans hc) htodo, h.turns_put, h.last_turns, hx.addr]
    rfl
  · intro ts j
    rw [h.last_turns]
    exact h.idle ..

/-- A read carried out by event turns, its bytes in any order, gives what the read at once gives. -/
theorem ReadsByTurns.run {put : Access → State → State} {last : List Byte → State → State}
    (h : ReadsByTurns c event put last) (hs : BlockInv c s) (hc : s.cfg = some c) (hreg : loadRegister c s a = some reg)
    (hlen : c.rw.bytes + 1 ≤ js.length) :
    runTurns (js.map event) (put (Access.reading c a) s) = .next ((last reg s).setTurns []) := by
  have hstart : ReadUnderWay c a reg put s (Access.reading c a).todo.length (put (Access.reading c a) s) :=
    ⟨_, s.turns, rfl, rfl, readsTowards_reading hreg⟩
  refine runTurns_finishes (P := ReadUnderWay c a reg put s) ?_ ?_ ?_ ?_ hstart
    (by have := reading_todo_length_le c a; omega)
  · rintro n _ ts ⟨x, _, rfl, hn, hx⟩
    exact ⟨x, ts, h.put_turns .., hn, hx⟩
  · rintro n _ j ⟨x, ts, rfl, hn, hx⟩
    obtain ⟨k, rest, hp⟩ := pick_of_ne_nil (List.ne_nil_of_length_eq_add_one hn) j
    obtain ⟨bs, hbs⟩ := loadByte_exists (hs.setTurns ts) hx.1 (pick_some hp).1
    have hrest : rest.length = n := by have := pick_length hp; omega
    exact ⟨_, h.byte hc hp hbs, _, ts, rfl, hrest, ReadsTowards.loadByte (s := s.setTurns ts) hx hreg hp hbs⟩
  · rintro _ j ⟨x, ts, rfl, hn, hx⟩
    have htodo : x.todo = [] := List.length_eq_zero_iff.1 hn
    rw [h.ended (u := s.setTurns ts) j hc htodo, h.turns_put, h.last_turns, hx.eq htodo (loadRegister_length hreg)]
    rfl
  · intro ts j
    rw [h.last_turns]
    exact h.idle ..

end EventRuns

/-! ## Started and carried on, against performed whole -/

section Agreement

variable {s t u : State} {c : Cfg} {a : Addr} {v : Value} {i : Instr} {o : Operation} {ts : List Turn} {js : List Nat}

theorem State.setBusFlight_of_none (h : s.busFlight = none) : s.setBusFlight none = s := by
  rw [← h]
  rfl

theorem State.setHostFlight_of_none (h : s.hostFlight = none) : s.setHostFlight none = s := by
  rw [← h]
  rfl

theorem HostReady.setTurns (hr : HostReady c s) (ts : List Turn) : HostReady c (s.setTurns ts) := hr

theorem storeRegister_setTurns (h : storeRegister c s a v = some t) (ts : List Turn) :
    storeRegister c (s.setTurns ts) a v = some (t.setTurns ts) := by
  rw [storeRegister_update (f := (State.setTurns · ts)) rfl (fun _ => rfl), h, Option.map_some]

theorem notify_setTurns (c : Cfg) (a : Addr) (s : State) (ts : List Turn) :
    notify c a (s.setTurns ts) = (notify c a s).setTurns ts := by
  simp only [notify]; split <;> rfl

theorem drainFlag_setTurns (s : State) (ts : List Turn) : drainFlag (s.setTurns ts) = (drainFlag s).setTurns ts := by
  simp only [drainFlag, State.setTurns_cf]
  cases lowestSet s.cf <;> rfl

@[simp] theorem notify_busFlight (c : Cfg) (a : Addr) (s : State) : (notify c a s).busFlight = s.busFlight := by
  rw [notify_eq]; rfl

/-- An operation started and carried on by the turns ts to the state that performing it whole leaves. -/
theorem runTurns_start_eq (hd : decode s.cfg o = .instr i) (hstart : startInstr i (s.setTurns ts) = .next (u.setTurns ts))
    (hwhole : exec i (s.setTurns []) = .next (t.setTurns [])) (hrun : runTurns ts u = .next (t.setTurns [])) :
    runTurns (.start o :: ts) s = runTurns [.op o] s := by
  have hleft : runTurns (.start o :: ts) s = runTurns ts u :=
    runTurns_cons_setTurns ((present_instr (s := s.setTurns ts) hd).trans hstart)
  have hright : runTurns [.op o] s = runTurns [] t :=
    runTurns_cons_setTurns ((present_instr (s := s.setTurns []) hd).trans hwhole)
  rw [hleft, hrun, hright]
  rfl

theorem runTurns_busIdle (hf : t.busFlight = none) (js : List Nat) :
    runTurns (js.map .busEvent) t = .next (t.setTurns []) :=
  runTurns_idle (event := .busEvent) (fun ts j => busEvent_none (s := t.setTurns ts) hf j) js

theorem runTurns_hostIdle (hf : t.hostFlight = none) (js : List Nat) :
    runTurns (js.map .hostEvent) t = .next (t.setTurns []) :=
  runTurns_idle (event := .hostEvent) (fun ts j => hostEvent_none (s := t.setTurns ts) hf j) js

theorem runTurns_start_bus (hs : BlockInv c s) (hr : BusReady c s) (hd : decode (some c) o = .instr i)
    (hb : isBus i = true) (hlen : c.rw.bytes + 1 ≤ js.length) :
    runTurns (.start o :: js.map .busEvent) s = runTurns [.op o] s := by
  have hi : i.inConfig c = true := decode_inConfig hd
  have hd : decode s.cfg o = .instr i := hr.1 ▸ hd
  obtain ⟨-, -, hidle⟩ := id hr
  rcases instr_kinds i with ⟨a, ha⟩ | ⟨a, v, hw⟩ | ⟨b, rfl⟩ | hresp | ⟨n, rw, aw, ba, rfl⟩ | rfl | ⟨a, rfl⟩ | ⟨a, d, rfl⟩ | rfl
  · have hexec := fun ts => exec_select_ready (hr.setTurns ts) hi ha
    exact runTurns_start_eq (u := s.setPra a) (t := s.setPra a) hd
      ((startInstr_of_selectOperand ha _).trans (hexec _)) (hexec _)
      (runTurns_busIdle (t := s.setPra a) hidle js)
  · obtain ⟨t, ht⟩ := storeRegister_exists hs a v
    have hidle' : (notify c a t).busFlight = none := by
      rw [notify_busFlight, (storeRegister_some ht).1]; exact hidle
    have hrun := (busWrite_storesByTurns c).run hs hr.1 ht hlen
    rw [State.setBusFlight_of_none hidle'] at hrun
    refine runTurns_start_eq hd ?_ ?_ hrun
    · rw [startInstr_of_writeOperands hw, onRow_ready (hr.setTurns _) hi]; rfl
    · rw [exec_write_ready (hr.setTurns _) hi hw, writeRegister, storeRegister_setTurns ht, Option.map_some,
        notify_setTurns, orOutside_some]
  · have hexec := fun ts => (exec_ignore b (s.setTurns ts)).trans (onRow_ready (hr.setTurns ts) hi)
    exact runTurns_start_eq (u := s) (t := s) hd (hexec _) (hexec _) (runTurns_busIdle hidle js)
  · obtain ⟨reg, hreg, -⟩ := loadRegister_exists hs s.pra
    have hrun := (busRespond_readsByTurns c).run hs hr.1 hreg hlen
    rw [State.setBusFlight_of_none (s := s.setResponse reg) hidle] at hrun
    refine runTurns_start_eq hd ?_ ?_ hrun
    · rw [startInstr_of_resp hresp, onRow_ready (hr.setTurns _) hi]; rfl
    · have hreg' : loadRegister c (s.setTurns []) (s.setTurns []).pra = some reg := hreg
      rw [exec_of_resp hresp, onRow_ready (hr.setTurns _) hi, respond, hreg']; rfl
  all_goals cases hb

theorem runTurns_start_host (hs : BlockInv c s) (hr : HostReady c s) (hd : decode (some c) o = .instr i)
    (hb : isBus i = false) (hn : ∀ n rw aw ba, i ≠ .configure n rw aw ba) (hlen : c.rw.bytes + 1 ≤ js.length) :
    runTurns (.start o :: js.map .hostEvent) s = runTurns [.op o] s := by
  have hd : decode s.cfg o = .instr i := hr.1 ▸ hd
  cases i with
  | configure n rw aw ba => exact absurd rfl (hn n rw aw ba)
  | begin =>
    have hexec := fun ts => exec_begin_ready (hr.setTurns ts)
    exact runTurns_start_eq (u := s.setActive true) (t := s.setActive true) hd (hexec _) (hexec _)
      (runTurns_hostIdle (t := s.setActive true) hr.2 js)
  | get a =>
    obtain ⟨reg, hreg, -⟩ := loadRegister_exists hs a
    have hrun := (hostGet_readsByTurns c).run hs hr.1 hreg hlen
    rw [State.setHostFlight_of_none (s := s.setResult _) hr.2] at hrun
    exact runTurns_start_eq (t := s.setResult _) hd ((startInstr_get a _).trans (hostOperation_ready (hr.setTurns _)))
      (exec_get_ready (s := s.setTurns []) hr hreg) hrun
  | set a d =>
    obtain ⟨t, ht⟩ := storeRegister_exists hs a d
    have hidle : t.hostFlight = none := by rw [(storeRegister_some ht).1]; exact hr.2
    have hrun := (hostSet_storesByTurns c).run hs hr.1 ht hlen
    rw [State.setHostFlight_of_none hidle] at hrun
    exact runTurns_start_eq hd ((startInstr_set a d _).trans (hostOperation_ready (hr.setTurns _)))
      (exec_set_ready (hr.setTurns _) (storeRegister_setTurns ht _)) hrun
  | drain =>
    have hexec := fun ts => (exec_drain_ready (hr.setTurns ts)).trans
      (congrArg Host.Outcome.next (drainFlag_setTurns s ts))
    exact runTurns_start_eq hd (hexec _) (hexec _) (runTurns_hostIdle ((drainFlag_hostFlight s).trans hr.2) js)
  | _ => cases hb

/-- Frames and read requests decode to BUS operations (R69). -/
theorem isBus_decodeFrame (c : Cfg) (b : List Byte) : isBus (decodeFrame c b) = true := by
  by_cases hs : b.length = c.aw.bytes
  · rw [decodeFrame_of_select hs]
    exact isBus_of_selectOperand (selectOperand_selectInstr (leDecode_lt ..))
  · by_cases hw : b.length = c.aw.bytes + c.rw.bytes
    · rw [decodeFrame_of_write hw]
      exact isBus_of_writeOperands (writeOperands_writeInstr (leDecode_lt ..) (leDecode_lt ..))
    · rw [decodeFrame_of_ignore hs hw]
      rfl

theorem isBus_respInstr (w : RegWidth) : isBus (respInstr w) = true := by cases w <;> rfl

end Agreement

/-! ## The obligations -/

/-- Settles O49: with an operation in flight there is a block, and under its invariant the byte that the event picks exists. -/
theorem eventsFinishOperations : Obligations.EventsFinishOperations := by
  intro s j ts hs
  cases hc : s.cfg with
  | none =>
    have hnone : NoBlock s := by simpa [StateInv, hc] using hs
    refine ⟨fun f hf => ?_, fun f hf => ?_⟩
    · rw [hnone.busFlight] at hf; cases hf
    · rw [hnone.hostFlight] at hf; cases hf
  | some c =>
    have hinv : BlockInv c (s.setTurns ts) := (hs.setTurns ts).block hc
    refine ⟨fun f hf hts => ?_, fun f hf hts => ?_⟩
    · rw [step_cons hts]
      exact busEvent_finishes hinv hc hf j
    · rw [step_cons hts]
      exact hostEvent_finishes hinv hc hf j

/-- Settles O42: a store by events ends at the buffer that the store at once leaves, a read by events at the register it reads,
and every other operation is done when it starts. -/
theorem uninterruptedEventsAgree : Obligations.UninterruptedEventsAgree := by
  intro c s o js hs hlen
  refine ⟨fun hr ho => ?_, fun hr ho => ?_⟩
  · rcases ho with rfl | ⟨b, rfl⟩
    · exact runTurns_start_bus (hs.block hr.1) hr rfl (isBus_respInstr c.rw) hlen
    · exact runTurns_start_bus (hs.block hr.1) hr rfl (isBus_decodeFrame c b) hlen
  · have agree {i} (hd : decode (some c) o = .instr i) (hb : isBus i = false) (hn) :=
      runTurns_start_host (hs.block hr.1) hr hd hb hn hlen
    rcases ho with rfl | rfl | ⟨a, rfl⟩ | ⟨a, d, rfl⟩
    · exact agree rfl rfl nofun
    · exact agree rfl rfl nofun
    · exact agree rfl rfl nofun
    · exact agree rfl rfl nofun

end Sys2Proof.Machine
end
